-- ==== Sys2Proof/Word.lean ====
section
/-!
DEFINITION. The word types of the Super FX (spec 00_scope.md R5, R6): 16-bit registers, 8-bit bytes, 4-bit register numbers.
-/

namespace Sys2Proof

/-- A general register's contents (R5: register width 16 bits). -/
abbrev Word := BitVec 16

/-- A byte of an instruction or of any address space (20_memory.md R70). -/
abbrev Byte := BitVec 8

/-- Four bits: an immediate operand `#n`, a nybble of a colour, the plot options register. -/
abbrev Nibble := BitVec 4

/-- The number of a general register, r0 to r15 (10_state.md R20). -/
abbrev Reg := Fin 16

end Sys2Proof
end

