-- ==== Sys2Proof/Syntax.lean ====
section
/-!
DEFINITION. The instructions, one constructor per row of spec/opcode_table.json, in the table's order.
The first 81 are the instruction rows (30_encoding.md R108, R109); the last 17 are the assembler's pseudo-instruction rows
(R114), which own no word of their own.
-/

namespace Sys2Proof

/-- An instruction of the Super FX. `n`, `d`, `s`, `i` are register numbers, `k` an immediate. -/
inductive Instr where
  /-- `STOP` (46_control.md R299). -/
  | stop
  /-- `NOP` (R298). -/
  | nop
  /-- `CACHE` (R293). -/
  | cache
  /-- `LSR` (42_logic_shift.md R187). -/
  | lsr
  /-- `ROL` (R191). -/
  | rol
  /-- `BRA` (46_control.md R288); `d` is the signed offset byte of every branch (R280). -/
  | bra (d : Byte)
  /-- `BLT` (R285). -/
  | blt (d : Byte)
  /-- `BGE` (R284). -/
  | bge (d : Byte)
  /-- `BNE` (R291). -/
  | bne (d : Byte)
  /-- `BEQ` (R283). -/
  | beq (d : Byte)
  /-- `BPL` (R287). -/
  | bpl (d : Byte)
  /-- `BMI` (R286). -/
  | bmi (d : Byte)
  /-- `BCC` (R281). -/
  | bcc (d : Byte)
  /-- `BCS` (R282). -/
  | bcs (d : Byte)
  /-- `BVC` (R289). -/
  | bvc (d : Byte)
  /-- `BVS` (R290). -/
  | bvs (d : Byte)
  /-- `TO Rn` (40_prefix.md R135); with b = 1 the register move. -/
  | toReg (n : Reg)
  /-- `WITH Rn` (R134). -/
  | withReg (n : Reg)
  /-- `STW [Rn]` (44_load_store.md R236). -/
  | stw (n : Reg)
  /-- `STB [Rn]` (R235). -/
  | stb (n : Reg)
  /-- `LOOP` (46_control.md R297). -/
  | loop
  /-- `ALT1` (40_prefix.md R130). -/
  | alt1
  /-- `ALT2` (R131). -/
  | alt2
  /-- `ALT3` (R132). -/
  | alt3
  /-- `LDW [Rn]` (44_load_store.md R231). -/
  | ldw (n : Reg)
  /-- `LDB [Rn]` (R230). -/
  | ldb (n : Reg)
  /-- `PLOT` (47_plot.md R312). -/
  | plot
  /-- `RPIX` (R313). -/
  | rpix
  /-- `SWAP` (42_logic_shift.md R194). -/
  | swap
  /-- `COLOR` (47_plot.md R311). -/
  | color
  /-- `CMODE` (R310). -/
  | cmode
  /-- `NOT` (42_logic_shift.md R189). -/
  | notW
  /-- `ADD Rn` (41_arithmetic.md R153). -/
  | addR (n : Reg)
  /-- `ADC Rn` (R152). -/
  | adcR (n : Reg)
  /-- `ADD #n` (R153). -/
  | addI (k : Nibble)
  /-- `ADC #n` (R152). -/
  | adcI (k : Nibble)
  /-- `SUB Rn` (R161). -/
  | subR (n : Reg)
  /-- `SBC Rn` (R160). -/
  | sbcR (n : Reg)
  /-- `SUB #n` (R161). -/
  | subI (k : Nibble)
  /-- `CMP Rn` (R154). -/
  | cmpR (n : Reg)
  /-- `MERGE` (42_logic_shift.md R188). -/
  | merge
  /-- `AND Rn` (R181). -/
  | andR (n : Reg)
  /-- `BIC Rn` (R183). -/
  | bicR (n : Reg)
  /-- `AND #n` (R181). -/
  | andI (k : Nibble)
  /-- `BIC #n` (R183). -/
  | bicI (k : Nibble)
  /-- `MULT Rn` (41_arithmetic.md R159). -/
  | multR (n : Reg)
  /-- `UMULT Rn` (R162). -/
  | umultR (n : Reg)
  /-- `MULT #n` (R159). -/
  | multI (k : Nibble)
  /-- `UMULT #n` (R162). -/
  | umultI (k : Nibble)
  /-- `SBK` (44_load_store.md R239). -/
  | sbk
  /-- `LINK #n` (46_control.md R295). -/
  | link (k : Nibble)
  /-- `SEX` (42_logic_shift.md R193). -/
  | sex
  /-- `ASR` (R182). -/
  | asr
  /-- `DIV2` (R184). -/
  | div2
  /-- `ROR` (R192). -/
  | ror
  /-- `JMP Rn` (46_control.md R294). -/
  | jmp (n : Reg)
  /-- `LJMP Rn` (R296). -/
  | ljmp (n : Reg)
  /-- `LOB` (42_logic_shift.md R186). -/
  | lob
  /-- `FMULT` (41_arithmetic.md R156). -/
  | fmult
  /-- `LMULT` (R158). -/
  | lmult
  /-- `IBT Rn,#xx` (43_immediate_move.md R210). -/
  | ibt (n : Reg) (k : Byte)
  /-- `LMS Rn,[xx]` (44_load_store.md R233); `k` is the encoded byte, half the address. -/
  | lms (n : Reg) (k : Byte)
  /-- `SMS [xx],Rn` (R238); `k` is the encoded byte, half the address. -/
  | sms (n : Reg) (k : Byte)
  /-- `FROM Rn` (40_prefix.md R136); with b = 1 the flag-setting move. -/
  | fromReg (n : Reg)
  /-- `HIB` (42_logic_shift.md R185). -/
  | hib
  /-- `OR Rn` (R190). -/
  | orR (n : Reg)
  /-- `XOR Rn` (R195). -/
  | xorR (n : Reg)
  /-- `OR #n` (R190). -/
  | orI (k : Nibble)
  /-- `XOR #n` (R195). -/
  | xorI (k : Nibble)
  /-- `INC Rn` (41_arithmetic.md R157). -/
  | inc (n : Reg)
  /-- `GETC` (45_rom.md R265). -/
  | getc
  /-- `RAMB` (44_load_store.md R234). -/
  | ramb
  /-- `ROMB` (45_rom.md R266). -/
  | romb
  /-- `DEC Rn` (41_arithmetic.md R155). -/
  | dec (n : Reg)
  /-- `GETB` (45_rom.md R261). -/
  | getb
  /-- `GETBH` (R262). -/
  | getbh
  /-- `GETBL` (R263). -/
  | getbl
  /-- `GETBS` (R264). -/
  | getbs
  /-- `IWT Rn,#ppqq` (43_immediate_move.md R211). -/
  | iwt (n : Reg) (k : Word)
  /-- `LM Rn,[ppqq]` (44_load_store.md R232). -/
  | lm (n : Reg) (a : Word)
  /-- `SM [ppqq],Rn` (R237). -/
  | sm (n : Reg) (a : Word)
  /-- `LEA Rn,<address>` (43_immediate_move.md R212): an assembler spelling of IWT; the address may have 24 bits. -/
  | lea (n : Reg) (a : BitVec 24)
  /-- `MOVE Rd,Rs` (R213): WITH Rs, TO Rd. -/
  | moveRR (d s : Reg)
  /-- `MOVE Rn,#xx` (R213): IBT. -/
  | moveI8 (n : Reg) (k : Byte)
  /-- `MOVE Rn,#ppqq` (R213): IWT. -/
  | moveI16 (n : Reg) (k : Word)
  /-- `MOVE Rn,[xx]` (R213): ALT1, LMS; `a` is the address as written, even and at most 510. -/
  | moveLoadShort (n : Reg) (a : BitVec 9)
  /-- `MOVE Rn,[ppqq]` (R213): ALT1, LM. -/
  | moveLoad (n : Reg) (a : Word)
  /-- `MOVE [xx],Rn` (R213): ALT2, SMS; `a` is the address as written, even and at most 510. -/
  | moveStoreShort (n : Reg) (a : BitVec 9)
  /-- `MOVE [ppqq],Rn` (R213): ALT2, SM. -/
  | moveStore (n : Reg) (a : Word)
  /-- `MOVES Rd,Rs` (R215): WITH Rd, FROM Rs. -/
  | movesRR (d s : Reg)
  /-- `MOVEB R0,[Ri]` (R214): ALT1, LDB. -/
  | movebLoad0 (i : Reg)
  /-- `MOVEB Rn,[Ri]` (R214): TO Rn, ALT1, LDB. -/
  | movebLoad (n i : Reg)
  /-- `MOVEB [Ri],R0` (R214): ALT1, STB. -/
  | movebStore0 (i : Reg)
  /-- `MOVEB [Ri],Rn` (R214): FROM Rn, ALT1, STB. -/
  | movebStore (n i : Reg)
  /-- `MOVEW R0,[Ri]` (R216): LDW. -/
  | movewLoad0 (i : Reg)
  /-- `MOVEW Rn,[Ri]` (R216): TO Rn, LDW. -/
  | movewLoad (n i : Reg)
  /-- `MOVEW [Ri],R0` (R216): STW. -/
  | movewStore0 (i : Reg)
  /-- `MOVEW [Ri],Rn` (R216): FROM Rn, STW. -/
  | movewStore (n i : Reg)
  deriving DecidableEq, Repr

/-- The ALT mode, which alt1 and alt2 select together (30_encoding.md R107). -/
inductive Alt where
  | none
  | one
  | two
  | three
  deriving DecidableEq, Repr

/-- Why the decoder gives no instruction. -/
inductive DecodeError where
  /-- The opcode byte has no form under the ALT mode in force (30_encoding.md R111). -/
  | undefinedAltForm
  /-- The byte list ends before the instruction does; the machine's fetch never hands over such a list. -/
  | truncated
  deriving DecidableEq, Repr

/-- Is the instruction a row of the table that owns words (the first 81 rows), not a pseudo-instruction (R114)? -/
def Instr.isCore : Instr → Bool
  | .stop | .nop | .cache | .lsr | .rol | .bra _ | .blt _ | .bge _ | .bne _ | .beq _ | .bpl _ | .bmi _ | .bcc _
  | .bcs _ | .bvc _ | .bvs _ | .toReg _ | .withReg _ | .stw _ | .stb _ | .loop | .alt1 | .alt2 | .alt3 | .ldw _
  | .ldb _ | .plot | .rpix | .swap | .color | .cmode | .notW | .addR _ | .adcR _ | .addI _ | .adcI _ | .subR _
  | .sbcR _ | .subI _ | .cmpR _ | .merge | .andR _ | .bicR _ | .andI _ | .bicI _ | .multR _ | .umultR _ | .multI _
  | .umultI _ | .sbk | .link _ | .sex | .asr | .div2 | .ror | .jmp _ | .ljmp _ | .lob | .fmult | .lmult | .ibt _ _
  | .lms _ _ | .sms _ _ | .fromReg _ | .hib | .orR _ | .xorR _ | .orI _ | .xorI _ | .inc _ | .getc | .ramb | .romb
  | .dec _ | .getb | .getbh | .getbl | .getbs | .iwt _ _ | .lm _ _ | .sm _ _ => true
  | .lea .. | .moveRR .. | .moveI8 .. | .moveI16 .. | .moveLoadShort .. | .moveLoad .. | .moveStoreShort .. | .moveStore ..
  | .movesRR .. | .movebLoad0 .. | .movebLoad .. | .movebStore0 .. | .movebStore .. | .movewLoad0 .. | .movewLoad ..
  | .movewStore0 .. | .movewStore .. => false

end Sys2Proof
end

