-- ==== Sys2Proof/WellFormed.lean ====
section
/-!
DEFINITION. The operand ranges the encodings force (30_encoding.md R115): what an instruction's fields must satisfy to have
an encoding.
-/

namespace Sys2Proof

/-- An address register of LDB, LDW, STB, STW: r0 to r11 (R115). -/
def addressRegOk (n : Reg) : Bool := n.val ≤ 11

/-- An operand register or immediate of AND, BIC, OR, XOR: 1 to 15 (R115). -/
def logicOperandOk (n : Nat) : Bool := n ≠ 0

/-- A register of INC and DEC: r0 to r14 (R115). -/
def countRegOk (n : Reg) : Bool := n.val ≤ 14

/-- A register of JMP and LJMP: r8 to r13 (R115). -/
def jumpRegOk (n : Reg) : Bool := 8 ≤ n.val && n.val ≤ 13

/-- The immediate of LINK: 1 to 4 (R103, R115). -/
def linkOk (k : Nibble) : Bool := 1 ≤ k.toNat && k.toNat ≤ 4

/-- A short RAM address as the assembler is given it: even, 0 to 510 (R105, R114). -/
def shortAddressOk (a : BitVec 9) : Bool := a.toNat % 2 = 0

/-- Do the fields of an instruction lie in the ranges its encoding has (R115, and R114 for the pseudo-instructions)? -/
def Instr.wf : Instr → Bool
  | .stw n | .stb n | .ldw n | .ldb n => addressRegOk n
  | .andR n | .bicR n | .orR n | .xorR n => logicOperandOk n.val
  | .andI k | .bicI k | .orI k | .xorI k => logicOperandOk k.toNat
  | .inc n | .dec n => countRegOk n
  | .jmp n | .ljmp n => jumpRegOk n
  | .link k => linkOk k
  | .moveLoadShort _ a | .moveStoreShort _ a => shortAddressOk a
  | .movebLoad0 i | .movebStore0 i | .movewLoad0 i | .movewStore0 i => addressRegOk i
  | .movebLoad n i | .movebStore n i | .movewLoad n i | .movewStore n i => n ≠ 0 && addressRegOk i
  | .stop | .nop | .cache | .lsr | .rol | .bra _ | .blt _ | .bge _ | .bne _ | .beq _ | .bpl _ | .bmi _ | .bcc _ | .bcs _
  | .bvc _ | .bvs _ | .toReg _ | .withReg _ | .loop | .alt1 | .alt2 | .alt3 | .plot | .rpix | .swap | .color | .cmode | .notW
  | .addR _ | .adcR _ | .addI _ | .adcI _ | .subR _ | .sbcR _ | .subI _ | .cmpR _ | .merge | .multR _ | .umultR _
  | .multI _ | .umultI _ | .sbk | .sex | .asr | .div2 | .ror | .lob | .fmult | .lmult | .ibt _ _ | .lms _ _ | .sms _ _
  | .fromReg _ | .hib | .getc | .ramb | .romb | .getb | .getbh | .getbl | .getbs | .iwt _ _ | .lm _ _ | .sm _ _
  | .lea _ _ | .moveRR _ _ | .moveI8 _ _ | .moveI16 _ _ | .moveLoad _ _ | .moveStore _ _ | .movesRR _ _ => true

end Sys2Proof
end

