-- ==== Sys2Proof/Decode.lean ====
section
/-!
DEFINITION. Decoding and encoding, from the opcode map of 30_encoding.md (R101 to R115).
A byte is decoded under the ALT mode in force (R107); the decoder is total and refuses by name.
-/

namespace Sys2Proof

/-! ## Fields of a byte (R101, R102) -/

/-- Bits 7..4 of an opcode byte. -/
def highNibble (op : Byte) : Fin 16 := ⟨op.toNat / 16, by have := op.isLt; omega⟩

/-- Bits 3..0 of an opcode byte, as a register number (R102). -/
def lowReg (op : Byte) : Reg := ⟨op.toNat % 16, Nat.mod_lt _ (by decide)⟩

/-- Bits 3..0 of an opcode byte, as the immediate `#n` (R103). -/
def lowImm (op : Byte) : Nibble := BitVec.ofNat 4 op.toNat

/-- The byte with high nibble `h` and low nibble `l`. -/
def byteOf (h l : Nat) : Byte := BitVec.ofNat 8 (16 * h + l)

/-- The word `hi : lo`: immediates and RAM words are assembled here (R106; 20_memory.md R74, R75). -/
def wordOf (hi lo : Byte) : Word := hi ++ lo

/-- Bits 7..0 of a word. -/
def lowByte (w : Word) : Byte := w.extractLsb' 0 8

/-- Bits 15..8 of a word. -/
def highByte (w : Word) : Byte := w.extractLsb' 8 8

/-! ## The opcode map (R108, R109) -/

/-- What an opcode byte is under an ALT mode: an instruction, or one that still wants its in-line bytes (R101, R112). -/
inductive Shape where
  | plain    (i : Instr)
  | offset   (f : Byte → Instr)
  | inline8  (f : Byte → Instr)
  | inline16 (f : Word → Instr)
  | undefined

/-- A byte with a form under no ALT prefix only: the "=" cells and the unlisted bytes of R109 have none (R111). -/
def onlyPlain (alt : Alt) (i : Instr) : Shape :=
  match alt with
  | .none => .plain i
  | .one | .two | .three => .undefined

/-- A byte with a form under no prefix and under ALT1 (R109). -/
def plainOrAlt1 (alt : Alt) (i j : Instr) : Shape :=
  match alt with
  | .none => .plain i
  | .one => .plain j
  | .two | .three => .undefined

/-- A byte with a form under every ALT mode (R109). -/
def fourForms (alt : Alt) (i0 i1 i2 i3 : Instr) : Shape :=
  match alt with
  | .none => .plain i0
  | .one => .plain i1
  | .two => .plain i2
  | .three => .plain i3

/-- Row `$0n`: STOP, NOP, CACHE, LSR, ROL, then the branches, which no ALT mode changes (R108, R110, R111). -/
def shapeRow0 (alt : Alt) (l : Fin 16) : Shape :=
  match l with
  | 0 => onlyPlain alt .stop
  | 1 => onlyPlain alt .nop
  | 2 => onlyPlain alt .cache
  | 3 => onlyPlain alt .lsr
  | 4 => onlyPlain alt .rol
  | 5 => .offset .bra
  | 6 => .offset .blt
  | 7 => .offset .bge
  | 8 => .offset .bne
  | 9 => .offset .beq
  | 10 => .offset .bpl
  | 11 => .offset .bmi
  | 12 => .offset .bcc
  | 13 => .offset .bcs
  | 14 => .offset .bvc
  | _ => .offset .bvs -- 15, the one value left

/-- Row `$3n`: STW and STB for n = 0..11, LOOP, ALT1, ALT2, ALT3. -/
def shapeRow3 (alt : Alt) (n : Reg) : Shape :=
  match n with
  | 12 => onlyPlain alt .loop
  | 13 => .plain .alt1
  | 14 => .plain .alt2
  | 15 => .plain .alt3
  | n => plainOrAlt1 alt (.stw n) (.stb n)

/-- Row `$4n`: LDW and LDB for n = 0..11, PLOT and RPIX, SWAP, COLOR and CMODE, NOT. -/
def shapeRow4 (alt : Alt) (n : Reg) : Shape :=
  match n with
  | 12 => plainOrAlt1 alt .plot .rpix
  | 13 => onlyPlain alt .swap
  | 14 => plainOrAlt1 alt .color .cmode
  | 15 => onlyPlain alt .notW
  | n => plainOrAlt1 alt (.ldw n) (.ldb n)

/-- Row `$7n`: MERGE, then AND and BIC for n = 1..15. -/
def shapeRow7 (alt : Alt) (n : Reg) (k : Nibble) : Shape :=
  match n with
  | 0 => onlyPlain alt .merge
  | n => fourForms alt (.andR n) (.bicR n) (.andI k) (.bicI k)

/-- Row `$9n`: SBK, LINK, SEX, ASR and DIV2, ROR, JMP and LJMP, LOB, FMULT and LMULT. -/
def shapeRow9 (alt : Alt) (n : Reg) (k : Nibble) : Shape :=
  match n with
  | 0 => onlyPlain alt .sbk
  | 1 | 2 | 3 | 4 => onlyPlain alt (.link k)
  | 5 => onlyPlain alt .sex
  | 6 => plainOrAlt1 alt .asr .div2
  | 7 => onlyPlain alt .ror
  | 8 | 9 | 10 | 11 | 12 | 13 => plainOrAlt1 alt (.jmp n) (.ljmp n)
  | 14 => onlyPlain alt .lob
  | _ => plainOrAlt1 alt .fmult .lmult -- 15, the one value left

/-- Row `$An`: IBT, LMS, SMS. -/
def shapeRowA (alt : Alt) (n : Reg) : Shape :=
  match alt with
  | .none => .inline8 (.ibt n)
  | .one => .inline8 (.lms n)
  | .two => .inline8 (.sms n)
  | .three => .undefined

/-- Row `$Cn`: HIB, then OR and XOR for n = 1..15. -/
def shapeRowC (alt : Alt) (n : Reg) (k : Nibble) : Shape :=
  match n with
  | 0 => onlyPlain alt .hib
  | n => fourForms alt (.orR n) (.xorR n) (.orI k) (.xorI k)

/-- Row `$Dn`: INC for n = 0..14 under every ALT mode, then GETC, RAMB, ROMB. -/
def shapeRowD (alt : Alt) (n : Reg) : Shape :=
  match n with
  | 15 =>
    match alt with
    | .none => .plain .getc
    | .one => .undefined
    | .two => .plain .ramb
    | .three => .plain .romb
  | n => .plain (.inc n)

/-- Row `$En`: DEC for n = 0..14, then GETB, GETBH, GETBL, GETBS. -/
def shapeRowE (alt : Alt) (n : Reg) : Shape :=
  match n with
  | 15 => fourForms alt .getb .getbh .getbl .getbs
  | n => onlyPlain alt (.dec n)

/-- Row `$Fn`: IWT, LM, SM. -/
def shapeRowF (alt : Alt) (n : Reg) : Shape :=
  match alt with
  | .none => .inline16 (.iwt n)
  | .one => .inline16 (.lm n)
  | .two => .inline16 (.sm n)
  | .three => .undefined

/-- The opcode map: what byte `op` is under ALT mode `alt` (R108, R109). -/
def shape (alt : Alt) (op : Byte) : Shape :=
  let n := lowReg op
  let k := lowImm op
  match highNibble op with
  | 0 => shapeRow0 alt n
  | 1 => .plain (.toReg n)
  | 2 => .plain (.withReg n)
  | 3 => shapeRow3 alt n
  | 4 => shapeRow4 alt n
  | 5 => fourForms alt (.addR n) (.adcR n) (.addI k) (.adcI k)
  | 6 => fourForms alt (.subR n) (.sbcR n) (.subI k) (.cmpR n)
  | 7 => shapeRow7 alt n k
  | 8 => fourForms alt (.multR n) (.umultR n) (.multI k) (.umultI k)
  | 9 => shapeRow9 alt n k
  | 10 => shapeRowA alt n
  | 11 => .plain (.fromReg n)
  | 12 => shapeRowC alt n k
  | 13 => shapeRowD alt n
  | 14 => shapeRowE alt n
  | _ => shapeRowF alt n -- 15, the one value left

/-- How many in-line bytes follow an opcode byte (R112). -/
def inlineBytes (alt : Alt) (op : Byte) : Nat :=
  match shape alt op with
  | .plain _ | .undefined => 0
  | .offset _ | .inline8 _ => 1
  | .inline16 _ => 2

/-- Is the opcode byte a branch, whose offset byte is taken without the in-line flags (46_control.md R280)? -/
def isBranchByte (alt : Alt) (op : Byte) : Bool :=
  match shape alt op with
  | .offset _ => true
  | .plain _ | .undefined | .inline8 _ | .inline16 _ => false

/-- Complete a shape with the bytes that follow the opcode byte. -/
def Shape.complete (sh : Shape) (rest : List Byte) : Except DecodeError (Instr × List Byte) :=
  match sh, rest with
  | .undefined, _ => .error .undefinedAltForm
  | .plain i, rest => .ok (i, rest)
  | .offset f, d :: rest => .ok (f d, rest)
  | .inline8 f, k :: rest => .ok (f k, rest)
  | .inline16 f, lo :: hi :: rest => .ok (f (wordOf hi lo), rest)
  | .offset _, [] | .inline8 _, [] | .inline16 _, [] | .inline16 _, [_] => .error .truncated

/-- One instruction from a byte list under an ALT mode, with the bytes after it. -/
def decode (alt : Alt) : List Byte → Except DecodeError (Instr × List Byte)
  | [] => .error .truncated
  | op :: rest => (shape alt op).complete rest

/-! ## The encoder -/

/-- The ALT mode a core instruction's opcode byte is read under; instructions read under every mode answer `none`
(the "alt" column of the table; a pseudo-instruction has no opcode byte of its own). -/
def altOf : Instr → Alt
  | .stb _ | .ldb _ | .rpix | .cmode | .adcR _ | .sbcR _ | .bicR _ | .umultR _ | .div2 | .ljmp _ | .lmult | .lms _ _ | .xorR _
  | .getbh | .lm _ _ => .one
  | .addI _ | .subI _ | .andI _ | .multI _ | .sms _ _ | .orI _ | .ramb | .getbl | .sm _ _ => .two
  | .adcI _ | .cmpR _ | .bicI _ | .umultI _ | .xorI _ | .romb | .getbs => .three
  | .stop | .nop | .cache | .lsr | .rol | .bra _ | .blt _ | .bge _ | .bne _ | .beq _ | .bpl _ | .bmi _ | .bcc _ | .bcs _
  | .bvc _ | .bvs _ | .toReg _ | .withReg _ | .stw _ | .loop | .alt1 | .alt2 | .alt3 | .ldw _ | .plot | .swap | .color | .notW
  | .addR _ | .subR _ | .merge | .andR _ | .multR _ | .sbk | .link _ | .sex | .asr | .ror | .jmp _ | .lob | .fmult | .ibt _ _
  | .fromReg _ | .hib | .orR _ | .inc _ | .getc | .dec _ | .getb | .iwt _ _
  | .lea _ _ | .moveRR _ _ | .moveI8 _ _ | .moveI16 _ _ | .moveLoadShort _ _ | .moveLoad _ _ | .moveStoreShort _ _
  | .moveStore _ _ | .movesRR _ _ | .movebLoad0 _ | .movebLoad _ _ | .movebStore0 _ | .movebStore _ _ | .movewLoad0 _
  | .movewLoad _ _ | .movewStore0 _ | .movewStore _ _ => .none

/-- Is the instruction read and run the same under every ALT mode (the rows of the table whose "alt" is "any"; R111, R109)? -/
def anyAlt : Instr → Bool
  | .bra _ | .blt _ | .bge _ | .bne _ | .beq _ | .bpl _ | .bmi _ | .bcc _ | .bcs _ | .bvc _ | .bvs _
  | .toReg _ | .withReg _ | .fromReg _ | .alt1 | .alt2 | .alt3 | .inc _ => true
  | .stop | .nop | .cache | .lsr | .rol | .stw _ | .stb _ | .loop | .ldw _ | .ldb _ | .plot | .rpix | .swap | .color | .cmode
  | .notW | .addR _ | .adcR _ | .addI _ | .adcI _ | .subR _ | .sbcR _ | .subI _ | .cmpR _ | .merge | .andR _ | .bicR _
  | .andI _ | .bicI _ | .multR _ | .umultR _ | .multI _ | .umultI _ | .sbk | .link _ | .sex | .asr | .div2 | .ror | .jmp _
  | .ljmp _ | .lob | .fmult | .lmult | .ibt _ _ | .lms _ _ | .sms _ _ | .hib | .orR _ | .xorR _ | .orI _ | .xorI _ | .getc
  | .ramb | .romb | .dec _ | .getb | .getbh | .getbl | .getbs | .iwt _ _ | .lm _ _ | .sm _ _
  | .lea _ _ | .moveRR _ _ | .moveI8 _ _ | .moveI16 _ _ | .moveLoadShort _ _ | .moveLoad _ _ | .moveStoreShort _ _
  | .moveStore _ _ | .movesRR _ _ | .movebLoad0 _ | .movebLoad _ _ | .movebStore0 _ | .movebStore _ _ | .movewLoad0 _
  | .movewLoad _ _ | .movewStore0 _ | .movewStore _ _ => false

/-- The half of an even short address that the instruction stores (R105, R114). -/
def shortIndex (a : BitVec 9) : Byte := a.extractLsb' 1 8

/-- The core instructions an instruction is assembled to: itself behind its ALT prefix, or a pseudo-instruction's sequence
(R109, R114; 43_immediate_move.md R212 to R216). -/
def expand : Instr → List Instr
  | .lea n a => [.iwt n (a.extractLsb' 0 16)]
  | .moveRR d s => [.withReg s, .toReg d]
  | .moveI8 n k => [.ibt n k]
  | .moveI16 n k => [.iwt n k]
  | .moveLoadShort n a => [.alt1, .lms n (shortIndex a)]
  | .moveLoad n a => [.alt1, .lm n a]
  | .moveStoreShort n a => [.alt2, .sms n (shortIndex a)]
  | .moveStore n a => [.alt2, .sm n a]
  | .movesRR d s => [.withReg d, .fromReg s]
  | .movebLoad0 i => [.alt1, .ldb i]
  | .movebLoad n i => [.toReg n, .alt1, .ldb i]
  | .movebStore0 i => [.alt1, .stb i]
  | .movebStore n i => [.fromReg n, .alt1, .stb i]
  | .movewLoad0 i => [.ldw i]
  | .movewLoad n i => [.toReg n, .ldw i]
  | .movewStore0 i => [.stw i]
  | .movewStore n i => [.fromReg n, .stw i]
  | i =>
    match altOf i with
    | .none => [i]
    | .one => [.alt1, i]
    | .two => [.alt2, i]
    | .three => [.alt3, i]

/-- The opcode byte and in-line bytes of a core instruction (R101, R108, R109); a pseudo-instruction has none. -/
def encodeBody : Instr → List Byte
  | .stop => [byteOf 0 0]
  | .nop => [byteOf 0 1]
  | .cache => [byteOf 0 2]
  | .lsr => [byteOf 0 3]
  | .rol => [byteOf 0 4]
  | .bra d => [byteOf 0 5, d]
  | .blt d => [byteOf 0 6, d]
  | .bge d => [byteOf 0 7, d]
  | .bne d => [byteOf 0 8, d]
  | .beq d => [byteOf 0 9, d]
  | .bpl d => [byteOf 0 10, d]
  | .bmi d => [byteOf 0 11, d]
  | .bcc d => [byteOf 0 12, d]
  | .bcs d => [byteOf 0 13, d]
  | .bvc d => [byteOf 0 14, d]
  | .bvs d => [byteOf 0 15, d]
  | .toReg n => [byteOf 1 n]
  | .withReg n => [byteOf 2 n]
  | .stw n | .stb n => [byteOf 3 n]
  | .loop => [byteOf 3 12]
  | .alt1 => [byteOf 3 13]
  | .alt2 => [byteOf 3 14]
  | .alt3 => [byteOf 3 15]
  | .ldw n | .ldb n => [byteOf 4 n]
  | .plot | .rpix => [byteOf 4 12]
  | .swap => [byteOf 4 13]
  | .color | .cmode => [byteOf 4 14]
  | .notW => [byteOf 4 15]
  | .addR n | .adcR n => [byteOf 5 n]
  | .addI k | .adcI k => [byteOf 5 k.toNat]
  | .subR n | .sbcR n | .cmpR n => [byteOf 6 n]
  | .subI k => [byteOf 6 k.toNat]
  | .merge => [byteOf 7 0]
  | .andR n | .bicR n => [byteOf 7 n]
  | .andI k | .bicI k => [byteOf 7 k.toNat]
  | .multR n | .umultR n => [byteOf 8 n]
  | .multI k | .umultI k => [byteOf 8 k.toNat]
  | .sbk => [byteOf 9 0]
  | .link k => [byteOf 9 k.toNat]
  | .sex => [byteOf 9 5]
  | .asr | .div2 => [byteOf 9 6]
  | .ror => [byteOf 9 7]
  | .jmp n | .ljmp n => [byteOf 9 n]
  | .lob => [byteOf 9 14]
  | .fmult | .lmult => [byteOf 9 15]
  | .ibt n k | .lms n k | .sms n k => [byteOf 10 n, k]
  | .fromReg n => [byteOf 11 n]
  | .hib => [byteOf 12 0]
  | .orR n | .xorR n => [byteOf 12 n]
  | .orI k | .xorI k => [byteOf 12 k.toNat]
  | .inc n => [byteOf 13 n]
  | .getc | .ramb | .romb => [byteOf 13 15]
  | .dec n => [byteOf 14 n]
  | .getb | .getbh | .getbl | .getbs => [byteOf 14 15]
  | .iwt n k => [byteOf 15 n, lowByte k, highByte k]
  | .lm n a | .sm n a => [byteOf 15 n, lowByte a, highByte a]
  | .lea _ _ | .moveRR _ _ | .moveI8 _ _ | .moveI16 _ _ | .moveLoadShort _ _ | .moveLoad _ _ | .moveStoreShort _ _
  | .moveStore _ _ | .movesRR _ _ | .movebLoad0 _ | .movebLoad _ _ | .movebStore0 _ | .movebStore _ _ | .movewLoad0 _
  | .movewLoad _ _ | .movewStore0 _ | .movewStore _ _ => []

/-- The bytes an instruction is assembled to, prefix bytes included (the byte column of the table, R10, R114). -/
def encode (i : Instr) : List Byte := (expand i).flatMap encodeBody

/-! ## A byte stream read instruction by instruction -/

/-- The ALT mode with alt1 and alt2 as given (R107). -/
def altMode (alt1 alt2 : Bool) : Alt :=
  match alt1, alt2 with
  | false, false => .none
  | true, false => .one
  | false, true => .two
  | true, true => .three

/-- Is the instruction a prefix or a branch, which leaves the ALT mode alone or adds to it (R107, R111)? -/
def keepsAlt : Instr → Bool
  | .inc _ => false
  | i => anyAlt i

/-- The ALT mode in force after a core instruction (R107). TO and FROM are taken as prefixes here (b = 0). -/
def altAfter (alt : Alt) : Instr → Alt
  | .alt1 => match alt with | .none | .one => .one | .two | .three => .three
  | .alt2 => match alt with | .none | .two => .two | .one | .three => .three
  | .alt3 => .three
  | i => if keepsAlt i then alt else .none

/-- Read at most `fuel` instructions off a byte list, carrying the ALT mode along. -/
def disassemble : Nat → Alt → List Byte → Except DecodeError (List Instr)
  | _, _, [] => .ok []
  | 0, _, _ :: _ => .error .truncated
  | fuel + 1, alt, bs =>
    match decode alt bs with
    | .error e => .error e
    | .ok (i, rest) =>
      match disassemble fuel (altAfter alt i) rest with
      | .error e => .error e
      | .ok is => .ok (i :: is)

/-! ## The host's question about a row of the table -/

/-- The bytes of an instruction given as a number, byte 0 the first, every bit from `nbits` up taken as 0 (3 bytes: the
longest instruction, R100). -/
def tableBytes (nbits w : Nat) : List Byte :=
  let v := w % 2 ^ nbits
  [BitVec.ofNat 8 v, BitVec.ofNat 8 (v / 256), BitVec.ofNat 8 (v / 65536)]

/-- The instruction the decoder reads from such a number with no prefix in force (notes/assumptions/35.md). -/
def decodeTableWord (nbits w : Nat) : Option Instr :=
  match decode .none (tableBytes nbits w) with
  | .ok (i, _) => some i
  | .error _ => none

end Sys2Proof
end

