-- ==== Sys2Proof/Config.lean ====
section
/-!
DEFINITION. What an implementation fixes (the OPEN parameters of 00_scope.md R5) and the values the spec leaves free.
The parameters are plain data that State carries and no instruction changes; a free value is an opaque constant, so that
nothing can be proved of it.
-/

namespace Sys2Proof

/-- COLOR_DEPTH, "one of 16 or 256 (the only depths the source names)" (R5, 92_eei_decisions.md D19). -/
inductive ColorDepth where
  | sixteen
  | twoFiftySix
  deriving DecidableEq, Repr

/-- A run of addresses of one address space. -/
structure Region where
  base : Nat
  size : Nat
  deriving DecidableEq, Repr

/-- A run of code addresses that the platform backs with RAM: code address `base + k` is RAM address `ram + k` for
`k < size` (MEM_MAP, 92_eei_decisions.md D18; 20_memory.md R92). -/
structure CodeWindow where
  base : Nat
  size : Nat
  ram  : Nat
  deriving DecidableEq, Repr

/-- The launch parameters, constant during a run.
`codeHoles`, `romHoles` and `ramHoles` are the addresses outside the domain of MEM_MAP's three functions (D18);
`codeRam` says which code addresses are RAM (R92); `screenRam` is the RAM that SCREEN_LAYOUT occupies (D17). -/
structure Params where
  colorDepth : ColorDepth
  codeHoles  : List Region
  romHoles   : List Region
  ramHoles   : List Region
  codeRam    : List CodeWindow
  screenRam  : List Region
  deriving DecidableEq, Repr

/-! ## Free values (notes/assumptions/38.md): no body, so nothing in Lean can evaluate them -/

/-- The `k`th free 16-bit value a run draws (00_scope.md R11, "any value"). -/
opaque Config.freeWord : Nat → Word

/-- The `k`th free byte a run draws. -/
opaque Config.freeByte : Nat → Byte

/-- The `k`th free nybble a run draws. -/
opaque Config.freeNibble : Nat → Nibble

/-- The `k`th free flag a run draws. -/
opaque Config.freeFlag : Nat → Bool

/-- What the ROM buffer holds before the run first writes r14 (93_implementation_defined.md U3, "any value";
notes/assumptions/5.md). -/
opaque Config.launchRombuf : Byte

/-- The address SBK stores to before the run makes a RAM access (10_state.md R45 "unspecified"; notes/assumptions/6.md). -/
opaque Config.launchLastram : Word

end Sys2Proof
end

