-- ==== Sys2Proof/Machine/State.lean ====
section
/-!
DEFINITION. The state of the machine as plain data, the reasons a step can stop, and the state at the start of a run
(spec 10_state.md). INVENTORY.md lists every field with the rule that names it.
-/

namespace Sys2Proof.Machine

/-- A memory: (address, byte) pairs in the canonical form of Machine/Memory.lean. -/
abbrev Memory := List Host.Cell

/-- Whether the ROM buffer holds a byte (the model's bookkeeping; 45_rom.md R260, 92_eei_decisions.md D18). -/
inductive RomStatus where
  /-- The run has not written r14 yet: the buffer's content is unspecified. -/
  | unset
  /-- The buffer holds the byte fetched for the latest write of r14. -/
  | loaded
  /-- The latest write of r14 named an address outside MEM_MAP's ROM. -/
  | unmapped
  deriving DecidableEq, Repr

/-- The machine's state at an instruction boundary. -/
structure State where
  /-- r0 to r15 (R20); r15 is the program counter (R22). -/
  regs : Vector Word 16
  /-- The prefetched instruction byte (R23). -/
  pipe : Byte
  /-- z (R26). -/
  zf : Bool
  /-- c (R26). -/
  cf : Bool
  /-- s (R26). -/
  sf : Bool
  /-- v (R26). -/
  vf : Bool
  /-- GO (R27). -/
  go : Bool
  /-- alt1 (R28). -/
  alt1 : Bool
  /-- alt2 (R28). -/
  alt2 : Bool
  /-- b (R28). -/
  b : Bool
  /-- IL (R29). -/
  il : Bool
  /-- IH (R29). -/
  ih : Bool
  /-- The number of SReg (R30). -/
  sreg : Reg
  /-- The number of DReg (R30). -/
  dreg : Reg
  /-- COLR, the color register (R32). -/
  colr : Byte
  /-- POR, the plot options register (R33). -/
  por : Nibble
  /-- PBR, the PC bank register (R34). -/
  pbr : Byte
  /-- RAMBR, the RAMBank register (R35). -/
  rambr : Byte
  /-- ROMBR, the ROMBank register (R36). -/
  rombr : Byte
  /-- CBR, the cache base register (R37). -/
  cbr : Word
  /-- The numbers of the cache flags that are set (R37). -/
  cacheFlags : List Nat
  /-- The ROM buffer (R38). -/
  rombuf : Byte
  /-- The ROM buffer's "fetch not yet complete" condition (R38). -/
  romPending : Bool
  /-- The model's own: what the ROM buffer's content is worth. -/
  romStatus : RomStatus
  /-- The last RAM address used (R39). -/
  lastram : Word
  /-- The model's own: has the run made a RAM access (R239)? -/
  lastramSet : Bool
  /-- The in-line low-byte buffer (R41). -/
  inlineLo : Byte
  /-- The RAM write buffer: the bytes of the store that has not reached RAM, oldest first (R40). -/
  ramBuf : List Host.Cell
  /-- The plot buffer: the pixels that have not been written out, oldest first (R40). -/
  plotBuf : List Host.Cell
  /-- The pixel space, at y * 256 + x (R42). -/
  pix : Memory
  /-- Code space, at bank * 65536 + address (20_memory.md R71). -/
  code : Memory
  /-- ROM data space, at bank * 65536 + address (R72). -/
  rom : Memory
  /-- RAM, at bank * 65536 + address (R73). -/
  ram : Memory
  /-- The model's own: the RAM addresses the run has stored to, rising (R92). -/
  stored : List Nat
  /-- The launch parameters (00_scope.md R5). -/
  params : Params
  /-- How many IRQs the core has sent to the host (60_exceptions.md R333). -/
  hostIrqs : Nat
  /-- The model's own: how many free values the run has drawn. -/
  draws : Nat
  deriving DecidableEq, Repr

/-- Why the machine stops without a next state. -/
inductive Fault where
  /-- A step is asked for while GO = 0. Raised by `step` alone. Safe: the core takes no step there (10_state.md R27,
  70_reset_and_hazards.md R358). -/
  | stopped
  deriving DecidableEq, Repr

/-- Why the model gives a step no meaning. None is an event on the chip (00_scope.md R11). -/
inductive Refusal where
  /-- An instruction whose meaning is not written. Raised by no arm of `exec`. Safe. -/
  | notModelled (mnemonic : String)
  /-- An opcode byte with no form under the ALT mode in force (30_encoding.md R111). Raised by `step` through the decoder.
  Safe: the spec gives the sequence no meaning. -/
  | undefinedAltForm
  /-- The decoder was given too few bytes. Raised by no step: the fetch hands over as many bytes as the form has. Safe. -/
  | truncated
  /-- FMULT with DReg = r4 (41_arithmetic.md R156). Raised by `execFmult`. Safe: the source forbids the form. -/
  | r4Destination
  /-- An instruction fetch outside MEM_MAP's code (60_exceptions.md R331, D18). Raised by the fetch. Safe. -/
  | unmappedFetch
  /-- A RAM access outside MEM_MAP's RAM, or a GETx whose ROM byte lies outside MEM_MAP's ROM (D18). Raised by the loads,
  the stores and the GETx. Safe. -/
  | unmappedData
  /-- A load, a store or a fetch of RAM that holds the screen (10_state.md R42, D17, U10). Safe. -/
  | screenRam
  /-- A fetch of a code byte that is RAM the run has stored to (20_memory.md R92). Raised by the fetch. Safe. -/
  | storedCode
  deriving DecidableEq, Repr

/-- The parameters at reset: sixteen colours and a map without holes (notes/assumptions/8.md to 11.md; DESIGN CHOICE). -/
def launchParams : Params :=
  { colorDepth := .sixteen, codeHoles := [], romHoles := [], ramHoles := [], codeRam := [], screenRam := [] }

/-- The state at the start of a run (10_state.md R45): GO = 1, prefix data clear, pipe = $01, buffers empty.
Every field R45 calls launch or unspecified is at the value of notes/assumptions/3.md (DESIGN CHOICE), the cache flags among
them: R45 and 70_reset_and_hazards.md R350 call them unspecified, and here none is set. -/
def State.reset : State :=
  { regs := Vector.replicate 16 0
    pipe := 0x01
    zf := false, cf := false, sf := false, vf := false
    go := true
    alt1 := false, alt2 := false, b := false, il := false, ih := false
    sreg := 0, dreg := 0
    colr := 0, por := 0
    pbr := 0, rambr := 0, rombr := 0
    cbr := 0, cacheFlags := []
    rombuf := 0, romPending := false, romStatus := .unset
    lastram := 0, lastramSet := false
    inlineLo := 0
    ramBuf := [], plotBuf := []
    pix := [], code := [], rom := [], ram := []
    stored := []
    params := launchParams
    hostIrqs := 0
    draws := 0 }

end Sys2Proof.Machine
end

