-- ==== Sys2Proof/Machine/Memory.lean ====
section
/-!
DEFINITION. Memories as lists of cells in one canonical form (addresses strictly rising, no cell equal to what an unlisted
address reads as), pending writes, and address sets. The smallest unit is the byte (spec 20_memory.md R70).
-/

namespace Sys2Proof.Machine

/-- What an unlisted address reads as, in all four spaces (DESIGN CHOICE, unsafe: notes/assumptions/7.md). -/
def unlisted : Byte := 0

/-- The byte at an address. -/
def Memory.read : Memory → Nat → Byte
  | [], _ => unlisted
  | (b, v) :: m, a => if b = a then v else Memory.read m a

/-- Put a cell in front of the first cell with a higher address. -/
def insertCell (a : Nat) (v : Byte) : Memory → Memory
  | [] => [(a, v)]
  | (b, w) :: m => if a < b then (a, v) :: (b, w) :: m else (b, w) :: insertCell a v m

/-- The memory without an entry for an address. -/
def Memory.erase (m : Memory) (a : Nat) : Memory := m.filter (fun c => c.1 != a)

/-- Write a byte; writing what an unlisted address reads as removes the entry. -/
def Memory.write (m : Memory) (a : Nat) (v : Byte) : Memory :=
  if v = unlisted then m.erase a else insertCell a v (m.erase a)

/-- The canonical form. -/
abbrev Memory.wf (m : Memory) : Prop := m.Pairwise (fun c d => c.1 < d.1) ∧ ∀ c ∈ m, c.2 ≠ unlisted

/-- The newest pending byte for an address, in a buffer whose oldest entry is first. -/
def pendingByte : List Host.Cell → Nat → Option Byte
  | [], _ => none
  | (b, v) :: buf, a =>
    match pendingByte buf a with
    | some w => some w
    | none => if b = a then some v else none

/-- Write a buffer's bytes out, oldest first. -/
def drainInto : List Host.Cell → Memory → Memory
  | [], m => m
  | (a, v) :: buf, m => drainInto buf (m.write a v)

/-- What an address reads as when buffered writes are seen at once (20_memory.md R84, R88). -/
def readThrough (buf : List Host.Cell) (m : Memory) (a : Nat) : Byte := (pendingByte buf a).getD (m.read a)

/-- Add an address to a rising list of addresses. -/
def insertAddr (a : Nat) : List Nat → List Nat
  | [] => [a]
  | b :: l => if a < b then a :: b :: l else if a = b then b :: l else b :: insertAddr a l

/-- Add the addresses of some cells. -/
def insertAddrs : List Host.Cell → List Nat → List Nat
  | [], l => l
  | (a, _) :: cells, l => insertAddrs cells (insertAddr a l)

/-- Is the address in the region? -/
def inRegion (a : Nat) (r : Region) : Bool := r.base ≤ a && a < r.base + r.size

/-- Is the address in one of the regions? -/
def inRegions (rs : List Region) (a : Nat) : Bool := rs.any (inRegion a)

/-- The RAM address that backs a code address, if one does (20_memory.md R92). -/
def ramBehind : List CodeWindow → Nat → Option Nat
  | [], _ => none
  | w :: ws, a => if w.base ≤ a ∧ a < w.base + w.size then some (w.ram + (a - w.base)) else ramBehind ws a

/-- The address of a byte in a space of 256 banks of 65536 addresses (20_memory.md R71 to R73). -/
def bankAddr (bank : Byte) (addr : Word) : Nat := bank.toNat * 65536 + addr.toNat

/-- The place of the pixel (x, y) in the 256 by 256 pixel space (10_state.md R42). -/
def pixelAddr (x y : Byte) : Nat := y.toNat * 256 + x.toNat

end Sys2Proof.Machine
end

