-- ==== Sys2Proof/Machine/Ops.lean ====
section
/-!
DEFINITION. The named operations every meaning is written over (spec 00_scope.md R7, R8): registers and the program counter,
prefix data, fetch, RAM, the ROM buffer, pixels, free values, and the two ends of a meaning.

There is no operation that takes an exception and none that returns from one: "The core raises no synchronous exception"
(60_exceptions.md R330), takes no interrupt (R332), and has no trap entry (R335) and no trap return (R336).
-/

namespace Sys2Proof.Machine

/-! ## Bytes -/

/-- `sext_8` (R6). -/
def sext8 (b : Byte) : Word := b.signExtend 16

/-- `zext_8` (R6). -/
def zext8 (b : Byte) : Word := b.zeroExtend 16

/-- `zext_4` (R6). -/
def zext4 (k : Nibble) : Word := k.zeroExtend 16

/-- Bits 7..4 of a byte. -/
def highNybble (b : Byte) : Nibble := b.extractLsb' 4 4

/-- Bits 3..0 of a byte. -/
def lowNybble (b : Byte) : Nibble := b.extractLsb' 0 4

/-! ## Registers (10_state.md R20 to R25) -/

/-- `x[n]` (R7). -/
def State.reg (s : State) (n : Reg) : Word := s.regs[n]

/-- `x[n] <- v` with no side effect (R7). -/
def State.setReg (s : State) (n : Reg) (v : Word) : State := { s with regs := s.regs.set n v }

/-- The program counter r15 (R22). -/
def State.pc (s : State) : Word := s.reg 15

/-- `x[15] <- x[15] + 1`, modulo 2^16 inside the bank (R22). -/
def State.advance (s : State) : State := s.setReg 15 (s.pc + 1)

/-- `SRC()`: the source register's value (R8). -/
def State.src (s : State) : Word := s.reg s.sreg

/-- The address the ROM buffer is filled from: (ROMBR, r14) (R25). -/
def State.romAddr (s : State) : Nat := bankAddr s.rombr (s.reg 14)

/-- `RomBufferLoad()` (R8, R25; 45_rom.md R260): the byte at (ROMBR, r14) of the moment of the write. An address outside
MEM_MAP's ROM leaves a buffer that a GETx refuses to read (notes/assumptions/8.md). -/
def State.romLoad (s : State) : State :=
  if inRegions s.params.romHoles s.romAddr then { s with romStatus := .unmapped, romPending := true }
  else { s with rombuf := s.rom.read s.romAddr, romStatus := .loaded, romPending := true }

/-- `WriteReg(n, v)` (R8): a write of r14 fills the ROM buffer. That a write of r15 is a jump is said by `complete`. -/
def State.writeReg (s : State) (n : Reg) (v : Word) : State :=
  if n = 14 then (s.setReg n v).romLoad else s.setReg n v

/-- Does a write of this register jump (R23, R24)? -/
def isPc (n : Reg) : Bool := n = 15

/-! ## Prefix data (10_state.md R28 to R31) -/

/-- `ClearPrefix()` (R8, R31). -/
def State.clearPrefix (s : State) : State :=
  { s with b := false, alt1 := false, alt2 := false, il := false, ih := false, sreg := 0, dreg := 0 }

/-- The ALT mode in force (30_encoding.md R107). -/
def State.altMode (s : State) : Alt := Sys2Proof.altMode s.alt1 s.alt2

/-! ## The end of a meaning (10_state.md R23) -/

/-- The end of a step: r15 moves past the byte that was prefetched, unless the instruction jumped (R23). -/
def complete (jumped : Bool) (s : State) : Host.Outcome State Fault Refusal :=
  .next (if jumped then s else s.advance)

/-- The usual end: `WriteReg(n, v)`, then `ClearPrefix()`. -/
def finishReg (n : Reg) (v : Word) (s : State) : Host.Outcome State Fault Refusal :=
  complete (isPc n) (s.writeReg n v).clearPrefix

/-- The usual end: `DST(v)`, then `ClearPrefix()`. -/
def finishDst (v : Word) (s : State) : Host.Outcome State Fault Refusal := finishReg s.dreg v s

/-- The end of an instruction that writes no register: `ClearPrefix()`. -/
def finish (s : State) : Host.Outcome State Fault Refusal := complete false s.clearPrefix

/-! ## Instruction fetch (10_state.md R23; 20_memory.md R71, R92) -/

/-- `CodeRead(bank, addr)` (R71). A code address that is RAM reads the launch byte; one the run has stored to is refused
(R92), and so is one outside MEM_MAP (60_exceptions.md R331). -/
def State.codeRead (s : State) (bank : Byte) (addr : Word) : Except Refusal Byte :=
  let a := bankAddr bank addr
  if inRegions s.params.codeHoles a then .error .unmappedFetch
  else
    match ramBehind s.params.codeRam a with
    | none => .ok (s.code.read a)
    | some r =>
      if inRegions s.params.screenRam r then .error .screenRam
      else if r ∈ s.stored then .error .storedCode
      else .ok (s.ram.read r)

/-- `pipe <- CodeRead(PBR, x[15])` (R23). -/
def State.prefetch (s : State) : Except Refusal State :=
  match s.codeRead s.pbr s.pc with
  | .error r => .error r
  | .ok b => .ok { s with pipe := b }

/-- `FetchImm()` (R8): the byte in the pipe, and the machine one byte further. -/
def State.fetchImm (s : State) : Except Refusal (Byte × State) :=
  match s.advance.prefetch with
  | .error r => .error r
  | .ok t => .ok (s.pipe, t)

/-- Take the byte in the pipe as an opcode byte: the prefetch of R23, with the in-line flags its form sets (R29). -/
def State.takeOpcode (s : State) (il ih : Bool) : Except Refusal State :=
  match s.prefetch with
  | .error r => .error r
  | .ok t => .ok { t with il := t.il || il, ih := t.ih || ih }

/-- Take one in-line byte. -/
def State.takeByte (s : State) : Except Refusal (List Byte × State) :=
  match s.fetchImm with
  | .error r => .error r
  | .ok (k, t) => .ok ([k], t)

/-- Take two in-line bytes; the low one waits in the in-line low-byte buffer (R41, R106). -/
def State.takeWord (s : State) : Except Refusal (List Byte × State) :=
  match s.fetchImm with
  | .error r => .error r
  | .ok (lo, t) =>
    match ({ t with inlineLo := lo } : State).fetchImm with
    | .error r => .error r
    | .ok (hi, u) => .ok ([u.inlineLo, hi], u)

/-- Take an opcode byte and its in-line bytes, `k` of them; a branch's offset sets no in-line flag (46_control.md R280). -/
def State.takeForm (s : State) (k : Nat) (branch : Bool) : Except Refusal (List Byte × State) :=
  match s.takeOpcode (k != 0 && !branch) (k = 2) with
  | .error r => .error r
  | .ok t =>
    match k with
    | 0 => .ok ([], t)
    | 1 => t.takeByte
    | _ => t.takeWord

/-- The whole next instruction: its opcode byte, its in-line bytes, and the state its meaning runs on, in which r15 is the
address of the byte after it (R22, R23; 30_encoding.md R112). -/
def State.fetch (s : State) : Except Refusal (List Byte × State) :=
  match s.takeForm (inlineBytes s.altMode s.pipe) (isBranchByte s.altMode s.pipe) with
  | .error r => .error r
  | .ok (rest, t) => .ok (s.pipe :: rest, t)

/-- The decoder's errors as refusals of the step. -/
def refusalOf : DecodeError → Refusal
  | .undefinedAltForm => .undefinedAltForm
  | .truncated => .truncated

/-! ## RAM (20_memory.md R73 to R88) -/

/-- May the core load from or store to this RAM address (D17, D18)? -/
def State.ramCheck (s : State) (a : Nat) : Except Refusal Unit :=
  if inRegions s.params.ramHoles a then .error .unmappedData
  else if inRegions s.params.screenRam a then .error .screenRam
  else .ok ()

/-- The byte a load of a RAM address returns: the latest store in program order, or the launch byte (R84). -/
def State.ramByte (s : State) (a : Nat) : Byte := readThrough s.ramBuf s.ram a

/-- The 24-bit RAM address of an address in the current bank (R73). -/
def State.ramAddr (s : State) (addr : Word) : Nat := bankAddr s.rambr addr

/-- `MemRead(addr, 1)` (R78). -/
def State.loadByte (s : State) (addr : Word) : Except Refusal Byte :=
  match s.ramCheck (s.ramAddr addr) with
  | .error r => .error r
  | .ok () => .ok (s.ramByte (s.ramAddr addr))

/-- `MemRead(addr, 2)` (R76): the low byte from `addr & $FFFE`, the high byte from `addr | 1`. -/
def State.loadWord (s : State) (addr : Word) : Except Refusal Word :=
  match s.loadByte (addr &&& 0xFFFE), s.loadByte (addr ||| 1) with
  | .error r, _ => .error r
  | .ok _, .error r => .error r
  | .ok lo, .ok hi => .ok (wordOf hi lo)

/-- Wait until the RAM write buffer is empty (R85, R87). -/
def State.drainRam (s : State) : State := { s with ram := drainInto s.ramBuf s.ram, ramBuf := [] }

/-- Hand a store's bytes to the RAM write buffer: a store waits for the pending one (R85). -/
def State.issueStore (s : State) (cells : List Host.Cell) : State :=
  { s.drainRam with ramBuf := cells, stored := insertAddrs cells s.stored }

/-- `MemWrite(addr, 1, v)` (R78). -/
def State.storeByte (s : State) (addr : Word) (v : Byte) : Except Refusal State :=
  match s.ramCheck (s.ramAddr addr) with
  | .error r => .error r
  | .ok () => .ok (s.issueStore [(s.ramAddr addr, v)])

/-- `MemWrite(addr, 2, v)` (R77): the low byte to `addr`, the high byte to `addr XOR 1`. -/
def State.storeWord (s : State) (addr : Word) (v : Word) : Except Refusal State :=
  match s.ramCheck (s.ramAddr addr), s.ramCheck (s.ramAddr (addr ^^^ 1)) with
  | .error r, _ => .error r
  | .ok (), .error r => .error r
  | .ok (), .ok () => .ok (s.issueStore [(s.ramAddr addr, lowByte v), (s.ramAddr (addr ^^^ 1), highByte v)])

/-- `lastram <- a` (10_state.md R39). -/
def State.noteRam (s : State) (a : Word) : State := { s with lastram := a, lastramSet := true }

/-- The address SBK stores to (R39). Before the run's first RAM access R45 calls it unspecified: a free value. There R239 and
93_implementation_defined.md U4 propose a refusal; that SBK runs is the model's choice (notes/assumptions/6.md). -/
def State.sbkAddr (s : State) : Word := if s.lastramSet then s.lastram else Config.launchLastram

/-! ## The ROM buffer (45_rom.md R260) -/

/-- Wait for the pending ROM fetch and read the buffer; the wait shows in no result (R38). Before the run first writes r14 the
content is a free value: 45_rom.md R260 says that such a GETx is refused, 93_implementation_defined.md U3 "refuse; or rombuf any
value of 8 bits", and the model takes the second (notes/assumptions/5.md). -/
def State.readRomBuffer (s : State) : Except Refusal (Byte × State) :=
  let t := { s with romPending := false }
  match s.romStatus with
  | .unset => .ok (Config.launchRombuf, t)
  | .loaded => .ok (s.rombuf, t)
  | .unmapped => .error .unmappedData

/-! ## Pixels (10_state.md R42; 20_memory.md R88) -/

/-- Wait until the plot buffer is empty: every pending pixel is written out (R88). -/
def State.drainPlot (s : State) : State := { s with pix := drainInto s.plotBuf s.pix, plotBuf := [] }

/-- A pixel with the plots that are still buffered. -/
def State.pixel (s : State) (x y : Byte) : Byte := readThrough s.plotBuf s.pix (pixelAddr x y)

/-- A colour at the width of the colour mode: 4 bits in 16-colour mode, 8 bits in 256-colour mode (47_plot.md R313). -/
def colourOf (depth : ColorDepth) (p : Byte) : Byte :=
  match depth with
  | .sixteen => (lowNybble p).zeroExtend 8
  | .twoFiftySix => p

/-- `PixelWrite(x, y, c)`, buffered (R42, R88). -/
def State.pixelWrite (s : State) (x y c : Byte) : State := { s with plotBuf := s.plotBuf ++ [(pixelAddr x y, c)] }

/-- The pixel position PLOT and RPIX use: x = r1[7:0], y = r2[7:0] (47_plot.md R312). -/
def State.plotX (s : State) : Byte := lowByte (s.reg 1)

/-- See `State.plotX`. -/
def State.plotY (s : State) : Byte := lowByte (s.reg 2)

/-! ## Free values (00_scope.md R11; notes/assumptions/38.md) -/

/-- Move past the free values just drawn. -/
def State.drew (s : State) (k : Nat) : State := { s with draws := s.draws + k }

/-! ## Sequences (43_immediate_move.md R213 to R216) -/

/-- Go on from a next state. -/
def andThen (o : Host.Outcome State Fault Refusal) (f : State → Host.Outcome State Fault Refusal) :
    Host.Outcome State Fault Refusal :=
  match o with
  | .next s => f s
  | .fault r => .fault r
  | .refused r => .refused r

/-- Run the next instruction of a pseudo-instruction's sequence: take its opcode byte and `k` in-line bytes, then its
meaning (notes/assumptions/34.md). -/
def thenForm (k : Nat) (f : State → Host.Outcome State Fault Refusal) (s : State) : Host.Outcome State Fault Refusal :=
  match s.takeForm k false with
  | .error r => .refused r
  | .ok (_, t) => f t

end Sys2Proof.Machine
end

