-- ==== Sys2Proof/Machine/Operands.lean ====
section
/-!
DEFINITION. Every operand form of the instruction set (spec 30_encoding.md R102 to R106). Which form a byte has is the
decoder's choice, from alt1 and alt2 (R109).
-/

namespace Sys2Proof.Machine

/-- The operand `Rn` (R103). -/
def regOperand (s : State) (n : Reg) : Word := s.reg n

/-- The operand `#n`, zero-extended (R103). -/
def immOperand (k : Nibble) : Word := zext4 k

/-- The in-line byte of IBT, and the offset of a branch, sign-extended (R104). -/
def signedByteOperand (k : Byte) : Word := sext8 k

/-- The short RAM address of LMS and SMS: the in-line byte times 2 (R105). -/
def shortAddress (k : Byte) : Word := zext8 k <<< 1

/-- The target of a branch: r15, which is then the address of the first byte after the instruction, plus the offset
(46_control.md R280). -/
def branchTarget (s : State) (d : Byte) : Word := s.pc + signedByteOperand d

end Sys2Proof.Machine
end

