-- ==== Sys2Proof/Machine/Flags.lean ====
section
/-!
DEFINITION. Every flag computation of the instruction set: the adder (spec 41_arithmetic.md R150, R151), SetSZ (00_scope.md R8),
the byte flags of HIB and LOB, MERGE's formulas, and the products.
-/

namespace Sys2Proof.Machine

/-- A carry as a number. -/
def carryIn (c : Bool) : Nat := if c then 1 else 0

/-- The exact sum of the adder, 17 bits (R150). -/
def adderSum (a b : Word) (cin : Bool) : Nat := a.toNat + b.toNat + carryIn cin

/-- The adder's result, the sum's low 16 bits (R150). -/
def adderResult (a b : Word) (cin : Bool) : Word := BitVec.ofNat 16 (adderSum a b cin)

/-- The carry out of bit 15 (R150). -/
def adderCarry (a b : Word) (cin : Bool) : Bool := 65536 ≤ adderSum a b cin

/-- v after an addition: bit 15 of `(a ^ r) & (b ^ r)` (R150). -/
def addOverflow (a b r : Word) : Bool := ((a ^^^ r) &&& (b ^^^ r)).msb

/-- v after a subtraction: bit 15 of `(a ^ b) & (a ^ r)` (R151). -/
def subOverflow (a b r : Word) : Bool := ((a ^^^ b) &&& (a ^^^ r)).msb

/-- `SetSZ(v)` (R8). -/
def State.setSZ (s : State) (r : Word) : State := { s with sf := r.msb, zf := r = 0 }

/-- s and z of a byte result: bit 7, and zero (42_logic_shift.md R185, R186). -/
def State.setByteSZ (s : State) (r : Byte) : State := { s with sf := r.msb, zf := r = 0 }

/-- SetSZ and a carry. -/
def State.setSZC (s : State) (r : Word) (c : Bool) : State := { s.setSZ r with cf := c }

/-- The flags of `AddFlags(a, b, cin)` (R150). -/
def State.setAdd (s : State) (a b : Word) (cin : Bool) : State :=
  { s.setSZC (adderResult a b cin) (adderCarry a b cin) with vf := addOverflow a b (adderResult a b cin) }

/-- The flags of `SubFlags(a, b, cin)`: the adder on the complement of b, with its own overflow (R151). -/
def State.setSub (s : State) (a b : Word) (cin : Bool) : State :=
  { s.setSZC (adderResult a (~~~b) cin) (adderCarry a (~~~b) cin) with vf := subOverflow a b (adderResult a (~~~b) cin) }

/-- MERGE's flags, each 1 when one of the bits it names is 1 (R188). -/
def State.setMerge (s : State) (r : Word) : State :=
  { s with
    sf := (r &&& 0x8080) != 0
    vf := (r &&& 0xC0C0) != 0
    cf := (r &&& 0xE0E0) != 0
    zf := (r &&& 0xF0F0) != 0 }

/-- MOVES' flags: s and z of the word, v its bit 7 (40_prefix.md R136). -/
def State.setMoves (s : State) (t : Word) : State := { s.setSZ t with vf := t.getLsbD 7 }

/-- The exact signed 16 by 16 product, as 32 bits (R156, R158). -/
def product32 (a b : Word) : BitVec 32 := BitVec.ofInt 32 (a.toInt * b.toInt)

/-- The high word of the product. -/
def productHigh (a b : Word) : Word := (product32 a b).extractLsb' 16 16

/-- The low word of the product. -/
def productLow (a b : Word) : Word := (product32 a b).extractLsb' 0 16

/-- Bit 15 of the product, the carry of FMULT and LMULT. -/
def productCarry (a b : Word) : Bool := (product32 a b).getLsbD 15

/-- The signed 8 by 8 product of the low bytes (R159). -/
def signedByteProduct (a b : Word) : Word := BitVec.ofInt 16 ((lowByte a).toInt * (lowByte b).toInt)

/-- The unsigned 8 by 8 product of the low bytes (R162). -/
def unsignedByteProduct (a b : Word) : Word := BitVec.ofNat 16 ((lowByte a).toNat * (lowByte b).toNat)

end Sys2Proof.Machine
end

