-- ==== Sys2Proof/Machine/Arithmetic.lean ====
section
/-!
DEFINITION. The arithmetic instructions (spec 41_arithmetic.md R150 to R163).
-/

namespace Sys2Proof.Machine

/-- `AddFlags` on SReg and an operand, the result to DReg (R150). -/
def addTo (op : Word) (cin : Bool) (s : State) : Host.Outcome State Fault Refusal :=
  finishDst (adderResult s.src op cin) (s.setAdd s.src op cin)

/-- `SubFlags` on SReg and an operand, the result to DReg (R151). -/
def subTo (op : Word) (cin : Bool) (s : State) : Host.Outcome State Fault Refusal :=
  finishDst (adderResult s.src (~~~op) cin) (s.setSub s.src op cin)

/-- ADD Rn (R153). -/
def execAddR (n : Reg) (s : State) : Host.Outcome State Fault Refusal := addTo (regOperand s n) false s

/-- ADD #n (R153). -/
def execAddI (k : Nibble) (s : State) : Host.Outcome State Fault Refusal := addTo (immOperand k) false s

/-- ADC Rn (R152): the old c is the carry in. -/
def execAdcR (n : Reg) (s : State) : Host.Outcome State Fault Refusal := addTo (regOperand s n) s.cf s

/-- ADC #n (R152). -/
def execAdcI (k : Nibble) (s : State) : Host.Outcome State Fault Refusal := addTo (immOperand k) s.cf s

/-- SUB Rn (R161). -/
def execSubR (n : Reg) (s : State) : Host.Outcome State Fault Refusal := subTo (regOperand s n) true s

/-- SUB #n (R161). -/
def execSubI (k : Nibble) (s : State) : Host.Outcome State Fault Refusal := subTo (immOperand k) true s

/-- SBC Rn (R160): the old c is the carry in, 6502 style. -/
def execSbcR (n : Reg) (s : State) : Host.Outcome State Fault Refusal := subTo (regOperand s n) s.cf s

/-- CMP Rn (R154): the flags of a subtraction whose result is not stored. -/
def execCmpR (n : Reg) (s : State) : Host.Outcome State Fault Refusal := finish (s.setSub s.src (regOperand s n) true)

/-- INC Rn (R157). -/
def execInc (n : Reg) (s : State) : Host.Outcome State Fault Refusal := finishReg n (s.reg n + 1) (s.setSZ (s.reg n + 1))

/-- DEC Rn (R155). -/
def execDec (n : Reg) (s : State) : Host.Outcome State Fault Refusal := finishReg n (s.reg n - 1) (s.setSZ (s.reg n - 1))

/-- FMULT (R156): the high word of SReg * r6 to DReg. The spec refuses DReg = r4. -/
def execFmult (s : State) : Host.Outcome State Fault Refusal :=
  if s.dreg = 4 then .refused .r4Destination
  else finishDst (productHigh s.src (s.reg 6)) (s.setSZC (productHigh s.src (s.reg 6)) (productCarry s.src (s.reg 6)))

/-- LMULT with DReg = r4 (R158): r4, s, c and z hold any value; v and the rest are as ever. -/
def lmultToR4 (s : State) : Host.Outcome State Fault Refusal :=
  finish
    (({ s with
        sf := Config.freeFlag s.draws
        cf := Config.freeFlag (s.draws + 1)
        zf := Config.freeFlag (s.draws + 2) } : State).setReg 4 (Config.freeWord s.draws) |>.drew 3)

/-- LMULT (R158): the low word of SReg * r6 to r4, the high word to DReg. -/
def execLmult (s : State) : Host.Outcome State Fault Refusal :=
  if s.dreg = 4 then lmultToR4 s
  else
    finishDst (productHigh s.src (s.reg 6))
      ((s.setSZC (productHigh s.src (s.reg 6)) (productCarry s.src (s.reg 6))).writeReg 4 (productLow s.src (s.reg 6)))

/-- A product to DReg with s and z (R159, R162). -/
def multTo (r : Word) (s : State) : Host.Outcome State Fault Refusal := finishDst r (s.setSZ r)

/-- MULT Rn (R159). -/
def execMultR (n : Reg) (s : State) : Host.Outcome State Fault Refusal :=
  multTo (signedByteProduct s.src (regOperand s n)) s

/-- MULT #n (R159). -/
def execMultI (k : Nibble) (s : State) : Host.Outcome State Fault Refusal :=
  multTo (signedByteProduct s.src (immOperand k)) s

/-- UMULT Rn (R162). -/
def execUmultR (n : Reg) (s : State) : Host.Outcome State Fault Refusal :=
  multTo (unsignedByteProduct s.src (regOperand s n)) s

/-- UMULT #n (R162). -/
def execUmultI (k : Nibble) (s : State) : Host.Outcome State Fault Refusal :=
  multTo (unsignedByteProduct s.src (immOperand k)) s

end Sys2Proof.Machine
end

