-- ==== Sys2Proof/Machine/Control.lean ====
section
/-!
DEFINITION. Control transfer and processor control (spec 46_control.md R280 to R299).
-/

namespace Sys2Proof.Machine

/-- Bcc (R280): to the target if the condition holds; nothing else changes, the prefix data included. -/
def branchIf (cond : Bool) (d : Byte) (s : State) : Host.Outcome State Fault Refusal :=
  complete cond (if cond then s.writeReg 15 (branchTarget s d) else s)

/-- BRA (R288). -/
def execBra (d : Byte) (s : State) : Host.Outcome State Fault Refusal := branchIf true d s

/-- BLT (R285). -/
def execBlt (d : Byte) (s : State) : Host.Outcome State Fault Refusal := branchIf (s.sf ^^ s.vf) d s

/-- BGE (R284). -/
def execBge (d : Byte) (s : State) : Host.Outcome State Fault Refusal := branchIf (!(s.sf ^^ s.vf)) d s

/-- BNE (R291). -/
def execBne (d : Byte) (s : State) : Host.Outcome State Fault Refusal := branchIf (!s.zf) d s

/-- BEQ (R283). -/
def execBeq (d : Byte) (s : State) : Host.Outcome State Fault Refusal := branchIf s.zf d s

/-- BPL (R287). -/
def execBpl (d : Byte) (s : State) : Host.Outcome State Fault Refusal := branchIf (!s.sf) d s

/-- BMI (R286). -/
def execBmi (d : Byte) (s : State) : Host.Outcome State Fault Refusal := branchIf s.sf d s

/-- BCC (R281). -/
def execBcc (d : Byte) (s : State) : Host.Outcome State Fault Refusal := branchIf (!s.cf) d s

/-- BCS (R282). -/
def execBcs (d : Byte) (s : State) : Host.Outcome State Fault Refusal := branchIf s.cf d s

/-- BVC (R289). -/
def execBvc (d : Byte) (s : State) : Host.Outcome State Fault Refusal := branchIf (!s.vf) d s

/-- BVS (R290). -/
def execBvs (d : Byte) (s : State) : Host.Outcome State Fault Refusal := branchIf s.vf d s

/-- CACHE (R293): the cache base to r15, and the cache flags reset, when the base differs. -/
def execCache (s : State) : Host.Outcome State Fault Refusal :=
  finish (if s.cbr = s.pc then s else { s with cbr := s.pc, cacheFlags := [] })

/-- JMP Rn (R294). -/
def execJmp (n : Reg) (s : State) : Host.Outcome State Fault Refusal := finishReg 15 (s.reg n) s

/-- LINK #n (R295). -/
def execLink (k : Nibble) (s : State) : Host.Outcome State Fault Refusal := finishReg 11 (s.pc + immOperand k) s

/-- LJMP Rn (R296): SReg to the PC bank, Rn to r15; the cache flags reset, the cache base any value (D25). -/
def execLjmp (n : Reg) (s : State) : Host.Outcome State Fault Refusal :=
  finishReg 15 (s.reg n)
    ({ s with pbr := lowByte s.src, cacheFlags := [], cbr := Config.freeWord s.draws }.drew 1)

/-- LOOP (R297): r12 down by one, and to r13 unless it became 0. -/
def execLoop (s : State) : Host.Outcome State Fault Refusal :=
  let r := s.reg 12 - 1
  let t := (s.setSZ r).writeReg 12 r
  complete (r != 0) (if r != 0 then t.writeReg 15 (s.reg 13) else t).clearPrefix

/-- NOP (R298). -/
def execNop (s : State) : Host.Outcome State Fault Refusal := finish s

/-- STOP (R299): the buffers empty, GO cleared, one IRQ to the host (60_exceptions.md R333). -/
def execStop (s : State) : Host.Outcome State Fault Refusal :=
  finish { s.drainPlot.drainRam with go := false, hostIrqs := s.hostIrqs + 1 }

end Sys2Proof.Machine
end

