-- ==== Sys2Proof/Machine/Immediate.lean ====
section
/-!
DEFINITION. The immediate loads (spec 43_immediate_move.md R210, R211). The in-line bytes are taken by the fetch.
-/

namespace Sys2Proof.Machine

/-- IBT Rn,#xx (R210). -/
def execIbt (n : Reg) (k : Byte) (s : State) : Host.Outcome State Fault Refusal := finishReg n (signedByteOperand k) s

/-- IWT Rn,#xxxx (R211): one write of the whole word. -/
def execIwt (n : Reg) (k : Word) (s : State) : Host.Outcome State Fault Refusal := finishReg n k s

end Sys2Proof.Machine
end

