-- ==== Sys2Proof/Machine/LoadStore.lean ====
section
/-!
DEFINITION. The RAM loads and stores and RAMB (spec 44_load_store.md R230 to R239). No flag changes.
-/

namespace Sys2Proof.Machine

/-- Load the word at `a` into register `n`, and remember the address (R231 to R233). -/
def loadWordTo (n : Reg) (a : Word) (s : State) : Host.Outcome State Fault Refusal :=
  match s.loadWord a with
  | .error r => .refused r
  | .ok v => finishReg n v (s.noteRam a)

/-- Store the word `v` at `a`, and remember the address (R236 to R238). -/
def storeWordAt (a v : Word) (s : State) : Host.Outcome State Fault Refusal :=
  match (s.noteRam a).storeWord a v with
  | .error r => .refused r
  | .ok t => finish t

/-- LDB [Rn] (R230): the byte zero-extended to DReg (D8). -/
def execLdb (n : Reg) (s : State) : Host.Outcome State Fault Refusal :=
  match s.loadByte (s.reg n) with
  | .error r => .refused r
  | .ok v => finishDst (zext8 v) (s.noteRam (s.reg n))

/-- LDW [Rn] (R231). -/
def execLdw (n : Reg) (s : State) : Host.Outcome State Fault Refusal := loadWordTo s.dreg (s.reg n) s

/-- LM Rn,[xxxx] (R232). -/
def execLm (n : Reg) (a : Word) (s : State) : Host.Outcome State Fault Refusal := loadWordTo n a s

/-- LMS Rn,[xx] (R233). -/
def execLms (n : Reg) (k : Byte) (s : State) : Host.Outcome State Fault Refusal := loadWordTo n (shortAddress k) s

/-- STB [Rn] (R235): the low byte of SReg. -/
def execStb (n : Reg) (s : State) : Host.Outcome State Fault Refusal :=
  match (s.noteRam (s.reg n)).storeByte (s.reg n) (lowByte s.src) with
  | .error r => .refused r
  | .ok t => finish t

/-- STW [Rn] (R236). -/
def execStw (n : Reg) (s : State) : Host.Outcome State Fault Refusal := storeWordAt (s.reg n) s.src s

/-- SM [xxxx],Rn (R237). -/
def execSm (n : Reg) (a : Word) (s : State) : Host.Outcome State Fault Refusal := storeWordAt a (s.reg n) s

/-- SMS [xx],Rn (R238). -/
def execSms (n : Reg) (k : Byte) (s : State) : Host.Outcome State Fault Refusal :=
  storeWordAt (shortAddress k) (s.reg n) s

/-- SBK (R239): a word store to the last RAM address used, which stays. -/
def execSbk (s : State) : Host.Outcome State Fault Refusal :=
  match s.storeWord s.sbkAddr s.src with
  | .error r => .refused r
  | .ok t => finish t

/-- RAMB (R234): waits for the pending store, which goes to the old bank. -/
def execRamb (s : State) : Host.Outcome State Fault Refusal := finish { s.drainRam with rambr := lowByte s.src }

end Sys2Proof.Machine
end

