-- ==== Sys2Proof/Machine/Logic.lean ====
section
/-!
DEFINITION. The logic, shift and byte instructions (spec 42_logic_shift.md R180 to R195).
-/

namespace Sys2Proof.Machine

/-- A logic result to DReg with s and z; c and v stay (R180). -/
def logicTo (r : Word) (s : State) : Host.Outcome State Fault Refusal := finishDst r (s.setSZ r)

/-- A shift's result to DReg with s, z and the bit shifted out (R182, R184, R191, R192). -/
def shiftTo (r : Word) (out : Bool) (s : State) : Host.Outcome State Fault Refusal := finishDst r (s.setSZC r out)

/-- `a[15] : a[15:1]` (R182). -/
def asrResult (a : Word) : Word := a.sshiftRight 1

/-- `a[14:0] : c` (R191). -/
def rolResult (a : Word) (c : Bool) : Word := a <<< 1 ||| (BitVec.ofBool c).zeroExtend 16

/-- `c : a[15:1]` (R192). -/
def rorResult (a : Word) (c : Bool) : Word := a >>> 1 ||| (BitVec.ofBool c).zeroExtend 16 <<< 15

/-- `x[7][15:8] : x[8][15:8]` (R188). -/
def mergeResult (s : State) : Word := wordOf (highByte (s.reg 7)) (highByte (s.reg 8))

/-- AND Rn (R181). -/
def execAndR (n : Reg) (s : State) : Host.Outcome State Fault Refusal := logicTo (s.src &&& regOperand s n) s

/-- AND #n (R181). -/
def execAndI (k : Nibble) (s : State) : Host.Outcome State Fault Refusal := logicTo (s.src &&& immOperand k) s

/-- BIC Rn (R183). -/
def execBicR (n : Reg) (s : State) : Host.Outcome State Fault Refusal := logicTo (s.src &&& ~~~(regOperand s n)) s

/-- BIC #n (R183): the complement is 16 bits wide. -/
def execBicI (k : Nibble) (s : State) : Host.Outcome State Fault Refusal := logicTo (s.src &&& ~~~(immOperand k)) s

/-- OR Rn (R190). -/
def execOrR (n : Reg) (s : State) : Host.Outcome State Fault Refusal := logicTo (s.src ||| regOperand s n) s

/-- OR #n (R190). -/
def execOrI (k : Nibble) (s : State) : Host.Outcome State Fault Refusal := logicTo (s.src ||| immOperand k) s

/-- XOR Rn (R195). -/
def execXorR (n : Reg) (s : State) : Host.Outcome State Fault Refusal := logicTo (s.src ^^^ regOperand s n) s

/-- XOR #n (R195). -/
def execXorI (k : Nibble) (s : State) : Host.Outcome State Fault Refusal := logicTo (s.src ^^^ immOperand k) s

/-- NOT (R189). -/
def execNot (s : State) : Host.Outcome State Fault Refusal := logicTo (~~~s.src) s

/-- SEX (R193). -/
def execSex (s : State) : Host.Outcome State Fault Refusal := logicTo (sext8 (lowByte s.src)) s

/-- ASR (R182). -/
def execAsr (s : State) : Host.Outcome State Fault Refusal := shiftTo (asrResult s.src) (s.src.getLsbD 0) s

/-- DIV2 (R184): ASR, but -1 gives 0. -/
def execDiv2 (s : State) : Host.Outcome State Fault Refusal :=
  shiftTo (if s.src = 0xFFFF then 0 else asrResult s.src) (s.src.getLsbD 0) s

/-- LSR (R187); s is 0, since bit 15 of the result is. -/
def execLsr (s : State) : Host.Outcome State Fault Refusal := shiftTo (s.src >>> 1) (s.src.getLsbD 0) s

/-- ROL (R191). -/
def execRol (s : State) : Host.Outcome State Fault Refusal := shiftTo (rolResult s.src s.cf) s.src.msb s

/-- ROR (R192). -/
def execRor (s : State) : Host.Outcome State Fault Refusal := shiftTo (rorResult s.src s.cf) (s.src.getLsbD 0) s

/-- HIB (R185): the high byte, with s and z of the byte. -/
def execHib (s : State) : Host.Outcome State Fault Refusal :=
  finishDst (zext8 (highByte s.src)) (s.setByteSZ (highByte s.src))

/-- LOB (R186): the low byte, with s and z of the byte. -/
def execLob (s : State) : Host.Outcome State Fault Refusal :=
  finishDst (zext8 (lowByte s.src)) (s.setByteSZ (lowByte s.src))

/-- SWAP (R194): no flag changes (D34). -/
def execSwap (s : State) : Host.Outcome State Fault Refusal := finishDst (wordOf (lowByte s.src) (highByte s.src)) s

/-- MERGE (R188). -/
def execMerge (s : State) : Host.Outcome State Fault Refusal := finishDst (mergeResult s) (s.setMerge (mergeResult s))

end Sys2Proof.Machine
end

