-- ==== Sys2Proof/Machine/Plot.lean ====
section
/-!
DEFINITION. The pixel instructions (spec 47_plot.md R310 to R314).
-/

namespace Sys2Proof.Machine

/-- The byte with high nybble `h` and low nybble `l`. -/
def nybbles (h l : Nibble) : Byte := h ++ l

/-- POR bit 0, transparency (R310). -/
def State.transparency (s : State) : Bool := s.por.getLsbD 0

/-- POR bit 1, dithering (R310). -/
def State.dithering (s : State) : Bool := s.por.getLsbD 1

/-- POR bit 2, "Hi Nybble color bit" (R310). -/
def State.hiNybbleBit (s : State) : Bool := s.por.getLsbD 2

/-- POR bit 3, "Color Hi nybble lock" (R310). -/
def State.hiNybbleLock (s : State) : Bool := s.por.getLsbD 3

/-- CMODE (R310). -/
def execCmode (s : State) : Host.Outcome State Fault Refusal := finish { s with por := lowNybble (lowByte s.src) }

/-- `COLR <- ColorFn(k)` (R311), row by row of its table; where a row says "any value" the colour or its high nybble is free
(D27). -/
def State.setColour (s : State) (k : Byte) : State :=
  match s.params.colorDepth, s.hiNybbleLock, s.hiNybbleBit with
  | .sixteen, false, false => { s with colr := k }
  | .twoFiftySix, false, false => { s with colr := k }
  | .twoFiftySix, true, false => { s with colr := nybbles (highNybble s.colr) (lowNybble k) }
  | .twoFiftySix, true, true => { s with colr := nybbles (highNybble s.colr) (highNybble k) }
  | .sixteen, _, true => { s with colr := nybbles (Config.freeNibble s.draws) (highNybble k) }.drew 1
  | .sixteen, true, false => { s with colr := k }
  | .twoFiftySix, false, true => { s with colr := Config.freeByte s.draws }.drew 1

/-- COLOR (R311). -/
def execColor (s : State) : Host.Outcome State Fault Refusal := finish (s.setColour (lowByte s.src))

/-- Is the pixel position one where dithering selects the high nybble: `(x XOR y) AND 1 = 1` (R312)? -/
def State.ditherHigh (s : State) : Bool := s.plotX.getLsbD 0 ^^ s.plotY.getLsbD 0

/-- Is the pixel not drawn because its colour is transparent (R312)? -/
def State.isTransparent (s : State) : Bool :=
  s.transparency &&
    match s.params.colorDepth with
    | .sixteen => lowNybble s.colr = 0
    | .twoFiftySix => if s.hiNybbleLock then lowNybble s.colr = 0 else s.colr = 0

/-- The colour PLOT writes (R312); dithering in 256-colour mode gives any value (U11). -/
def State.plotColour (s : State) : Byte :=
  match s.params.colorDepth with
  | .sixteen => nybbles 0 (if s.dithering && s.ditherHigh then highNybble s.colr else lowNybble s.colr)
  | .twoFiftySix => if s.dithering then Config.freeByte s.draws else s.colr

/-- How many free values the colour took. -/
def State.plotDraws (s : State) : Nat :=
  match s.params.colorDepth with
  | .sixteen => 0
  | .twoFiftySix => if s.dithering then 1 else 0

/-- PLOT (R312): the pixel at (r1, r2) unless it is transparent; r1 up by one either way. -/
def execPlot (s : State) : Host.Outcome State Fault Refusal :=
  finishReg 1 (s.reg 1 + 1)
    ((if s.isTransparent then s else s.pixelWrite s.plotX s.plotY s.plotColour).drew s.plotDraws)

/-- RPIX (R313): the plot buffer empties, then the pixel's colour goes to DReg with s and z. -/
def execRpix (s : State) : Host.Outcome State Fault Refusal :=
  let t := s.drainPlot
  let r := zext8 (colourOf t.params.colorDepth (t.pix.read (pixelAddr t.plotX t.plotY)))
  finishDst r (t.setSZ r)

end Sys2Proof.Machine
end

