-- ==== Sys2Proof/Machine/Prefix.lean ====
section
/-!
DEFINITION. The prefix instructions and the register moves they form (spec 40_prefix.md R130 to R137).
-/

namespace Sys2Proof.Machine

/-- ALT1 (R130): alt1 alone is set; the prefix data stays. -/
def execAlt1 (s : State) : Host.Outcome State Fault Refusal := complete false { s with alt1 := true }

/-- ALT2 (R131). -/
def execAlt2 (s : State) : Host.Outcome State Fault Refusal := complete false { s with alt2 := true }

/-- ALT3 (R132). -/
def execAlt3 (s : State) : Host.Outcome State Fault Refusal := complete false { s with alt1 := true, alt2 := true }

/-- WITH Rn (R134). -/
def execWith (n : Reg) (s : State) : Host.Outcome State Fault Refusal :=
  complete false { s with sreg := n, dreg := n, b := true }

/-- TO Rn (R135): names DReg, or with b = 1 moves SReg to Rn. -/
def execTo (n : Reg) (s : State) : Host.Outcome State Fault Refusal :=
  if s.b then finishReg n s.src s else complete false { s with dreg := n }

/-- FROM Rn (R136): names SReg, or with b = 1 moves Rn to DReg and sets s, z and v. -/
def execFrom (n : Reg) (s : State) : Host.Outcome State Fault Refusal :=
  if s.b then finishDst (regOperand s n) (s.setMoves (regOperand s n)) else complete false { s with sreg := n }

end Sys2Proof.Machine
end

