-- ==== Sys2Proof/Machine/Pseudo.lean ====
section
/-!
DEFINITION. The assembler's pseudo-instructions: "their semantics are the semantics of the sequence" (spec 30_encoding.md R114;
43_immediate_move.md R212 to R216). No word decodes to one; each meaning runs the meanings of its sequence, taking the bytes
between them as the fetch does (notes/assumptions/34.md).
-/

namespace Sys2Proof.Machine

/-- LEA Rn,<address> (R212): IWT with the address's low 16 bits. -/
def execLea (n : Reg) (a : BitVec 24) (s : State) : Host.Outcome State Fault Refusal := execIwt n (a.extractLsb' 0 16) s

/-- MOVE Rd,Rs (R213): WITH Rs, TO Rd. -/
def execMoveRR (d n : Reg) (s : State) : Host.Outcome State Fault Refusal :=
  andThen (execWith n s) (thenForm 0 (execTo d))

/-- MOVE Rn,#xx (R213): IBT. -/
def execMoveI8 (n : Reg) (k : Byte) (s : State) : Host.Outcome State Fault Refusal := execIbt n k s

/-- MOVE Rn,#ppqq (R213): IWT. -/
def execMoveI16 (n : Reg) (k : Word) (s : State) : Host.Outcome State Fault Refusal := execIwt n k s

/-- MOVE Rn,[xx] (R213): ALT1, LMS. -/
def execMoveLoadShort (n : Reg) (a : BitVec 9) (s : State) : Host.Outcome State Fault Refusal :=
  andThen (execAlt1 s) (thenForm 1 (execLms n (shortIndex a)))

/-- MOVE Rn,[ppqq] (R213): ALT1, LM. -/
def execMoveLoad (n : Reg) (a : Word) (s : State) : Host.Outcome State Fault Refusal :=
  andThen (execAlt1 s) (thenForm 2 (execLm n a))

/-- MOVE [xx],Rn (R213): ALT2, SMS. -/
def execMoveStoreShort (n : Reg) (a : BitVec 9) (s : State) : Host.Outcome State Fault Refusal :=
  andThen (execAlt2 s) (thenForm 1 (execSms n (shortIndex a)))

/-- MOVE [ppqq],Rn (R213): ALT2, SM. -/
def execMoveStore (n : Reg) (a : Word) (s : State) : Host.Outcome State Fault Refusal :=
  andThen (execAlt2 s) (thenForm 2 (execSm n a))

/-- MOVES Rd,Rs (R215): WITH Rd, FROM Rs. -/
def execMovesRR (d n : Reg) (s : State) : Host.Outcome State Fault Refusal :=
  andThen (execWith d s) (thenForm 0 (execFrom n))

/-- MOVEB R0,[Ri] (R214): ALT1, LDB. -/
def execMovebLoad0 (i : Reg) (s : State) : Host.Outcome State Fault Refusal :=
  andThen (execAlt1 s) (thenForm 0 (execLdb i))

/-- MOVEB Rn,[Ri] (R214): TO Rn, ALT1, LDB. -/
def execMovebLoad (n i : Reg) (s : State) : Host.Outcome State Fault Refusal :=
  andThen (execTo n s) (thenForm 0 (execMovebLoad0 i))

/-- MOVEB [Ri],R0 (R214): ALT1, STB. -/
def execMovebStore0 (i : Reg) (s : State) : Host.Outcome State Fault Refusal :=
  andThen (execAlt1 s) (thenForm 0 (execStb i))

/-- MOVEB [Ri],Rn (R214): FROM Rn, ALT1, STB. -/
def execMovebStore (n i : Reg) (s : State) : Host.Outcome State Fault Refusal :=
  andThen (execFrom n s) (thenForm 0 (execMovebStore0 i))

/-- MOVEW R0,[Ri] (R216): LDW. -/
def execMovewLoad0 (i : Reg) (s : State) : Host.Outcome State Fault Refusal := execLdw i s

/-- MOVEW Rn,[Ri] (R216): TO Rn, LDW. -/
def execMovewLoad (n i : Reg) (s : State) : Host.Outcome State Fault Refusal :=
  andThen (execTo n s) (thenForm 0 (execLdw i))

/-- MOVEW [Ri],R0 (R216): STW. -/
def execMovewStore0 (i : Reg) (s : State) : Host.Outcome State Fault Refusal := execStw i s

/-- MOVEW [Ri],Rn (R216): FROM Rn, STW. -/
def execMovewStore (n i : Reg) (s : State) : Host.Outcome State Fault Refusal :=
  andThen (execFrom n s) (thenForm 0 (execStw i))

end Sys2Proof.Machine
end

