-- ==== Sys2Proof/Machine/Rom.lean ====
section
/-!
DEFINITION. The ROM data instructions (spec 45_rom.md R260 to R266). No flag changes.
-/

namespace Sys2Proof.Machine

/-- Read the ROM buffer and write a word made of its byte and SReg to DReg (R261 to R264). -/
def getTo (f : Byte → Word → Word) (s : State) : Host.Outcome State Fault Refusal :=
  match s.readRomBuffer with
  | .error r => .refused r
  | .ok (v, t) => finishDst (f v s.src) t

/-- GETB (R261). -/
def execGetb (s : State) : Host.Outcome State Fault Refusal := getTo (fun v _ => zext8 v) s

/-- GETBH (R262). -/
def execGetbh (s : State) : Host.Outcome State Fault Refusal := getTo (fun v a => wordOf v (lowByte a)) s

/-- GETBL (R263). -/
def execGetbl (s : State) : Host.Outcome State Fault Refusal := getTo (fun v a => wordOf (highByte a) v) s

/-- GETBS (R264). -/
def execGetbs (s : State) : Host.Outcome State Fault Refusal := getTo (fun v _ => sext8 v) s

/-- GETC (R265): the byte to COLR; with POR bit 2 or bit 3 set COLR is any value (D16). -/
def execGetc (s : State) : Host.Outcome State Fault Refusal :=
  match s.readRomBuffer with
  | .error r => .refused r
  | .ok (v, t) =>
    if s.por.getLsbD 2 || s.por.getLsbD 3 then finish ({ t with colr := Config.freeByte t.draws }.drew 1)
    else finish { t with colr := v }

/-- ROMB (R266): no wait, no new fetch. -/
def execRomb (s : State) : Host.Outcome State Fault Refusal := finish { s with rombr := lowByte s.src }

end Sys2Proof.Machine
end

