-- ==== Sys2Proof/Machine/Dispatch.lean ====
section
/-!
DEFINITION. One arm per instruction: a direct call of its meaning. `exec i s` runs `i` on the state the fetch hands over, in which r15
is the address of the byte after the instruction, and ends at the next instruction boundary (spec 10_state.md R22, R23).
-/

namespace Sys2Proof.Machine

def exec (i : Instr) (s : State) : Host.Outcome State Fault Refusal :=
  match i with
  | .stop => Sys2Proof.Machine.execStop s
  | .nop => Sys2Proof.Machine.execNop s
  | .cache => Sys2Proof.Machine.execCache s
  | .lsr => Sys2Proof.Machine.execLsr s
  | .rol => Sys2Proof.Machine.execRol s
  | .bra n => Sys2Proof.Machine.execBra n s
  | .blt n => Sys2Proof.Machine.execBlt n s
  | .bge n => Sys2Proof.Machine.execBge n s
  | .bne n => Sys2Proof.Machine.execBne n s
  | .beq n => Sys2Proof.Machine.execBeq n s
  | .bpl n => Sys2Proof.Machine.execBpl n s
  | .bmi n => Sys2Proof.Machine.execBmi n s
  | .bcc n => Sys2Proof.Machine.execBcc n s
  | .bcs n => Sys2Proof.Machine.execBcs n s
  | .bvc n => Sys2Proof.Machine.execBvc n s
  | .bvs n => Sys2Proof.Machine.execBvs n s
  | .toReg n => Sys2Proof.Machine.execTo n s
  | .withReg n => Sys2Proof.Machine.execWith n s
  | .stw n => Sys2Proof.Machine.execStw n s
  | .stb n => Sys2Proof.Machine.execStb n s
  | .loop => Sys2Proof.Machine.execLoop s
  | .alt1 => Sys2Proof.Machine.execAlt1 s
  | .alt2 => Sys2Proof.Machine.execAlt2 s
  | .alt3 => Sys2Proof.Machine.execAlt3 s
  | .ldw n => Sys2Proof.Machine.execLdw n s
  | .ldb n => Sys2Proof.Machine.execLdb n s
  | .plot => Sys2Proof.Machine.execPlot s
  | .rpix => Sys2Proof.Machine.execRpix s
  | .swap => Sys2Proof.Machine.execSwap s
  | .color => Sys2Proof.Machine.execColor s
  | .cmode => Sys2Proof.Machine.execCmode s
  | .notW => Sys2Proof.Machine.execNot s
  | .addR n => Sys2Proof.Machine.execAddR n s
  | .adcR n => Sys2Proof.Machine.execAdcR n s
  | .addI n => Sys2Proof.Machine.execAddI n s
  | .adcI n => Sys2Proof.Machine.execAdcI n s
  | .subR n => Sys2Proof.Machine.execSubR n s
  | .sbcR n => Sys2Proof.Machine.execSbcR n s
  | .subI n => Sys2Proof.Machine.execSubI n s
  | .cmpR n => Sys2Proof.Machine.execCmpR n s
  | .merge => Sys2Proof.Machine.execMerge s
  | .andR n => Sys2Proof.Machine.execAndR n s
  | .bicR n => Sys2Proof.Machine.execBicR n s
  | .andI n => Sys2Proof.Machine.execAndI n s
  | .bicI n => Sys2Proof.Machine.execBicI n s
  | .multR n => Sys2Proof.Machine.execMultR n s
  | .umultR n => Sys2Proof.Machine.execUmultR n s
  | .multI n => Sys2Proof.Machine.execMultI n s
  | .umultI n => Sys2Proof.Machine.execUmultI n s
  | .sbk => Sys2Proof.Machine.execSbk s
  | .link n => Sys2Proof.Machine.execLink n s
  | .sex => Sys2Proof.Machine.execSex s
  | .asr => Sys2Proof.Machine.execAsr s
  | .div2 => Sys2Proof.Machine.execDiv2 s
  | .ror => Sys2Proof.Machine.execRor s
  | .jmp n => Sys2Proof.Machine.execJmp n s
  | .ljmp n => Sys2Proof.Machine.execLjmp n s
  | .lob => Sys2Proof.Machine.execLob s
  | .fmult => Sys2Proof.Machine.execFmult s
  | .lmult => Sys2Proof.Machine.execLmult s
  | .ibt n k => Sys2Proof.Machine.execIbt n k s
  | .lms n k => Sys2Proof.Machine.execLms n k s
  | .sms n k => Sys2Proof.Machine.execSms n k s
  | .fromReg n => Sys2Proof.Machine.execFrom n s
  | .hib => Sys2Proof.Machine.execHib s
  | .orR n => Sys2Proof.Machine.execOrR n s
  | .xorR n => Sys2Proof.Machine.execXorR n s
  | .orI n => Sys2Proof.Machine.execOrI n s
  | .xorI n => Sys2Proof.Machine.execXorI n s
  | .inc n => Sys2Proof.Machine.execInc n s
  | .getc => Sys2Proof.Machine.execGetc s
  | .ramb => Sys2Proof.Machine.execRamb s
  | .romb => Sys2Proof.Machine.execRomb s
  | .dec n => Sys2Proof.Machine.execDec n s
  | .getb => Sys2Proof.Machine.execGetb s
  | .getbh => Sys2Proof.Machine.execGetbh s
  | .getbl => Sys2Proof.Machine.execGetbl s
  | .getbs => Sys2Proof.Machine.execGetbs s
  | .iwt n k => Sys2Proof.Machine.execIwt n k s
  | .lm n k => Sys2Proof.Machine.execLm n k s
  | .sm n k => Sys2Proof.Machine.execSm n k s
  | .lea n k => Sys2Proof.Machine.execLea n k s
  | .moveRR n k => Sys2Proof.Machine.execMoveRR n k s
  | .moveI8 n k => Sys2Proof.Machine.execMoveI8 n k s
  | .moveI16 n k => Sys2Proof.Machine.execMoveI16 n k s
  | .moveLoadShort n k => Sys2Proof.Machine.execMoveLoadShort n k s
  | .moveLoad n k => Sys2Proof.Machine.execMoveLoad n k s
  | .moveStoreShort n k => Sys2Proof.Machine.execMoveStoreShort n k s
  | .moveStore n k => Sys2Proof.Machine.execMoveStore n k s
  | .movesRR n k => Sys2Proof.Machine.execMovesRR n k s
  | .movebLoad0 n => Sys2Proof.Machine.execMovebLoad0 n s
  | .movebLoad n k => Sys2Proof.Machine.execMovebLoad n k s
  | .movebStore0 n => Sys2Proof.Machine.execMovebStore0 n s
  | .movebStore n k => Sys2Proof.Machine.execMovebStore n k s
  | .movewLoad0 n => Sys2Proof.Machine.execMovewLoad0 n s
  | .movewLoad n k => Sys2Proof.Machine.execMovewLoad n k s
  | .movewStore0 n => Sys2Proof.Machine.execMovewStore0 n s
  | .movewStore n k => Sys2Proof.Machine.execMovewStore n k s

end Sys2Proof.Machine
end

