-- ==== Sys2Proof/Machine/Step.lean ====
section
/-!
DEFINITION. One step of the core (spec 10_state.md R23), and the state whose next step runs a given word.
-/

namespace Sys2Proof.Machine

/-- One step, taken only while GO = 1 (R23, R27): fetch the next instruction, decode it under the ALT mode in force, run it. -/
def step (s : State) : Host.Outcome State Fault Refusal :=
  if s.go then
    match s.fetch with
    | .error r => .refused r
    | .ok (bytes, t) =>
      match decode t.altMode bytes with
      | .error e => .refused (refusalOf e)
      | .ok (i, _) => exec i t
  else .fault .stopped

/-- The parameters with the three code addresses a longest instruction's fetch reads plain code memory. -/
def openCode (p : Params) (as : List Nat) : Params :=
  { p with
    codeHoles := p.codeHoles.filter (fun r => !as.any (fun a => inRegion a r))
    codeRam := p.codeRam.filter (fun w => !as.any (fun a => inRegion a { base := w.base, size := w.size })) }

/-- `s` with an instruction, given as a number as in `decodeTableWord`, where `step` takes its next instruction from: the first
byte in the pipe, the others at (PBR, r15) and after it (R23). The core runs, no prefix is in force, and the fetched addresses
are plain code (notes/assumptions/4.md). -/
def State.withFetchWord (s : State) (nbits w : Nat) : State :=
  let v := w % 2 ^ nbits
  let a1 := bankAddr s.pbr s.pc
  let a2 := bankAddr s.pbr (s.pc + 1)
  let a3 := bankAddr s.pbr (s.pc + 2)
  { s.clearPrefix with
    go := true
    pipe := BitVec.ofNat 8 v
    code := (s.code.write a1 (BitVec.ofNat 8 (v / 256))).write a2 (BitVec.ofNat 8 (v / 65536))
    params := openCode s.params [a1, a2, a3] }

end Sys2Proof.Machine
end

