-- ==== Sys2Proof/Safety.lean ====
section
/-!
DEFINITION. What counts as a good state and a safe run, in the terms the statements use.
-/

namespace Sys2Proof

/-! ## Kinds of instructions -/

/-- A conditional branch, BRA among them (46_control.md R280). -/
def Instr.isBranch : Instr → Bool
  | .bra _ | .blt _ | .bge _ | .bne _ | .beq _ | .bpl _ | .bmi _ | .bcc _ | .bcs _ | .bvc _ | .bvs _ => true
  | _ => false

/-- A prefix, while b is as given: with b set TO and FROM are moves (40_prefix.md R134 to R136). -/
def Instr.isPrefix (b : Bool) : Instr → Bool
  | .alt1 | .alt2 | .alt3 | .withReg _ => true
  | .toReg _ | .fromReg _ => !b
  | _ => false

/-- An instruction that sets the last RAM address used (10_state.md R39). -/
def Instr.notesRam : Instr → Bool
  | .ldb _ | .ldw _ | .lm _ _ | .lms _ _ | .stb _ | .stw _ | .sm _ _ | .sms _ _ | .moveLoadShort _ _ | .moveLoad _ _
  | .moveStoreShort _ _ | .moveStore _ _ | .movebLoad0 _ | .movebLoad _ _ | .movebStore0 _ | .movebStore _ _
  | .movewLoad0 _ | .movewLoad _ _ | .movewStore0 _ | .movewStore _ _ => true
  | _ => false

/-- An instruction that stores to RAM (20_memory.md R70). -/
def Instr.storesRam : Instr → Bool
  | .stb _ | .stw _ | .sm _ _ | .sms _ _ | .sbk | .moveStoreShort _ _ | .moveStore _ _ | .movebStore0 _ | .movebStore _ _
  | .movewStore0 _ | .movewStore _ _ => true
  | _ => false

/-- A core instruction that writes v (10_state.md R26); FROM does with b set. -/
def Instr.writesV (b : Bool) : Instr → Bool
  | .adcR _ | .adcI _ | .addR _ | .addI _ | .cmpR _ | .sbcR _ | .subR _ | .subI _ | .merge => true
  | .fromReg _ => b
  | _ => false

/-- A core instruction that writes c (R26). -/
def Instr.writesC : Instr → Bool
  | .adcR _ | .adcI _ | .addR _ | .addI _ | .cmpR _ | .sbcR _ | .subR _ | .subI _ | .merge
  | .asr | .div2 | .fmult | .lmult | .lsr | .rol | .ror => true
  | _ => false

/-- A core instruction that writes s and z (R26); FROM does with b set. -/
def Instr.writesSZ (b : Bool) : Instr → Bool
  | .adcR _ | .adcI _ | .addR _ | .addI _ | .cmpR _ | .sbcR _ | .subR _ | .subI _ | .merge
  | .asr | .div2 | .fmult | .lmult | .lsr | .rol | .ror
  | .andR _ | .andI _ | .bicR _ | .bicI _ | .dec _ | .hib | .inc _ | .lob | .loop | .multR _ | .multI _ | .notW | .orR _
  | .orI _ | .rpix | .sex | .umultR _ | .umultI _ | .xorR _ | .xorI _ => true
  | .fromReg _ => b
  | _ => false

/-- A core instruction, no branch, that reads c (R26). -/
def Instr.readsC : Instr → Bool
  | .adcR _ | .adcI _ | .sbcR _ | .rol | .ror => true
  | _ => false

end Sys2Proof

namespace Sys2Proof.Machine

/-- A pixel value fits the colour mode: below 16 in 16-colour mode (spec 47_plot.md R313). -/
def pixelFits (depth : ColorDepth) (p : Byte) : Prop := colourOf depth p = p

/-- The four memories are in their canonical form, and so is the list of stored addresses. -/
structure State.MemoryWf (s : State) : Prop where
  code : Memory.wf s.code
  rom : Memory.wf s.rom
  ram : Memory.wf s.ram
  pix : Memory.wf s.pix
  stored : s.stored.Pairwise (· < ·)

/-- What holds of the prefix data at every instruction boundary: no in-line flag is set (10_state.md R29), and while b is set
both selectors name the register WITH named (40_prefix.md R134, R137). -/
structure State.PrefixWf (s : State) : Prop where
  il : s.il = false
  ih : s.ih = false
  named : s.b = true → s.sreg = s.dreg

/-- Every pixel, written out or still buffered, fits the colour mode (47_plot.md R312, R313). -/
structure State.PixelsWf (s : State) : Prop where
  written : ∀ c ∈ s.pix, pixelFits s.params.colorDepth c.2
  buffered : ∀ c ∈ s.plotBuf, pixelFits s.params.colorDepth c.2

/-- Every byte waiting in the RAM write buffer is at an address the run has stored to (20_memory.md R85, R92). -/
def State.BufferedAreStored (s : State) : Prop := ∀ c ∈ s.ramBuf, c.1 ∈ s.stored

/-- The invariant of the machine. -/
structure State.Inv (s : State) : Prop where
  memory : s.MemoryWf
  prefixData : s.PrefixWf
  pixels : s.PixelsWf
  buffered : s.BufferedAreStored

/-! ## What an instruction writes and what it leaves (00_scope.md R8): `s` before, `t` after -/

/-- The general registers after an instruction that writes `v` to register `n` and to no other: r15 moves past one byte unless
it is the register written (10_state.md R22, R23). -/
structure RegWritten (n : Reg) (v : Word) (s t : State) : Prop where
  dest : t.reg n = v
  others : ∀ m, m ≠ n → m ≠ 15 → t.reg m = s.reg m
  pc : n ≠ 15 → t.reg 15 = s.reg 15 + 1

/-- The ROM buffer after a write of `v` to register `n`: a write of r14 fills it from (ROMBR, v), no other write touches it
(R25; 45_rom.md R260). -/
structure RomFollows (n : Reg) (v : Word) (s t : State) : Prop where
  kept : n ≠ 14 → t.rombuf = s.rombuf ∧ t.romStatus = s.romStatus ∧ t.romPending = s.romPending
  pending : n = 14 → t.romPending = true
  mapped : n = 14 → inRegions s.params.romHoles (bankAddr s.rombr v) = false →
    t.rombuf = s.rom.read (bankAddr s.rombr v) ∧ t.romStatus = .loaded
  unmapped : n = 14 → inRegions s.params.romHoles (bankAddr s.rombr v) = true → t.romStatus = .unmapped

/-- No general register is written: r15 moves past one byte, and the ROM buffer stays. -/
structure NoRegWritten (s t : State) : Prop where
  others : ∀ m, m ≠ 15 → t.reg m = s.reg m
  pc : t.reg 15 = s.reg 15 + 1
  rombuf : t.rombuf = s.rombuf
  romStatus : t.romStatus = s.romStatus
  romPending : t.romPending = s.romPending

/-- No status flag changes. -/
structure FlagsKept (s t : State) : Prop where
  zero : t.zf = s.zf
  carry : t.cf = s.cf
  sign : t.sf = s.sf
  overflow : t.vf = s.vf

/-- s and z are those of a word, c and v stay (`SetSZ`). -/
structure FlagsSZ (r : Word) (s t : State) : Prop where
  sign : t.sf = r.getLsbD 15
  zero : t.zf = decide (r = 0)
  carry : t.cf = s.cf
  overflow : t.vf = s.vf

/-- s and z are those of a word, c is given, v stays. -/
structure FlagsSZC (r : Word) (c : Bool) (s t : State) : Prop where
  sign : t.sf = r.getLsbD 15
  zero : t.zf = decide (r = 0)
  carry : t.cf = c
  overflow : t.vf = s.vf

/-- The flags of an adder result `r`: c as given, v when the exact signed value `i` does not fit 16 bits
(41_arithmetic.md R150, R151). -/
structure FlagsOfSum (carry : Prop) (i : Int) (r : Word) (t : State) : Prop where
  sign : t.sf = r.getLsbD 15
  zero : t.zf = decide (r = 0)
  carry : t.cf = true ↔ carry
  overflow : t.vf = true ↔ i < -32768 ∨ 32767 < i

/-- All prefix data is clear (10_state.md R31). -/
structure PrefixCleared (t : State) : Prop where
  b : t.b = false
  alt1 : t.alt1 = false
  alt2 : t.alt2 = false
  il : t.il = false
  ih : t.ih = false
  sreg : t.sreg = 0
  dreg : t.dreg = 0

/-- All prefix data stays. -/
structure PrefixKept (s t : State) : Prop where
  b : t.b = s.b
  alt1 : t.alt1 = s.alt1
  alt2 : t.alt2 = s.alt2
  il : t.il = s.il
  ih : t.ih = s.ih
  sreg : t.sreg = s.sreg
  dreg : t.dreg = s.dreg

/-- Every control register and hidden register stays, and so do code, ROM and the launch parameters. -/
structure SystemKept (s t : State) : Prop where
  pipe : t.pipe = s.pipe
  go : t.go = s.go
  hostIrqs : t.hostIrqs = s.hostIrqs
  colr : t.colr = s.colr
  por : t.por = s.por
  pbr : t.pbr = s.pbr
  rambr : t.rambr = s.rambr
  rombr : t.rombr = s.rombr
  cbr : t.cbr = s.cbr
  cacheFlags : t.cacheFlags = s.cacheFlags
  lastram : t.lastram = s.lastram
  lastramSet : t.lastramSet = s.lastramSet
  inlineLo : t.inlineLo = s.inlineLo
  code : t.code = s.code
  rom : t.rom = s.rom
  params : t.params = s.params
  draws : t.draws = s.draws

/-- Every byte of RAM reads as before, and no store is issued or written out. -/
structure RamKept (s t : State) : Prop where
  bytes : ∀ a, t.ramByte a = s.ramByte a
  pending : t.ramBuf = s.ramBuf
  stored : t.stored = s.stored

/-- Every pixel is as before, and none is plotted or written out. -/
structure PixelsKept (s t : State) : Prop where
  pixels : ∀ x y, t.pixel x y = s.pixel x y
  pending : t.plotBuf = s.plotBuf

/-- All the memories and every register outside r0 to r15, the flags and the prefix data stay. -/
structure RestKept (s t : State) : Prop where
  system : SystemKept s t
  ram : RamKept s t
  pixels : PixelsKept s t

/-- The usual effect on all but the flags: register `n` takes `v` with what follows from it, the prefix data is cleared, the
rest stays. -/
structure WroteReg (n : Reg) (v : Word) (s t : State) : Prop where
  regs : RegWritten n v s t
  rom : RomFollows n v s t
  prefixData : PrefixCleared t
  rest : RestKept s t

/-- The effect, on all but the flags, of an instruction that writes no general register and clears the prefix data. -/
structure WroteNoReg (s t : State) : Prop where
  regs : NoRegWritten s t
  prefixData : PrefixCleared t
  rest : RestKept s t

/-- RAM after a store of the cells `new`, the first stored first: the bytes stored read as stored and all others as before,
and the store is the one that waits in the write buffer (20_memory.md R84, R85). -/
structure RamStored (new : List Host.Cell) (s t : State) : Prop where
  bytes : ∀ a, t.ramByte a = (pendingByte new a).getD (s.ramByte a)
  pending : t.ramBuf = new
  stored : ∀ a, a ∈ t.stored ↔ (∃ c ∈ new, c.1 = a) ∨ a ∈ s.stored

/-- The core may load from and store to a RAM address (92_eei_decisions.md D17, D18). -/
def State.RamOpen (s : State) (a : Nat) : Prop :=
  inRegions s.params.ramHoles a = false ∧ inRegions s.params.screenRam a = false

/-- Both bytes of the word at an address are open: the address and the address XOR 1. -/
def State.WordOpen (s : State) (a : Word) : Prop := s.RamOpen (s.ramAddr a) ∧ s.RamOpen (s.ramAddr (a ^^^ 1))

/-- The instruction bytes of the current PC bank can be fetched (D18, 20_memory.md R92). -/
def State.CodeOpen (s : State) : Prop := ∀ a, ∃ b, s.codeRead s.pbr a = .ok b

/-- `s` with r15 `k` bytes further, and the fetch's own registers (the pipe and the in-line buffer) as they are in `t`. -/
def State.pastBytes (s : State) (k : Word) (t : State) : State :=
  { s.setReg 15 (s.reg 15 + k) with pipe := t.pipe, inlineLo := t.inlineLo }

/-- The next bytes the core will take are these: the first waits in the pipe, the others stand at (PBR, r15) and after it
(10_state.md R23). -/
def State.ReadsNext (s : State) : List Byte → Prop
  | [] => True
  | b :: bs => s.pipe = b ∧ ∀ k (h : k < bs.length), s.codeRead s.pbr (s.pc + BitVec.ofNat 16 k) = .ok bs[k]

/-! ## Outcomes, shape by shape -/

/-- An outcome of `exec`. -/
abbrev Result := Host.Outcome State Fault Refusal

/-- The step completes: `r` goes to DReg with s and z; c and v stay (41_arithmetic.md R159, 42_logic_shift.md R180). -/
def YieldsSZ (r : Word) (s : State) (o : Result) : Prop :=
  ∃ t, o = .next t ∧ WroteReg s.dreg r s t ∧ FlagsSZ r s t

/-- The step completes: `r` goes to DReg with s, z and the carry; v stays. -/
def YieldsSZC (r : Word) (c : Bool) (s : State) (o : Result) : Prop :=
  ∃ t, o = .next t ∧ WroteReg s.dreg r s t ∧ FlagsSZC r c s t

/-- The step completes: `v` goes to register `n` and no flag changes. -/
def YieldsPlain (n : Reg) (v : Word) (s : State) (o : Result) : Prop :=
  ∃ t, o = .next t ∧ WroteReg n v s t ∧ FlagsKept s t

/-- The step completes as an addition of `y` and the carry in `c` to SReg (41_arithmetic.md R150). -/
def Adds (y : Word) (c : Nat) (s : State) (o : Result) : Prop :=
  ∃ t, o = .next t ∧ WroteReg s.dreg (s.src + y + BitVec.ofNat 16 c) s t ∧
    FlagsOfSum (65536 ≤ s.src.toNat + y.toNat + c) (s.src.toInt + y.toInt + c) (s.src + y + BitVec.ofNat 16 c) t

/-- The step completes as a subtraction of `y` and the borrow `w` from SReg (41_arithmetic.md R151). -/
def Subtracts (y : Word) (w : Nat) (s : State) (o : Result) : Prop :=
  ∃ t, o = .next t ∧ WroteReg s.dreg (s.src - y - BitVec.ofNat 16 w) s t ∧
    FlagsOfSum (y.toNat + w ≤ s.src.toNat) (s.src.toInt - y.toInt - w) (s.src - y - BitVec.ofNat 16 w) t

/-- The step completes as a branch: to r15 plus the offset if the condition holds, on to the next byte if not; nothing else
changes, the prefix data included (46_control.md R280). -/
def Branches (cond : Bool) (d : Byte) (s : State) (o : Result) : Prop :=
  ∃ t, o = .next t ∧
    (cond = true → RegWritten 15 (s.reg 15 + d.signExtend 16) s t) ∧ (cond = false → NoRegWritten s t) ∧
    t.rombuf = s.rombuf ∧ t.romStatus = s.romStatus ∧ t.romPending = s.romPending ∧
    FlagsKept s t ∧ PrefixKept s t ∧ RestKept s t

/-- The step completes: the word at `a` goes to register `n`, and `a` is the last RAM address used (20_memory.md R76,
10_state.md R39). -/
def LoadsWord (n : Reg) (a : Word) (s : State) (o : Result) : Prop :=
  YieldsPlain n (s.ramByte (s.ramAddr (a ||| 1)) ++ s.ramByte (s.ramAddr (a &&& 0xFFFE)))
    { s with lastram := a, lastramSet := true } o

/-- The step completes: the byte at `a` goes zero-extended to register `n`, and `a` is the last RAM address used (R78). -/
def LoadsByte (n : Reg) (a : Word) (s : State) (o : Result) : Prop :=
  YieldsPlain n ((s.ramByte (s.ramAddr a)).zeroExtend 16) { s with lastram := a, lastramSet := true } o

/-- The step completes and stores the cells `new`; `b` is the state before it, the last RAM address used already noted. -/
def Stores (new : List Host.Cell) (b : State) (o : Result) : Prop :=
  ∃ t, o = .next t ∧ NoRegWritten b t ∧ FlagsKept b t ∧ PrefixCleared t ∧ SystemKept b t ∧ RamStored new b t ∧ PixelsKept b t

/-- The step completes: the low byte of `v` at `a` and the high byte at `a XOR 1`, and `a` is the last RAM address used
(20_memory.md R77, 10_state.md R39). -/
def StoresWord (a v : Word) (s : State) (o : Result) : Prop :=
  Stores [(s.ramAddr a, v.extractLsb' 0 8), (s.ramAddr (a ^^^ 1), v.extractLsb' 8 8)]
    { s with lastram := a, lastramSet := true } o

/-- The step completes: the low byte of `v` at `a`, and `a` is the last RAM address used (R78). -/
def StoresByte (a v : Word) (s : State) (o : Result) : Prop :=
  Stores [(s.ramAddr a, v.extractLsb' 0 8)] { s with lastram := a, lastramSet := true } o

/-- The refusals of an access to RAM that is not open (92_eei_decisions.md D17, D18; notes/assumptions/8.md and 10.md). -/
def RamRefusal (r : Refusal) : Prop := r = .unmappedData ∨ r = .screenRam

/-- The step is refused because RAM is not open. -/
def RefusesRam (o : Result) : Prop := ∃ r, RamRefusal r ∧ o = .refused r

/-- A spelling of several instructions, run from the state after its first opcode byte was taken: it completes, its outcome is one
of `P` on the state `k` bytes further, and the pipe then holds the byte there. -/
def PastBytes (k : Word) (s : State) (o : Result) (P : State → Result → Prop) : Prop :=
  ∃ t, o = .next t ∧ s.codeRead s.pbr (s.reg 15 + k) = .ok t.pipe ∧ P (s.pastBytes k t) o

/-- `s` with the status flags of `f`. -/
def State.withFlagsOf (s f : State) : State := { s with zf := f.zf, cf := f.cf, sf := f.sf, vf := f.vf }

/-! ## Runs -/

/-- `k` steps run to a state without a fault or a refusal. -/
def RunsTo (k : Nat) (s t : State) : Prop := Sys2Proof.core.run k s = .next t

/-- A run of `k` steps ends by STOP: GO is cleared (70_reset_and_hazards.md R358). -/
def EndsByStop (k : Nat) (s t : State) : Prop := RunsTo k s t ∧ t.go = false

/-- A run that no number of steps turns into a fault or a refusal before GO is cleared. -/
def SafeRun (s : State) : Prop :=
  ∀ k, (∃ t, RunsTo k s t) ∨ ∃ j t, j < k ∧ EndsByStop j s t

end Sys2Proof.Machine
end

