-- ==== Sys2Proof/Certificates/Slice0/Obligations.lean ====
section
/-!
DEFINITION. The statements for the provers. A statement of `exec i s` speaks of the state `s` after the fetch of the
instruction's bytes, in which r15 is the address of the byte after the instruction (10_state.md R22, notes/assumptions/1.md and
2.md).
-/

open Sys2Proof Sys2Proof.Machine

/-! ## The start of a run and the invariant -/

/-- What the spec decides of the start of a run holds at reset, and the first step from such a state only takes the byte at the
launch r15 into the pipe (10_state.md, section 6; the decisions D1 and D2 of 92_eei_decisions.md). -/
def Obligations.ResetIsTheStartOfARun : Prop :=
  (State.reset.go = true ∧ PrefixCleared State.reset ∧ State.reset.pipe = 0x01 ∧ State.reset.ramBuf = [] ∧
    State.reset.plotBuf = []) ∧
    ∀ s : State, s.go = true → s.pipe = 0x01 → PrefixCleared s → s.CodeOpen →
      ∃ t, step s = .next t ∧ s.codeRead s.pbr (s.reg 15) = .ok t.pipe ∧ WroteNoReg { s with pipe := t.pipe } t ∧
        FlagsKept s t

/-- The invariant holds at reset; the launch values it speaks of are the model's choice (notes/assumptions/3.md and 7.md). -/
def Obligations.ResetMeetsTheInvariant : Prop := State.reset.Inv

/-- Every step keeps the invariant: memories canonical, no in-line flag between instructions, b set only while both selectors
agree, pixels as wide as the colour mode, and every buffered store remembered as a store. -/
def Obligations.EveryStepKeepsTheInvariant : Prop := ∀ s t : State, s.Inv → step s = .next t → t.Inv

/-! ## Encoding -/

/-- Every well-formed core instruction is read back from its bytes under its ALT mode, with the bytes after it (R101 to R109). -/
def Obligations.DecodeReadsBackEveryCoreEncoding : Prop :=
  ∀ (i : Instr) (alt : Alt) (rest : List Byte), i.isCore = true → i.wf = true → altOf i = alt ∨ anyAlt i = true →
    decode alt (encodeBody i ++ rest) = .ok (i, rest)

/-- What the decoder reads is a well-formed core instruction of that ALT mode, and its bytes are the ones read. -/
def Obligations.DecodedInstructionsEncodeBack : Prop :=
  ∀ (alt : Alt) (bs rest : List Byte) (i : Instr), decode alt bs = .ok (i, rest) →
    i.isCore = true ∧ i.wf = true ∧ (altOf i = alt ∨ anyAlt i = true) ∧ bs = encodeBody i ++ rest

/-- The bytes of any well-formed instruction, prefixes and assembler spellings included, are read back as the core instructions
it is assembled to (R109, R114). -/
def Obligations.DisassemblyOfAnEncodingIsItsExpansion : Prop :=
  ∀ i : Instr, i.wf = true → disassemble (expand i).length .none (encode i) = .ok (expand i)

/-- The opcode bytes without a form are exactly the blanks of the tables (R109, R111; D13, D7). -/
def Obligations.UndefinedFormsAreTheBlanksOfTheTable : Prop :=
  ∀ (alt : Alt) (op : Byte) (rest : List Byte),
    decode alt (op :: rest) = .error .undefinedAltForm ↔
      alt ≠ .none ∧
        (op.toNat ≤ 0x04 ∨ op.toNat = 0x3c ∨ op.toNat = 0x4d ∨ op.toNat = 0x4f ∨ op.toNat = 0x70 ∨
          0x90 ≤ op.toNat ∧ op.toNat ≤ 0x95 ∨ op.toNat = 0x97 ∨ op.toNat = 0x9e ∨ op.toNat = 0xc0 ∨
          0xe0 ≤ op.toNat ∧ op.toNat ≤ 0xee ∨
          alt = .one ∧ op.toNat = 0xdf ∨
          alt ≠ .one ∧
            (0x30 ≤ op.toNat ∧ op.toNat ≤ 0x3b ∨ 0x40 ≤ op.toNat ∧ op.toNat ≤ 0x4f ∨
              0x90 ≤ op.toNat ∧ op.toNat ≤ 0x9f) ∨
          alt = .three ∧ (0xa0 ≤ op.toNat ∧ op.toNat ≤ 0xaf ∨ 0xf0 ≤ op.toNat))

/-- A few words written out from the tables decode to what the tables say. -/
def Obligations.SampleWordsDecode : Prop :=
  decode .none [0x00] = .ok (.stop, []) ∧ decode .none [0x09, 0x03] = .ok (.beq 0x03, []) ∧
    decode .none [0x12] = .ok (.toReg 2, []) ∧ decode .one [0x50] = .ok (.adcR 0, []) ∧
    decode .two [0x53] = .ok (.addI 3, []) ∧ decode .three [0x61] = .ok (.cmpR 1, []) ∧
    decode .none [0xa3, 0xfe] = .ok (.ibt 3 0xfe, []) ∧ decode .none [0xf1, 0x34, 0x12] = .ok (.iwt 1 0x1234, []) ∧
    decode .one [0xf5, 0x00, 0x10] = .ok (.lm 5 0x1000, []) ∧ decode .two [0xa2, 0xff] = .ok (.sms 2 0xff, []) ∧
    decode .one [0x4c] = .ok (.rpix, []) ∧ decode .three [0xef] = .ok (.getbs, []) ∧
    decode .one [0x01] = .error .undefinedAltForm

/-! ## The step -/

/-- A step runs the instruction its bytes decode to, under the ALT mode in force, on the state after the fetch. -/
def Obligations.StepRunsTheDecodedInstruction : Prop :=
  ∀ (s t : State) (bytes rest : List Byte) (i : Instr), s.go = true → s.fetch = .ok (bytes, t) →
    decode s.altMode bytes = .ok (i, rest) → step s = exec i t

/-- The fetch takes the byte in the pipe and the in-line bytes at r15 in fetch order, moves r15 past them, fills the pipe with
the byte after them, and changes nothing else but the in-line flags of the form and the buffer of the low in-line byte (R23,
R29, R41, R112). -/
def Obligations.FetchTakesTheBytesInFetchOrder : Prop :=
  ∀ s : State, s.CodeOpen →
    ∃ bytes t, s.fetch = .ok (s.pipe :: bytes, t) ∧ bytes.length = inlineBytes s.altMode s.pipe ∧
      (∀ k (h : k < bytes.length), s.codeRead s.pbr (s.reg 15 + BitVec.ofNat 16 k) = .ok bytes[k]) ∧
      t.reg 15 = s.reg 15 + BitVec.ofNat 16 bytes.length ∧
      s.codeRead s.pbr (s.reg 15 + BitVec.ofNat 16 bytes.length) = .ok t.pipe ∧
      (∀ m, m ≠ 15 → t.reg m = s.reg m) ∧ t.rombuf = s.rombuf ∧ t.romStatus = s.romStatus ∧
      t.romPending = s.romPending ∧ FlagsKept s t ∧ PrefixKept { s with il := t.il, ih := t.ih } t ∧
      t.il = (s.il || (bytes.length != 0 && !isBranchByte s.altMode s.pipe)) ∧ t.ih = (s.ih || bytes.length = 2) ∧
      t.inlineLo = (if bytes.length = 2 then bytes.headD s.inlineLo else s.inlineLo) ∧
      RestKept { s with pipe := t.pipe, inlineLo := t.inlineLo } t

/-- With GO = 0 there is no step; STOP alone clears GO and interrupts the host, once; nothing sets GO. -/
def Obligations.GoIsClearedByStopAlone : Prop :=
  (∀ s : State, s.go = false → step s = .fault .stopped) ∧
    ∀ (i : Instr) (s t : State), exec i s = .next t →
      t.go = (s.go && decide (i ≠ .stop)) ∧ t.hostIrqs = s.hostIrqs + (if i = .stop then 1 else 0)

/-- No core instruction changes the byte in the pipe, so the byte prefetched before a jump runs next; after a step that takes BEQ,
r15 is the target and the byte after the branch waits in the pipe (R23, R24, R280; D1). -/
def Obligations.TheSlotByteRunsBeforeTheTarget : Prop :=
  (∀ (i : Instr) (s t : State), i.isCore = true → exec i s = .next t → t.pipe = s.pipe) ∧
    ∀ (s : State) (d : Byte), s.go = true → s.CodeOpen → s.pipe = 0x09 → s.codeRead s.pbr (s.reg 15) = .ok d → s.zf = true →
      ∃ t, step s = .next t ∧ t.reg 15 = s.reg 15 + 1 + d.signExtend 16 ∧ s.codeRead s.pbr (s.reg 15 + 1) = .ok t.pipe

/-- A fetch of a code byte that is RAM the run has stored to is refused (20_memory.md R92; D6). -/
def Obligations.FetchOfAStoredByteIsRefused : Prop :=
  ∀ (s : State) (r : Nat), s.go = true →
    inRegions s.params.codeHoles (bankAddr s.pbr (s.reg 15)) = false →
    ramBehind s.params.codeRam (bankAddr s.pbr (s.reg 15)) = some r →
    inRegions s.params.screenRam r = false → r ∈ s.stored → step s = .refused .storedCode

/-! ## What only some instructions do -/

/-- The prefix data lasts until the next instruction that is neither a prefix nor a branch, and that one clears all of it
(40_prefix.md R137, an inference the spec marks; 10_state.md R31). -/
def Obligations.PrefixDataLastsToTheNextInstruction : Prop :=
  ∀ (i : Instr) (s t : State), exec i s = .next t →
    (i.isBranch = true → PrefixKept s t) ∧ (i.isBranch = false → i.isPrefix s.b = false → PrefixCleared t)

/-- Each control register has its own writers (10_state.md R32 to R37, R39). -/
def Obligations.ControlRegistersHaveTheirWriters : Prop :=
  ∀ (i : Instr) (s t : State), exec i s = .next t →
    (t.pbr ≠ s.pbr → ∃ n, i = .ljmp n) ∧ (t.rambr ≠ s.rambr → i = .ramb) ∧ (t.rombr ≠ s.rombr → i = .romb) ∧
      (t.por ≠ s.por → i = .cmode) ∧ (t.colr ≠ s.colr → i = .color ∨ i = .getc) ∧
      (t.cbr ≠ s.cbr → i = .cache ∨ ∃ n, i = .ljmp n) ∧ (t.cacheFlags ≠ s.cacheFlags → i = .cache ∨ ∃ n, i = .ljmp n) ∧
      (t.lastram ≠ s.lastram → i.notesRam = true)

/-- The status flags are written only by the instructions listed (LSR writes s as 0), and read only by the branches (all four) and by ADC, SBC, ROL
and ROR (c): of any other flag, two states that differ in the flags alone end in states that differ in the flags alone, and there
every flag that the instruction writes is the same in both. -/
def Obligations.FlagsAreWrittenAndReadOnlyWhereListed : Prop :=
  (∀ (i : Instr) (s t : State), i.isCore = true → exec i s = .next t →
    (i.writesV s.b = false → t.vf = s.vf) ∧ (i.writesC = false → t.cf = s.cf) ∧
      (i.writesSZ s.b = false → t.sf = s.sf ∧ t.zf = s.zf) ∧ (i = .lsr → t.sf = false)) ∧
    ∀ (i : Instr) (s f : State), i.isCore = true → i.isBranch = false → (i.readsC = true → f.cf = s.cf) →
      match exec i s with
      | .next t => ∃ u, exec i (s.withFlagsOf f) = .next u ∧ u.withFlagsOf t = t ∧
        (i.writesV s.b = true → u.vf = t.vf) ∧ (i.writesC = true → u.cf = t.cf) ∧
        (i.writesSZ s.b = true → u.sf = t.sf ∧ u.zf = t.zf)
      | .fault r => exec i (s.withFlagsOf f) = .fault r
      | .refused r => exec i (s.withFlagsOf f) = .refused r

/-- No step changes code, ROM or the launch parameters (20_memory.md R71, R72; D18). -/
def Obligations.CodeAndRomNeverChange : Prop :=
  ∀ s t : State, step s = .next t → t.code = s.code ∧ t.rom = s.rom ∧ t.params = s.params

/-- An instruction that is no store leaves every byte of RAM as it reads, whatever waits in the write buffer, and one that is not
PLOT leaves every pixel (20_memory.md R70). -/
def Obligations.OnlyStoresAndPlotChangeMemory : Prop :=
  ∀ (i : Instr) (s t : State), exec i s = .next t →
    (i.storesRam = false → (∀ a, t.ramByte a = s.ramByte a) ∧ t.stored = s.stored) ∧
      (i ≠ .plot → ∀ x y, t.pixel x y = s.pixel x y)

/-- An assembler spelling run as one is the run of the core instructions it is assembled to, each fetched and decoded from the
bytes it stands for (30_encoding.md R114), from a state with no prefix in force. -/
def Obligations.AssemblerSpellingsRunAsTheirSequences : Prop :=
  ∀ (i : Instr) (s t : State) (bytes : List Byte), i.wf = true → i.isCore = false → s.go = true → PrefixCleared s →
    s.CodeOpen → s.ReadsNext (encode i) → s.fetch = .ok (bytes, t) →
    Sys2Proof.core.run (expand i).length s = exec i t

/-! ## Prefixes and moves -/

/-- ALT1, ALT2 and ALT3 set their flags and change nothing else; a branch leaves alt1 and alt2; the next byte is read under the
mode they set. -/
def Obligations.AltPrefixesSetTheirFlagsAlone : Prop :=
  (∀ (alt : Alt) (rest : List Byte), decode alt (0x3d :: rest) = .ok (.alt1, rest) ∧
    decode alt (0x3e :: rest) = .ok (.alt2, rest) ∧ decode alt (0x3f :: rest) = .ok (.alt3, rest)) ∧
    (∀ rest : List Byte, decode (altMode true false) (0x50 :: rest) = .ok (.adcR 0, rest) ∧
      decode (altMode false true) (0x53 :: rest) = .ok (.addI 3, rest) ∧
      decode (altMode true true) (0x61 :: rest) = .ok (.cmpR 1, rest)) ∧
    (∀ (i : Instr) (s t : State), i.isBranch = true → exec i s = .next t → t.alt1 = s.alt1 ∧ t.alt2 = s.alt2) ∧
    ∀ s : State,
      (∃ t, exec .alt1 s = .next t ∧ PrefixKept { s with alt1 := true } t ∧ NoRegWritten s t ∧ FlagsKept s t ∧ RestKept s t) ∧
      (∃ t, exec .alt2 s = .next t ∧ PrefixKept { s with alt2 := true } t ∧ NoRegWritten s t ∧ FlagsKept s t ∧ RestKept s t) ∧
      ∃ t, exec .alt3 s = .next t ∧ PrefixKept { s with alt1 := true, alt2 := true } t ∧ NoRegWritten s t ∧
        FlagsKept s t ∧ RestKept s t

/-- WITH names both selectors and sets b; TO and FROM name one, or with b set are the moves (R134 to R136; D29). -/
def Obligations.WithToFromNameOrMove : Prop :=
  ∀ (s : State) (n : Reg),
    (∃ t, exec (.withReg n) s = .next t ∧ PrefixKept { s with sreg := n, dreg := n, b := true } t ∧ NoRegWritten s t ∧
      FlagsKept s t ∧ RestKept s t) ∧
    (s.b = false → ∃ t, exec (.toReg n) s = .next t ∧ PrefixKept { s with dreg := n } t ∧ NoRegWritten s t ∧
      FlagsKept s t ∧ RestKept s t) ∧
    (s.b = true → YieldsPlain n (s.reg s.sreg) s (exec (.toReg n) s)) ∧
    (s.b = false → ∃ t, exec (.fromReg n) s = .next t ∧ PrefixKept { s with sreg := n } t ∧ NoRegWritten s t ∧
      FlagsKept s t ∧ RestKept s t) ∧
    (s.b = true → ∃ t, exec (.fromReg n) s = .next t ∧ WroteReg s.dreg (s.reg n) s t ∧ t.sf = (s.reg n).getLsbD 15 ∧
      t.zf = decide (s.reg n = 0) ∧ t.vf = (s.reg n).getLsbD 7 ∧ t.cf = s.cf)

/-- FROM, TO and ALT2 before ADD #k combine: the register TO names takes the register FROM names plus k (R137, an inference the
spec marks); with alt1 pending the four bytes would be an ADC. -/
def Obligations.PrefixesComposeBeforeAnAdd : Prop :=
  ∀ (s : State) (m n : Reg) (k : Nibble), s.b = false →
    ∃ t u v w, exec (.fromReg m) s = .next t ∧ exec (.toReg n) t = .next u ∧ exec .alt2 u = .next v ∧
      v.altMode = (if s.alt1 then .three else .two) ∧ exec (.addI k) v = .next w ∧ w.reg n = v.reg m + k.zeroExtend 16 ∧
      ∀ r, r ≠ 15 → v.reg r = s.reg r ∧ (r ≠ n → w.reg r = s.reg r)

/-! ## Arithmetic -/

/-- ADD and ADC: the sum to DReg; c on unsigned overflow, v on signed overflow (R150, R152, R153; D9). -/
def Obligations.AddAndAdcSumWithFlags : Prop :=
  ∀ (s : State) (n : Reg) (k : Nibble),
    Adds (s.reg n) 0 s (exec (.addR n) s) ∧ Adds (k.zeroExtend 16) 0 s (exec (.addI k) s) ∧
      Adds (s.reg n) (if s.cf then 1 else 0) s (exec (.adcR n) s) ∧
      Adds (k.zeroExtend 16) (if s.cf then 1 else 0) s (exec (.adcI k) s)

/-- SUB and SBC: the difference to DReg; c when there is no borrow, v on signed overflow (R151, R160, R161; v is the spec's
reading D9, notes/assumptions/22.md). -/
def Obligations.SubAndSbcSubtractWithFlags : Prop :=
  (∀ (n : Reg) (k : Nibble) (rest : List Byte), decode .none (byteOf 6 n :: rest) = .ok (.subR n, rest) ∧
    decode .one (byteOf 6 n :: rest) = .ok (.sbcR n, rest) ∧ decode .two (byteOf 6 k.toNat :: rest) = .ok (.subI k, rest)) ∧
  ∀ (s : State) (n : Reg) (k : Nibble),
    Subtracts (s.reg n) 0 s (exec (.subR n) s) ∧ Subtracts (k.zeroExtend 16) 0 s (exec (.subI k) s) ∧
      Subtracts (s.reg n) (if s.cf then 0 else 1) s (exec (.sbcR n) s)

/-- CMP writes no register and compares: z when equal, c when not below, s XOR v when less (R154, from which and s the
v of signed overflow follows; that is also the spec's reading D9, notes/assumptions/22.md). -/
def Obligations.CmpComparesAndStoresNothing : Prop :=
  (∀ (n : Reg) (rest : List Byte), decode .three (byteOf 6 n :: rest) = .ok (.cmpR n, rest)) ∧
    ∀ (s : State) (n : Reg), ∃ t, exec (.cmpR n) s = .next t ∧ WroteNoReg s t ∧
      FlagsOfSum ((s.reg n).toNat ≤ s.src.toNat) (s.src.toInt - (s.reg n).toInt) (s.src - s.reg n) t ∧
      (t.zf = true ↔ s.src = s.reg n) ∧ ((t.sf ^^ t.vf) = true ↔ s.src.toInt < (s.reg n).toInt)

/-- After CMP the four ordered branches go where the comparison sends them (R281, R282, R284, R285, R154). -/
def Obligations.BranchesAfterCmpFollowTheOrder : Prop :=
  ∀ (s : State) (n : Reg) (d : Byte), ∃ t, exec (.cmpR n) s = .next t ∧
    Branches (decide (s.src.toInt < (s.reg n).toInt)) d t (exec (.blt d) t) ∧
    Branches (decide ((s.reg n).toInt ≤ s.src.toInt)) d t (exec (.bge d) t) ∧
    Branches (decide (s.src.toNat < (s.reg n).toNat)) d t (exec (.bcc d) t) ∧
    Branches (decide ((s.reg n).toNat ≤ s.src.toNat)) d t (exec (.bcs d) t) ∧
    Branches (decide (s.src = s.reg n)) d t (exec (.beq d) t)

/-- INC and DEC step the register the opcode names, under the ALT modes the rules give. -/
def Obligations.IncAndDecStepTheirRegister : Prop :=
  (∀ (n : Reg) (alt : Alt) (rest : List Byte), countRegOk n = true →
    decode alt (byteOf 13 n :: rest) = .ok (.inc n, rest) ∧ decode .none (byteOf 14 n :: rest) = .ok (.dec n, rest) ∧
      (alt ≠ .none → decode alt (byteOf 14 n :: rest) = .error .undefinedAltForm)) ∧
    decode .none [0xdf] = .ok (.getc, []) ∧ decode .none [0xef] = .ok (.getb, []) ∧
    ∀ (s : State) (n : Reg), countRegOk n = true →
      (∃ t, exec (.inc n) s = .next t ∧ WroteReg n (s.reg n + 1) s t ∧ FlagsSZ (s.reg n + 1) s t) ∧
      ∃ t, exec (.dec n) s = .next t ∧ WroteReg n (s.reg n - 1) s t ∧ FlagsSZ (s.reg n - 1) s t

/-- MULT is the exact signed product of the low bytes, UMULT the exact unsigned one. -/
def Obligations.ByteProductsAreExact : Prop :=
  (∀ (n : Reg) (k : Nibble) (rest : List Byte), decode .none (byteOf 8 n :: rest) = .ok (.multR n, rest) ∧
    decode .one (byteOf 8 n :: rest) = .ok (.umultR n, rest) ∧
    decode .two (byteOf 8 k.toNat :: rest) = .ok (.multI k, rest) ∧
    decode .three (byteOf 8 k.toNat :: rest) = .ok (.umultI k, rest)) ∧
    ∀ (s : State) (n : Reg) (k : Nibble),
      (∃ r : Word, r.toInt = (lowByte s.src).toInt * (lowByte (s.reg n)).toInt ∧ YieldsSZ r s (exec (.multR n) s)) ∧
      (∃ r : Word, r.toInt = (lowByte s.src).toInt * (k.toNat : Int) ∧ YieldsSZ r s (exec (.multI k) s)) ∧
      (∃ r : Word, r.toNat = (lowByte s.src).toNat * (lowByte (s.reg n)).toNat ∧ YieldsSZ r s (exec (.umultR n) s)) ∧
      ∃ r : Word, r.toNat = (lowByte s.src).toNat * k.toNat ∧ YieldsSZ r s (exec (.umultI k) s)

/-- FMULT: the high word of the signed product to DReg and its bit 15 to c; DReg = r4 is refused. -/
def Obligations.FmultGivesTheHighWord : Prop :=
  (∀ rest : List Byte, decode .none (0x9f :: rest) = .ok (.fmult, rest)) ∧
    ∀ s : State,
      (s.dreg ≠ 4 → ∃ r : Word, r.toInt = s.src.toInt * (s.reg 6).toInt / 65536 ∧
        YieldsSZC r (decide (s.src.toInt * (s.reg 6).toInt / 32768 % 2 = 1)) s (exec .fmult s)) ∧
      (s.dreg = 4 → exec .fmult s = .refused .r4Destination)

/-- LMULT: DReg and r4 together hold the whole signed product. With DReg = r4, r4, s, c and z take whatever values and the rest
is as ever (R158; the free values of notes/assumptions/26.md). -/
def Obligations.LmultGivesBothWords : Prop :=
  ∀ s : State,
    (s.dreg ≠ 4 → ∃ hi lo : Word, hi.toInt * 65536 + lo.toNat = s.src.toInt * (s.reg 6).toInt ∧
      ∃ t, exec .lmult s = .next t ∧ WroteReg s.dreg hi (s.setReg 4 lo) t ∧ FlagsSZC hi (lo.getLsbD 15) s t) ∧
    (s.dreg = 4 → ∃ (v : Word) (t : State), exec .lmult s = .next t ∧
      WroteNoReg { s.setReg 4 v with draws := t.draws } t ∧ t.vf = s.vf)

/-! ## Logic, shifts, bytes -/

/-- AND, BIC, OR, XOR and NOT, with what operand 0 encodes instead. -/
def Obligations.LogicInstructionsAreBitwise : Prop :=
  (∀ (n : Reg) (k : Nibble) (rest : List Byte), n ≠ 0 → k ≠ 0 →
    decode .none (byteOf 7 n :: rest) = .ok (.andR n, rest) ∧ decode .two (byteOf 7 k.toNat :: rest) = .ok (.andI k, rest) ∧
    decode .one (byteOf 7 n :: rest) = .ok (.bicR n, rest) ∧ decode .three (byteOf 7 k.toNat :: rest) = .ok (.bicI k, rest) ∧
    decode .none (byteOf 12 n :: rest) = .ok (.orR n, rest) ∧ decode .two (byteOf 12 k.toNat :: rest) = .ok (.orI k, rest) ∧
    decode .one (byteOf 12 n :: rest) = .ok (.xorR n, rest) ∧ decode .three (byteOf 12 k.toNat :: rest) = .ok (.xorI k, rest)) ∧
    (∀ rest : List Byte, decode .none (0x4f :: rest) = .ok (.notW, rest) ∧ decode .none (0x70 :: rest) = .ok (.merge, rest) ∧
      decode .none (0xc0 :: rest) = .ok (.hib, rest) ∧
      ∀ alt, alt ≠ .none → decode alt (0x70 :: rest) = .error .undefinedAltForm ∧
        decode alt (0xc0 :: rest) = .error .undefinedAltForm) ∧
    ∀ (s : State) (n : Reg) (k : Nibble),
      YieldsSZ (s.src &&& s.reg n) s (exec (.andR n) s) ∧ YieldsSZ (s.src &&& k.zeroExtend 16) s (exec (.andI k) s) ∧
      YieldsSZ (s.src &&& ~~~s.reg n) s (exec (.bicR n) s) ∧ YieldsSZ (s.src &&& ~~~k.zeroExtend 16) s (exec (.bicI k) s) ∧
      YieldsSZ (s.src ||| s.reg n) s (exec (.orR n) s) ∧ YieldsSZ (s.src ||| k.zeroExtend 16) s (exec (.orI k) s) ∧
      YieldsSZ (s.src ^^^ s.reg n) s (exec (.xorR n) s) ∧ YieldsSZ (s.src ^^^ k.zeroExtend 16) s (exec (.xorI k) s) ∧
      YieldsSZ (~~~s.src) s (exec .notW s)

/-- The shifts as halvings and doublings: the bit shifted out goes to c, and v stays. -/
def Obligations.ShiftsHalveAndDouble : Prop :=
  (∀ rest : List Byte, decode .none (0x96 :: rest) = .ok (.asr, rest) ∧ decode .one (0x96 :: rest) = .ok (.div2, rest) ∧
    decode .none (0x03 :: rest) = .ok (.lsr, rest) ∧ decode .none (0x04 :: rest) = .ok (.rol, rest) ∧
    decode .none (0x97 :: rest) = .ok (.ror, rest)) ∧
    ∀ s : State,
      (∃ r : Word, r.toInt = s.src.toInt / 2 ∧ YieldsSZC r (s.src.getLsbD 0) s (exec .asr s)) ∧
      (∃ r : Word, r.toInt = (if s.src.toInt = -1 then 0 else s.src.toInt / 2) ∧
        YieldsSZC r (s.src.getLsbD 0) s (exec .div2 s)) ∧
      (∃ r : Word, r.toNat = s.src.toNat / 2 ∧ r.getLsbD 15 = false ∧ YieldsSZC r (s.src.getLsbD 0) s (exec .lsr s)) ∧
      (∃ r : Word, r.toNat = (2 * s.src.toNat + (if s.cf then 1 else 0)) % 65536 ∧
        YieldsSZC r (s.src.getLsbD 15) s (exec .rol s)) ∧
      ∃ r : Word, r.toNat = s.src.toNat / 2 + (if s.cf then 32768 else 0) ∧
        YieldsSZC r (s.src.getLsbD 0) s (exec .ror s)

/-- ROL and ROR of a register onto itself undo each other, carry included (R191, R192). -/
def Obligations.RotationsUndoEachOther : Prop :=
  ∀ (s : State) (n : Reg), n ≠ 15 → s.sreg = n → s.dreg = n →
    (∃ t u v, exec .rol s = .next t ∧ exec (.withReg n) t = .next u ∧ exec .ror u = .next v ∧ v.reg n = s.reg n ∧ v.cf = s.cf) ∧
    ∃ t u v, exec .ror s = .next t ∧ exec (.withReg n) t = .next u ∧ exec .rol u = .next v ∧ v.reg n = s.reg n ∧ v.cf = s.cf

/-- HIB, LOB, SEX and SWAP: the bytes of SReg as numbers; HIB and LOB take their flags from the byte, SWAP touches none. -/
def Obligations.ByteInstructionsAndTheirFlags : Prop :=
  (∀ rest : List Byte, decode .none (0xc0 :: rest) = .ok (.hib, rest) ∧ decode .none (0x9e :: rest) = .ok (.lob, rest) ∧
    decode .none (0x95 :: rest) = .ok (.sex, rest) ∧ decode .none (0x4d :: rest) = .ok (.swap, rest)) ∧
    ∀ s : State,
      (∃ (r : Word) (t : State), r.toNat = s.src.toNat / 256 ∧ exec .hib s = .next t ∧ WroteReg s.dreg r s t ∧
        t.sf = r.getLsbD 7 ∧ t.zf = decide (r.toNat % 256 = 0) ∧ t.cf = s.cf ∧ t.vf = s.vf) ∧
      (∃ (r : Word) (t : State), r.toNat = s.src.toNat % 256 ∧ exec .lob s = .next t ∧ WroteReg s.dreg r s t ∧
        t.sf = r.getLsbD 7 ∧ t.zf = decide (r = 0) ∧ t.cf = s.cf ∧ t.vf = s.vf) ∧
      (∃ r : Word, r.toInt = (s.src.extractLsb' 0 8).toInt ∧ YieldsSZ r s (exec .sex s)) ∧
      ∃ r : Word, r.toNat = s.src.toNat % 256 * 256 + s.src.toNat / 256 ∧ YieldsPlain s.dreg r s (exec .swap s)

/-- MERGE joins the high bytes of r7 and r8, with its own flag formulas on the result (R188; D20). -/
def Obligations.MergeJoinsTheHighBytes : Prop :=
  ∀ s : State, ∃ (r : Word) (t : State), r.toNat = (s.reg 7).toNat / 256 * 256 + (s.reg 8).toNat / 256 ∧
    exec .merge s = .next t ∧ WroteReg s.dreg r s t ∧
    t.sf = (r.getLsbD 7 || r.getLsbD 15) ∧
    t.vf = (r.getLsbD 6 || r.getLsbD 7 || r.getLsbD 14 || r.getLsbD 15) ∧
    t.cf = (r.getLsbD 5 || r.getLsbD 6 || r.getLsbD 7 || r.getLsbD 13 || r.getLsbD 14 || r.getLsbD 15) ∧
    t.zf = (r.getLsbD 4 || r.getLsbD 5 || r.getLsbD 6 || r.getLsbD 7 || r.getLsbD 12 || r.getLsbD 13 || r.getLsbD 14 ||
      r.getLsbD 15)

/-! ## Immediates -/

/-- IBT sign-extends its byte, IWT takes its word low byte first, and LEA and the MOVE spellings are those instructions. -/
def Obligations.ImmediatesReachTheirRegister : Prop :=
  (∀ (n : Reg) (k lo hi : Byte) (rest : List Byte), decode .none (byteOf 10 n :: k :: rest) = .ok (.ibt n k, rest) ∧
    decode .none (byteOf 15 n :: lo :: hi :: rest) = .ok (.iwt n (hi ++ lo), rest)) ∧
    (∀ (n : Reg) (a : BitVec 24), encode (.lea n a) = [byteOf 15 n, a.extractLsb' 0 8, a.extractLsb' 8 8]) ∧
    ∀ (s : State) (n : Reg) (k : Byte) (w : Word) (a : BitVec 24),
      YieldsPlain n (k.signExtend 16) s (exec (.ibt n k) s) ∧ YieldsPlain n (k.signExtend 16) s (exec (.moveI8 n k) s) ∧
      YieldsPlain n w s (exec (.iwt n w) s) ∧ YieldsPlain n w s (exec (.moveI16 n w) s) ∧
      YieldsPlain n (a.truncate 16) s (exec (.lea n a) s)

/-! ## RAM -/

/-- The loads, of open RAM: a word with bit 0 of the address forced, or a byte zero-extended (R230 to R233, R76, R78; D8, D14);
MOVEW R0 is LDW with the DReg in force (R216). -/
def Obligations.LoadsReadRam : Prop :=
  ∀ (s : State) (n : Reg) (a : Word) (k : Byte),
    (s.WordOpen (s.reg n) → LoadsWord s.dreg (s.reg n) s (exec (.ldw n) s) ∧
      LoadsWord s.dreg (s.reg n) s (exec (.movewLoad0 n) s)) ∧
    (s.WordOpen a → LoadsWord n a s (exec (.lm n a) s)) ∧
    (s.WordOpen (k.zeroExtend 16 * 2) → LoadsWord n (k.zeroExtend 16 * 2) s (exec (.lms n k) s)) ∧
    (s.RamOpen (s.ramAddr (s.reg n)) → LoadsByte s.dreg (s.reg n) s (exec (.ldb n) s))

/-- The stores, to open RAM: a word as its low byte at the address and its high byte at the address XOR 1, or the low byte of
SReg (R235 to R238, R77, R78; D14); MOVEW to [Ri] from R0 is STW with the SReg in force (R216). -/
def Obligations.StoresWriteRam : Prop :=
  ∀ (s : State) (n : Reg) (a : Word) (k : Byte),
    (s.WordOpen (s.reg n) → StoresWord (s.reg n) s.src s (exec (.stw n) s) ∧
      StoresWord (s.reg n) s.src s (exec (.movewStore0 n) s)) ∧
    (s.WordOpen a → StoresWord a (s.reg n) s (exec (.sm n a) s)) ∧
    (s.WordOpen (k.zeroExtend 16 * 2) → StoresWord (k.zeroExtend 16 * 2) (s.reg n) s (exec (.sms n k) s)) ∧
    (s.RamOpen (s.ramAddr (s.reg n)) → StoresByte (s.reg n) s.src s (exec (.stb n) s))

/-- SBK stores SReg to the last RAM address used, in the current bank, and leaves that address (R239; D11; notes/assumptions/24.md).
Before any RAM access of the run it stores to an address that nothing names: the model's choice, where R239 and U4 propose a
refusal (notes/assumptions/6.md). -/
def Obligations.SbkStoresToTheLastAddress : Prop :=
  ∀ s : State,
    (s.lastramSet = true → s.WordOpen s.lastram →
      Stores [(s.ramAddr s.lastram, s.src.extractLsb' 0 8), (s.ramAddr (s.lastram ^^^ 1), s.src.extractLsb' 8 8)] s
        (exec .sbk s)) ∧
    (s.lastramSet = false → s.WordOpen Config.launchLastram →
      Stores [(s.ramAddr Config.launchLastram, s.src.extractLsb' 0 8),
        (s.ramAddr (Config.launchLastram ^^^ 1), s.src.extractLsb' 8 8)] s (exec .sbk s))

/-- A word stored and loaded at one address comes back, with its bytes exchanged if the address is odd (R76, R77; D14, D5). -/
def Obligations.AWordStoredComesBack : Prop :=
  ∀ (s : State) (n m : Reg) (a : Word), s.WordOpen a →
    ∃ t u, exec (.sm n a) s = .next t ∧ exec (.lm m a) t = .next u ∧
      u.reg m = if a.getLsbD 0 then (s.reg n).extractLsb' 0 8 ++ (s.reg n).extractLsb' 8 8 else s.reg n

/-- RAMB and ROMB take the low byte of SReg as their bank, RAMB once the pending store has reached RAM; CMODE takes bits 3..0 as
the plot options (R234, R87, R266, R310; D28). -/
def Obligations.BanksAndPlotOptionsComeFromSreg : Prop :=
  ∀ s : State,
    (∃ t, exec .ramb s = .next t ∧ WroteNoReg { s.drainRam with rambr := s.src.extractLsb' 0 8 } t ∧
      FlagsKept s t ∧ t.ramBuf = [] ∧ ∀ a, Memory.read t.ram a = s.ramByte a) ∧
    (∃ t, exec .romb s = .next t ∧ WroteNoReg { s with rombr := s.src.extractLsb' 0 8 } t ∧ FlagsKept s t) ∧
    ∃ t, exec .cmode s = .next t ∧ WroteNoReg { s with por := s.src.extractLsb' 0 4 } t ∧ FlagsKept s t

/-- A load or a store of RAM that MEM_MAP does not have, or that holds the screen, is refused, SBK at its address
among them (D17, D18; before any RAM access of the run that address is the free value of notes/assumptions/6.md); the spellings of several instructions are `RamMovesOfClosedRamAreRefused`. -/
def Obligations.ClosedRamIsRefused : Prop :=
  ∀ (s : State) (n : Reg) (a : Word) (k : Byte),
    (¬ s.RamOpen (s.ramAddr (s.reg n)) → RefusesRam (exec (.ldb n) s) ∧ RefusesRam (exec (.stb n) s)) ∧
    (¬ s.WordOpen (s.reg n) → RefusesRam (exec (.ldw n) s) ∧ RefusesRam (exec (.stw n) s) ∧
      RefusesRam (exec (.movewLoad0 n) s) ∧ RefusesRam (exec (.movewStore0 n) s)) ∧
    (¬ s.WordOpen a → RefusesRam (exec (.lm n a) s) ∧ RefusesRam (exec (.sm n a) s)) ∧
    (¬ s.WordOpen (k.zeroExtend 16 * 2) → RefusesRam (exec (.lms n k) s) ∧ RefusesRam (exec (.sms n k) s)) ∧
    (s.lastramSet = true → ¬ s.WordOpen s.lastram → RefusesRam (exec .sbk s)) ∧
    (s.lastramSet = false → ¬ s.WordOpen Config.launchLastram → RefusesRam (exec .sbk s))

/-! ## ROM -/

/-- GETB, GETBH, GETBL and GETBS put the byte of a filled ROM buffer where their rules say. -/
def Obligations.GetbFamilyReadsTheRomBuffer : Prop :=
  (∀ rest : List Byte, decode .none (0xef :: rest) = .ok (.getb, rest) ∧ decode .one (0xef :: rest) = .ok (.getbh, rest) ∧
    decode .two (0xef :: rest) = .ok (.getbl, rest) ∧ decode .three (0xef :: rest) = .ok (.getbs, rest)) ∧
    ∀ s : State, s.romStatus = .loaded →
      (∃ r : Word, r.toNat = s.rombuf.toNat ∧ YieldsPlain s.dreg r { s with romPending := false } (exec .getb s)) ∧
      (∃ r : Word, r.toNat = s.rombuf.toNat * 256 + s.src.toNat % 256 ∧
        YieldsPlain s.dreg r { s with romPending := false } (exec .getbh s)) ∧
      (∃ r : Word, r.toNat = s.src.toNat / 256 * 256 + s.rombuf.toNat ∧
        YieldsPlain s.dreg r { s with romPending := false } (exec .getbl s)) ∧
      ∃ r : Word, r.toInt = s.rombuf.toInt ∧ YieldsPlain s.dreg r { s with romPending := false } (exec .getbs s)

/-- Before the run writes r14 a GETx reads one byte that nothing names, GETC among them, which puts it into COLR while POR bits 2
and 3 are 0. That is the model's choice of the two treatments of 93_implementation_defined.md U3, "refuse; or rombuf any value of
8 bits" (notes/assumptions/5.md); R260 of 45_rom.md takes the other and refuses it. A byte outside MEM_MAP's ROM is refused (D18;
notes/assumptions/8.md). -/
def Obligations.UnsetAndUnmappedRomBuffers : Prop :=
  ∀ s : State,
    (s.romStatus = .unset → ∃ v : Byte,
      YieldsPlain s.dreg (v.zeroExtend 16) { s with romPending := false } (exec .getb s) ∧
      YieldsPlain s.dreg (v ++ s.src.extractLsb' 0 8) { s with romPending := false } (exec .getbh s) ∧
      YieldsPlain s.dreg (s.src.extractLsb' 8 8 ++ v) { s with romPending := false } (exec .getbl s) ∧
      YieldsPlain s.dreg (v.signExtend 16) { s with romPending := false } (exec .getbs s) ∧
      ∃ t, exec .getc s = .next t ∧ WroteNoReg { s with romPending := false, colr := t.colr, draws := t.draws } t ∧
        FlagsKept s t ∧ (s.por.getLsbD 2 = false → s.por.getLsbD 3 = false → t.colr = v)) ∧
    (s.romStatus = .unmapped → exec .getb s = .refused .unmappedData ∧ exec .getbh s = .refused .unmappedData ∧
      exec .getbl s = .refused .unmappedData ∧ exec .getbs s = .refused .unmappedData ∧
      exec .getc s = .refused .unmappedData)

/-- A write of r14 and a GETB give the ROM byte at the bank of the write, a ROMB between them or not (R25, R89; D10, D28). -/
def Obligations.RomBytesComeFromTheBankOfTheWrite : Prop :=
  ∀ (s : State) (a : Word), inRegions s.params.romHoles (bankAddr s.rombr a) = false →
    ∃ t u v w, exec (.iwt 14 a) s = .next t ∧ exec .romb t = .next u ∧ exec .getb u = .next v ∧ exec .getb t = .next w ∧
      v.reg 0 = (s.rom.read (bankAddr s.rombr a)).zeroExtend 16 ∧ w.reg 0 = v.reg 0 ∧ v.reg 14 = a

/-! ## Control -/

/-- The nine branches whose bytes the source gives: the offset byte is taken first, so that r15 counts from the first byte after
the instruction and that byte waits in the pipe, then the branch goes or not; nothing else changes, the pipe included. -/
def Obligations.ConditionalBranchesTestTheirFlag : Prop :=
  (∀ (alt : Alt) (d : Byte) (rest : List Byte), decode alt (0x0c :: d :: rest) = .ok (.bcc d, rest) ∧
    decode alt (0x0d :: d :: rest) = .ok (.bcs d, rest) ∧ decode alt (0x09 :: d :: rest) = .ok (.beq d, rest) ∧
    decode alt (0x07 :: d :: rest) = .ok (.bge d, rest) ∧ decode alt (0x06 :: d :: rest) = .ok (.blt d, rest) ∧
    decode alt (0x0b :: d :: rest) = .ok (.bmi d, rest) ∧ decode alt (0x0a :: d :: rest) = .ok (.bpl d, rest) ∧
    decode alt (0x0e :: d :: rest) = .ok (.bvc d, rest) ∧ decode alt (0x0f :: d :: rest) = .ok (.bvs d, rest)) ∧
    (∀ (s t : State) (bytes : List Byte), isBranchByte s.altMode s.pipe = true → s.fetch = .ok (bytes, t) →
      t.reg 15 = s.reg 15 + 1 ∧ s.codeRead s.pbr (s.reg 15 + 1) = .ok t.pipe ∧
        ∃ d, bytes = [s.pipe, d] ∧ s.codeRead s.pbr (s.reg 15) = .ok d) ∧
    ∀ (s : State) (d : Byte),
      Branches (!s.cf) d s (exec (.bcc d) s) ∧ Branches s.cf d s (exec (.bcs d) s) ∧ Branches s.zf d s (exec (.beq d) s) ∧
      Branches (!(s.sf ^^ s.vf)) d s (exec (.bge d) s) ∧ Branches (s.sf ^^ s.vf) d s (exec (.blt d) s) ∧
      Branches s.sf d s (exec (.bmi d) s) ∧ Branches (!s.sf) d s (exec (.bpl d) s) ∧
      Branches (!s.vf) d s (exec (.bvc d) s) ∧ Branches s.vf d s (exec (.bvs d) s)

/-- BRA and BNE, whose bytes are the spec's own choice (R110, R288, R291; D7). -/
def Obligations.BraAndBneBranch : Prop :=
  (∀ (alt : Alt) (d : Byte) (rest : List Byte), decode alt (0x05 :: d :: rest) = .ok (.bra d, rest) ∧
    decode alt (0x08 :: d :: rest) = .ok (.bne d, rest)) ∧
    ∀ (s : State) (d : Byte), Branches true d s (exec (.bra d) s) ∧ Branches (!s.zf) d s (exec (.bne d) s)

/-- JMP writes r15 from the register named; LOOP counts r12 down and goes to r13 unless r12 became 0. -/
def Obligations.JmpAndLoopWriteTheProgramCounter : Prop :=
  (∀ (n : Reg) (rest : List Byte), (jumpRegOk n = true → decode .none (byteOf 9 n :: rest) = .ok (.jmp n, rest)) ∧
    decode .none (0x3c :: rest) = .ok (.loop, rest)) ∧
    ∀ (s : State) (n : Reg), YieldsPlain 15 (s.reg n) s (exec (.jmp n) s) ∧
      ∃ t, exec .loop s = .next t ∧ FlagsSZ (s.reg 12 - 1) s t ∧
        (s.reg 12 ≠ 1 → WroteReg 15 (s.reg 13) (s.setReg 12 (s.reg 12 - 1)) t) ∧
        (s.reg 12 = 1 → WroteReg 12 0 s t)

/-- LJMP writes the PC bank from SReg and r15 from the register named and resets the cache flags, the cache base being any word;
CACHE sets the cache base to r15 and resets the cache flags, unless the base is r15 already (R296, R293; D1, D12, D25). -/
def Obligations.LjmpAndCache : Prop :=
  ∀ (s : State) (n : Reg),
    (∃ t, exec (.ljmp n) s = .next t ∧
      WroteReg 15 (s.reg n) { s with pbr := s.src.extractLsb' 0 8, cacheFlags := [], cbr := t.cbr, draws := t.draws } t ∧
      FlagsKept s t) ∧
    ∃ t, exec .cache s = .next t ∧ FlagsKept s t ∧
      WroteNoReg { s with cbr := s.reg 15, cacheFlags := if s.cbr = s.reg 15 then s.cacheFlags else [] } t

/-- LINK puts r15 plus its operand into r11; so after LINK #4 and IWT R15,#a, r15 is a, the slot byte waits in the pipe, and r11
is the address after the slot byte (R295; D1). -/
def Obligations.LinkSavesTheReturnAddress : Prop :=
  (∀ (s : State) (k : Nibble), YieldsPlain 11 (s.reg 15 + k.zeroExtend 16) s (exec (.link k) s)) ∧
    ∀ (s : State) (lo hi : Byte), s.go = true → PrefixCleared s → s.CodeOpen → s.ReadsNext [0x94, 0xff, lo, hi] →
      ∃ t, Sys2Proof.core.run 2 s = .next t ∧ t.reg 15 = hi ++ lo ∧ t.reg 11 = s.reg 15 + 4 ∧
        s.codeRead s.pbr (s.reg 15 + 3) = .ok t.pipe

/-- NOP clears the prefix data and does nothing else. STOP writes both buffers out, clears GO and the prefix data, and sends one
IRQ to the host, and there is no further step; of r15 after STOP nothing is said (R299; notes/assumptions/30.md). -/
def Obligations.NopAndStop : Prop :=
  (∀ rest : List Byte, decode .none (0x01 :: rest) = .ok (.nop, rest) ∧ decode .none (0x00 :: rest) = .ok (.stop, rest)) ∧
    ∀ s : State,
      (∃ t, exec .nop s = .next t ∧ WroteNoReg s t ∧ FlagsKept s t) ∧
      ∃ t, exec .stop s = .next t ∧ (∀ m, m ≠ 15 → t.reg m = s.reg m) ∧ t.rombuf = s.rombuf ∧ t.romStatus = s.romStatus ∧
        t.romPending = s.romPending ∧ PrefixCleared t ∧
        RestKept { s.drainPlot.drainRam with go := false, hostIrqs := s.hostIrqs + 1 } t ∧ FlagsKept s t ∧
        t.ramBuf = [] ∧ t.plotBuf = [] ∧ (∀ a, Memory.read t.ram a = s.ramByte a) ∧
        (∀ x y, Memory.read t.pix (pixelAddr x y) = s.pixel x y) ∧ step t = .fault .stopped

/-! ## Pixels -/

/-- COLOR, row by row of its table, and GETC, which takes the ROM byte while POR bits 2 and 3 are 0; where the spec says any value
nothing is said (R311, R265; D16, D27). -/
def Obligations.ColorAndGetcSetTheColour : Prop :=
  ∀ s : State,
    (∃ t, exec .color s = .next t ∧ WroteNoReg { s with colr := t.colr, draws := t.draws } t ∧ FlagsKept s t ∧
      (s.por.getLsbD 2 = false → s.por.getLsbD 3 = false ∨ s.params.colorDepth = .sixteen →
        t.colr = s.src.extractLsb' 0 8) ∧
      (s.params.colorDepth = .twoFiftySix → s.por.getLsbD 3 = true →
        t.colr = s.colr.extractLsb' 4 4 ++ (if s.por.getLsbD 2 then s.src.extractLsb' 4 4 else s.src.extractLsb' 0 4)) ∧
      (s.params.colorDepth = .sixteen → s.por.getLsbD 2 = true → t.colr.extractLsb' 0 4 = s.src.extractLsb' 4 4)) ∧
    (s.romStatus = .loaded → ∃ t, exec .getc s = .next t ∧
      WroteNoReg { s with romPending := false, colr := t.colr, draws := t.draws } t ∧ FlagsKept s t ∧
      (s.por.getLsbD 2 = false → s.por.getLsbD 3 = false → t.colr = s.rombuf))

/-- PLOT counts r1 up and writes at most the pixel at (r1, r2), buffered: none if the colour is transparent, else the colour of
the mode (R312; D19, U11). -/
def Obligations.PlotWritesOnePixel : Prop :=
  ∀ s : State, ∃ t, exec .plot s = .next t ∧ RegWritten 1 (s.reg 1 + 1) s t ∧ RomFollows 1 (s.reg 1 + 1) s t ∧
    FlagsKept s t ∧ PrefixCleared t ∧ SystemKept { s with draws := t.draws } t ∧ RamKept s t ∧ t.pix = s.pix ∧
    (∀ x y, (x ≠ (s.reg 1).extractLsb' 0 8 ∨ y ≠ (s.reg 2).extractLsb' 0 8) → t.pixel x y = s.pixel x y) ∧
    (s.params.colorDepth = .sixteen →
      t.pixel ((s.reg 1).extractLsb' 0 8) ((s.reg 2).extractLsb' 0 8) =
        if s.por.getLsbD 0 ∧ s.colr.toNat % 16 = 0 then s.pixel ((s.reg 1).extractLsb' 0 8) ((s.reg 2).extractLsb' 0 8)
        else if s.por.getLsbD 1 ∧ ((s.reg 1).toNat + (s.reg 2).toNat) % 2 = 1 then BitVec.ofNat 8 (s.colr.toNat / 16)
        else BitVec.ofNat 8 (s.colr.toNat % 16)) ∧
    (s.params.colorDepth = .twoFiftySix →
      (s.por.getLsbD 0 = true → (if s.por.getLsbD 3 then s.colr.toNat % 16 = 0 else s.colr = 0) →
        t.pixel ((s.reg 1).extractLsb' 0 8) ((s.reg 2).extractLsb' 0 8) =
          s.pixel ((s.reg 1).extractLsb' 0 8) ((s.reg 2).extractLsb' 0 8)) ∧
      (s.por.getLsbD 0 = false ∨ ¬ (if s.por.getLsbD 3 then s.colr.toNat % 16 = 0 else s.colr = 0) →
        s.por.getLsbD 1 = false → t.pixel ((s.reg 1).extractLsb' 0 8) ((s.reg 2).extractLsb' 0 8) = s.colr))

/-- RPIX writes the pending pixels out and reads the pixel at (r1, r2), zero-extended (R313; D15). -/
def Obligations.RpixReadsThePixel : Prop :=
  ∀ s : State, ∃ (r : Word) (t : State), exec .rpix s = .next t ∧ WroteReg s.dreg r s.drainPlot t ∧ FlagsSZ r s t ∧
    t.plotBuf = [] ∧ (∀ x y, t.pixel x y = s.pixel x y) ∧
    r.toNat = (s.pixel ((s.reg 1).extractLsb' 0 8) ((s.reg 2).extractLsb' 0 8)).toNat %
      (match s.params.colorDepth with | .sixteen => 16 | .twoFiftySix => 256)

/-- What PLOT leaves at its pixel is read back: PLOT, r1 stepped back, RPIX (R313, an inference the spec marks). That a 16-colour
pixel drawn without dithering is COLR[3:0] is the spec's decision D19 (notes/assumptions/11.md); a transparent colour reads the
pixel that was there, and of a pixel dithered in 256-colour mode, which is any value (U11), nothing is said. -/
def Obligations.RpixReturnsWhatPlotDrew : Prop :=
  ∀ s : State, ∃ t u v, exec .plot s = .next t ∧ exec (.dec 1) t = .next u ∧ exec .rpix u = .next v ∧
    (v.zf = true ↔ v.reg 0 = 0) ∧
    (s.params.colorDepth = .sixteen →
      (v.reg 0).toNat =
        if s.por.getLsbD 0 ∧ s.colr.toNat % 16 = 0 then
          (s.pixel ((s.reg 1).extractLsb' 0 8) ((s.reg 2).extractLsb' 0 8)).toNat % 16
        else if s.por.getLsbD 1 ∧ ((s.reg 1).toNat + (s.reg 2).toNat) % 2 = 1 then s.colr.toNat / 16
        else s.colr.toNat % 16) ∧
    (s.params.colorDepth = .twoFiftySix →
      (s.por.getLsbD 0 = true → (if s.por.getLsbD 3 then s.colr.toNat % 16 = 0 else s.colr = 0) →
        (v.reg 0).toNat = (s.pixel ((s.reg 1).extractLsb' 0 8) ((s.reg 2).extractLsb' 0 8)).toNat) ∧
      (s.por.getLsbD 0 = false ∨ ¬ (if s.por.getLsbD 3 then s.colr.toNat % 16 = 0 else s.colr = 0) →
        s.por.getLsbD 1 = false → (v.reg 0).toNat = s.colr.toNat))

/-! ## Assembler spellings of several instructions -/

/-- MOVE and MOVES between registers (R213, R215). -/
def Obligations.RegisterMoves : Prop :=
  ∀ (s : State) (d n : Reg), s.CodeOpen →
    PastBytes 1 s (exec (.moveRR d n) s) (fun b o => YieldsPlain d (b.reg n) b o) ∧
    PastBytes 1 s (exec (.movesRR d n) s) (fun b o => ∃ t, o = .next t ∧ WroteReg d (b.reg n) b t ∧
      t.sf = (b.reg n).getLsbD 15 ∧ t.zf = decide (b.reg n = 0) ∧ t.vf = (b.reg n).getLsbD 7 ∧ t.cf = b.cf)

/-- MOVE, MOVEB and MOVEW from RAM (R213, R214, R216), from open RAM; the two forms with TO want b clear. -/
def Obligations.RamMovesLoad : Prop :=
  ∀ (s : State) (n i : Reg) (a : Word) (x : BitVec 9), s.CodeOpen → addressRegOk i = true →
    (x.getLsbD 0 = false → s.WordOpen (x.zeroExtend 16) →
      PastBytes 2 s (exec (.moveLoadShort n x) s) (LoadsWord n (x.zeroExtend 16))) ∧
    (s.WordOpen a → PastBytes 3 s (exec (.moveLoad n a) s) (LoadsWord n a)) ∧
    (s.RamOpen (s.ramAddr (s.reg i)) →
      PastBytes 1 s (exec (.movebLoad0 i) s) (LoadsByte s.dreg (s.reg i)) ∧
      (s.b = false → PastBytes 2 s (exec (.movebLoad n i) s) (LoadsByte n (s.reg i)))) ∧
    (s.WordOpen (s.reg i) → s.b = false → PastBytes 1 s (exec (.movewLoad n i) s) (LoadsWord n (s.reg i)))

/-- MOVE, MOVEB and MOVEW to RAM (R213, R214, R216), to open RAM; the two forms with FROM want b clear. -/
def Obligations.RamMovesStore : Prop :=
  ∀ (s : State) (n i : Reg) (a : Word) (x : BitVec 9), s.CodeOpen → addressRegOk i = true →
    (x.getLsbD 0 = false → s.WordOpen (x.zeroExtend 16) →
      PastBytes 2 s (exec (.moveStoreShort n x) s) (fun b o => StoresWord (x.zeroExtend 16) (b.reg n) b o)) ∧
    (s.WordOpen a → PastBytes 3 s (exec (.moveStore n a) s) (fun b o => StoresWord a (b.reg n) b o)) ∧
    (s.RamOpen (s.ramAddr (s.reg i)) →
      PastBytes 1 s (exec (.movebStore0 i) s) (fun b o => StoresByte (s.reg i) b.src b o) ∧
      (s.b = false → PastBytes 2 s (exec (.movebStore n i) s) (fun b o => StoresByte (s.reg i) (b.reg n) b o))) ∧
    (s.WordOpen (s.reg i) → s.b = false →
      PastBytes 1 s (exec (.movewStore n i) s) (fun b o => StoresWord (s.reg i) (b.reg n) b o))

/-- MOVE, MOVEB and MOVEW from and to RAM that is not open are refused, as the load or store they are made of is (R213, R214, R216;
D17, D18); the four forms with TO or FROM want b clear. -/
def Obligations.RamMovesOfClosedRamAreRefused : Prop :=
  ∀ (s : State) (n i : Reg) (a : Word) (x : BitVec 9), s.CodeOpen → addressRegOk i = true →
    (x.getLsbD 0 = false → ¬ s.WordOpen (x.zeroExtend 16) →
      RefusesRam (exec (.moveLoadShort n x) s) ∧ RefusesRam (exec (.moveStoreShort n x) s)) ∧
    (¬ s.WordOpen a → RefusesRam (exec (.moveLoad n a) s) ∧ RefusesRam (exec (.moveStore n a) s)) ∧
    (¬ s.RamOpen (s.ramAddr (s.reg i)) →
      RefusesRam (exec (.movebLoad0 i) s) ∧ RefusesRam (exec (.movebStore0 i) s) ∧
      (s.b = false → RefusesRam (exec (.movebLoad n i) s) ∧ RefusesRam (exec (.movebStore n i) s))) ∧
    (¬ s.WordOpen (s.reg i) → s.b = false →
      RefusesRam (exec (.movewLoad n i) s) ∧ RefusesRam (exec (.movewStore n i) s))
end

