-- ==== Sys2Proof/Laws/Memory.lean ====
section
/-!
SUPPORT. The laws of memories, pending writes and address sets: read after write, the canonical form, and what a drain does.
-/

namespace Sys2Proof.Machine

/-! ## Read after write -/

theorem Memory.read_erase_same (m : Memory) (a : Nat) : Memory.read (m.erase a) a = unlisted := by
  induction m with
  | nil => rfl
  | cons c m ih =>
    obtain ⟨b, v⟩ := c
    by_cases h : b = a
    · simpa [Memory.erase, h] using ih
    · simpa [Memory.erase, Memory.read, h] using ih

theorem Memory.read_erase_other (m : Memory) {a x : Nat} (hx : x ≠ a) : Memory.read (m.erase a) x = m.read x := by
  induction m with
  | nil => rfl
  | cons c m ih =>
    obtain ⟨b, v⟩ := c
    by_cases h : b = a
    · subst h
      simpa [Memory.erase, Memory.read, Ne.symm hx] using ih
    · by_cases hb : b = x
      · simp [Memory.erase, Memory.read, hb, hx]
      · simpa [Memory.erase, Memory.read, h, hb] using ih

theorem read_insertCell_other (m : Memory) {a x : Nat} (v : Byte) (hx : x ≠ a) :
    Memory.read (insertCell a v m) x = m.read x := by
  induction m with
  | nil => simp [insertCell, Memory.read, Ne.symm hx]
  | cons c m ih =>
    obtain ⟨b, w⟩ := c
    unfold insertCell
    split
    · simp [Memory.read, Ne.symm hx]
    · simp [Memory.read, ih]

theorem read_insertCell_same (m : Memory) (a : Nat) (v : Byte) (h : ∀ c ∈ m, c.1 ≠ a) :
    Memory.read (insertCell a v m) a = v := by
  induction m with
  | nil => simp [insertCell, Memory.read]
  | cons c m ih =>
    obtain ⟨b, w⟩ := c
    unfold insertCell
    split
    · simp [Memory.read]
    · have hb : b ≠ a := h (b, w) (by simp)
      simpa [Memory.read, hb] using ih fun c hc => h c (by simp [hc])

theorem Memory.erase_ne (m : Memory) (a : Nat) : ∀ c ∈ m.erase a, c.1 ≠ a := by
  simp [Memory.erase]

/-- A write changes the written byte and no other. -/
theorem Memory.read_write (m : Memory) (a x : Nat) (v : Byte) :
    Memory.read (m.write a v) x = if x = a then v else m.read x := by
  unfold Memory.write
  by_cases hx : x = a
  · subst hx
    by_cases hv : v = unlisted
    · simp [hv, Memory.read_erase_same]
    · simpa [hv] using read_insertCell_same _ x v (Memory.erase_ne m x)
  · by_cases hv : v = unlisted
    · simp [hv, hx, Memory.read_erase_other m hx]
    · simp [hv, hx, read_insertCell_other _ v hx, Memory.read_erase_other m hx]

/-! ## The canonical form -/

theorem Memory.nil_wf : Memory.wf [] := ⟨List.Pairwise.nil, by simp⟩

theorem Memory.erase_wf {m : Memory} (h : m.wf) (a : Nat) : Memory.wf (m.erase a) :=
  ⟨h.1.filter _, fun c hc => h.2 c (List.mem_of_mem_filter hc)⟩

theorem mem_insertCell {a : Nat} {v : Byte} {m : Memory} {c : Host.Cell} :
    c ∈ insertCell a v m ↔ c = (a, v) ∨ c ∈ m := by
  induction m with
  | nil => simp [insertCell]
  | cons d m ih =>
    unfold insertCell
    split
    · simp
    · simp only [List.mem_cons, ih]
      tauto

theorem insertCell_wf {m : Memory} (h : m.wf) {a : Nat} {v : Byte} (hv : v ≠ unlisted) (ha : ∀ c ∈ m, c.1 ≠ a) :
    Memory.wf (insertCell a v m) := by
  refine ⟨?_, fun c hc => ?_⟩
  · have hp := h.1
    clear h
    induction m with
    | nil => simp [insertCell]
    | cons d m ih =>
      obtain ⟨b, w⟩ := d
      rw [List.pairwise_cons] at hp
      unfold insertCell
      split
      · rename_i hab
        refine List.pairwise_cons.2 ⟨fun e he => ?_, List.pairwise_cons.2 hp⟩
        rcases List.mem_cons.1 he with rfl | he
        · exact hab
        · exact Nat.lt_trans hab (hp.1 e he)
      · rename_i hab
        have hb : b ≠ a := ha (b, w) (by simp)
        refine List.pairwise_cons.2 ⟨fun e he => ?_, ih (fun c hc => ha c (by simp [hc])) hp.2⟩
        rcases mem_insertCell.1 he with rfl | he
        · simp only; omega
        · exact hp.1 e he
  · rcases mem_insertCell.1 hc with rfl | hc
    · exact hv
    · exact h.2 c hc

/-- A write keeps the canonical form. -/
theorem Memory.write_wf {m : Memory} (h : m.wf) (a : Nat) (v : Byte) : Memory.wf (m.write a v) := by
  unfold Memory.write
  split
  · exact Memory.erase_wf h a
  · exact insertCell_wf (Memory.erase_wf h a) ‹_› (Memory.erase_ne m a)

/-- What is in a memory after a write: the cell written, or a cell that was there. -/
theorem Memory.mem_write {m : Memory} {a : Nat} {v : Byte} {c : Host.Cell} (h : c ∈ m.write a v) :
    c = (a, v) ∨ c ∈ m := by
  unfold Memory.write at h
  split at h
  · exact .inr (List.mem_of_mem_filter h)
  · rcases mem_insertCell.1 h with h | h
    · exact .inl h
    · exact .inr (List.mem_of_mem_filter h)

/-- A drain keeps the canonical form. -/
theorem drainInto_wf (buf : List Host.Cell) {m : Memory} (h : m.wf) : Memory.wf (drainInto buf m) := by
  induction buf generalizing m with
  | nil => exact h
  | cons c buf ih => exact ih (Memory.write_wf h _ _)

/-- What is in a memory after a drain: a drained cell, or a cell that was there. -/
theorem mem_drainInto {buf : List Host.Cell} {m : Memory} {c : Host.Cell} (h : c ∈ drainInto buf m) :
    c ∈ buf ∨ c ∈ m := by
  induction buf generalizing m with
  | nil => exact .inr h
  | cons d buf ih =>
    rcases ih h with h | h
    · exact .inl (by simp [h])
    · rcases Memory.mem_write h with rfl | h
      · exact .inl (by simp)
      · exact .inr h

/-! ## Pending writes -/

@[simp] theorem pendingByte_nil (a : Nat) : pendingByte [] a = none := rfl

theorem pendingByte_cons (b : Nat) (v : Byte) (buf : List Host.Cell) (a : Nat) :
    pendingByte ((b, v) :: buf) a = (pendingByte buf a).or (if b = a then some v else none) := by
  cases h : pendingByte buf a <;> simp [pendingByte, h]

/-- The newest entry wins. -/
theorem pendingByte_append (buf new : List Host.Cell) (a : Nat) :
    pendingByte (buf ++ new) a = (pendingByte new a).or (pendingByte buf a) := by
  induction buf with
  | nil => simp
  | cons c buf ih =>
    obtain ⟨b, v⟩ := c
    simp [pendingByte_cons, ih, Option.or_assoc]

@[simp] theorem readThrough_nil (m : Memory) (a : Nat) : readThrough [] m a = m.read a := rfl

/-- A drained memory reads as the memory read through the buffer did: draining changes no byte a load can see. -/
theorem read_drainInto (buf : List Host.Cell) (m : Memory) (a : Nat) :
    Memory.read (drainInto buf m) a = readThrough buf m a := by
  induction buf generalizing m with
  | nil => rfl
  | cons c buf ih =>
    obtain ⟨b, v⟩ := c
    simp only [drainInto, ih, readThrough, Memory.read_write, pendingByte_cons]
    cases pendingByte buf a with
    | some w => rfl
    | none =>
      by_cases h : b = a
      · simp [h]
      · simp [h, Ne.symm h]

/-- A buffer's entries are what a read through it sees first. -/
theorem readThrough_append (buf new : List Host.Cell) (m : Memory) (a : Nat) :
    readThrough (buf ++ new) m a = (pendingByte new a).getD (readThrough buf m a) := by
  simp only [readThrough, pendingByte_append]
  cases pendingByte new a <;> rfl

/-- Draining first and buffering then reads the same as buffering behind what is there. -/
theorem readThrough_drainInto (buf new : List Host.Cell) (m : Memory) (a : Nat) :
    readThrough new (drainInto buf m) a = (pendingByte new a).getD (readThrough buf m a) := by
  simp only [readThrough, read_drainInto]

/-! ## Address sets -/

theorem mem_insertAddr {a x : Nat} {l : List Nat} : x ∈ insertAddr a l ↔ x = a ∨ x ∈ l := by
  induction l with
  | nil => simp [insertAddr]
  | cons b l ih =>
    unfold insertAddr
    split
    · simp
    · split
      · subst a
        simp
      · simp only [List.mem_cons, ih]
        tauto

theorem insertAddr_rising {a : Nat} {l : List Nat} (h : l.Pairwise (· < ·)) : (insertAddr a l).Pairwise (· < ·) := by
  induction l with
  | nil => simp [insertAddr]
  | cons b l ih =>
    have hp := List.pairwise_cons.1 h
    unfold insertAddr
    split
    · rename_i hab
      refine List.pairwise_cons.2 ⟨fun x hx => ?_, h⟩
      rcases List.mem_cons.1 hx with rfl | hx
      · exact hab
      · exact Nat.lt_trans hab (hp.1 x hx)
    · split
      · exact h
      · refine List.pairwise_cons.2 ⟨fun x hx => ?_, ih hp.2⟩
        rcases mem_insertAddr.1 hx with rfl | hx
        · omega
        · exact hp.1 x hx

theorem mem_insertAddrs {cells : List Host.Cell} {x : Nat} {l : List Nat} :
    x ∈ insertAddrs cells l ↔ (∃ c ∈ cells, c.1 = x) ∨ x ∈ l := by
  induction cells generalizing l with
  | nil => simp [insertAddrs]
  | cons c cells ih =>
    simp only [insertAddrs, ih, mem_insertAddr, List.mem_cons, exists_eq_or_imp]
    constructor
    · rintro (h | rfl | h)
      · exact .inl (.inr h)
      · exact .inl (.inl rfl)
      · exact .inr h
    · rintro ((rfl | h) | h)
      · exact .inr (.inl rfl)
      · exact .inl h
      · exact .inr (.inr h)

theorem insertAddrs_rising (cells : List Host.Cell) {l : List Nat} (h : l.Pairwise (· < ·)) :
    (insertAddrs cells l).Pairwise (· < ·) := by
  induction cells generalizing l with
  | nil => exact h
  | cons c cells ih => exact ih (insertAddr_rising h)

end Sys2Proof.Machine
end

