-- ==== Sys2Proof/Laws/State.lean ====
section
/-!
SUPPORT. One lemma per field and update of the state, so that no proof unfolds a record update. The updates with a branch
(`romLoad`, `writeReg`, `setColour`) come last.
-/

namespace Sys2Proof.Machine

/-! ## `setReg` -/

@[simp] theorem State.setReg_regs (s : State) (n : Reg) (v : Word) : (s.setReg n v).regs = s.regs.set n v := rfl
@[simp] theorem State.setReg_pipe (s : State) (n : Reg) (v : Word) : (s.setReg n v).pipe = s.pipe := rfl
@[simp] theorem State.setReg_zf (s : State) (n : Reg) (v : Word) : (s.setReg n v).zf = s.zf := rfl
@[simp] theorem State.setReg_cf (s : State) (n : Reg) (v : Word) : (s.setReg n v).cf = s.cf := rfl
@[simp] theorem State.setReg_sf (s : State) (n : Reg) (v : Word) : (s.setReg n v).sf = s.sf := rfl
@[simp] theorem State.setReg_vf (s : State) (n : Reg) (v : Word) : (s.setReg n v).vf = s.vf := rfl
@[simp] theorem State.setReg_go (s : State) (n : Reg) (v : Word) : (s.setReg n v).go = s.go := rfl
@[simp] theorem State.setReg_alt1 (s : State) (n : Reg) (v : Word) : (s.setReg n v).alt1 = s.alt1 := rfl
@[simp] theorem State.setReg_alt2 (s : State) (n : Reg) (v : Word) : (s.setReg n v).alt2 = s.alt2 := rfl
@[simp] theorem State.setReg_b (s : State) (n : Reg) (v : Word) : (s.setReg n v).b = s.b := rfl
@[simp] theorem State.setReg_il (s : State) (n : Reg) (v : Word) : (s.setReg n v).il = s.il := rfl
@[simp] theorem State.setReg_ih (s : State) (n : Reg) (v : Word) : (s.setReg n v).ih = s.ih := rfl
@[simp] theorem State.setReg_sreg (s : State) (n : Reg) (v : Word) : (s.setReg n v).sreg = s.sreg := rfl
@[simp] theorem State.setReg_dreg (s : State) (n : Reg) (v : Word) : (s.setReg n v).dreg = s.dreg := rfl
@[simp] theorem State.setReg_colr (s : State) (n : Reg) (v : Word) : (s.setReg n v).colr = s.colr := rfl
@[simp] theorem State.setReg_por (s : State) (n : Reg) (v : Word) : (s.setReg n v).por = s.por := rfl
@[simp] theorem State.setReg_pbr (s : State) (n : Reg) (v : Word) : (s.setReg n v).pbr = s.pbr := rfl
@[simp] theorem State.setReg_rambr (s : State) (n : Reg) (v : Word) : (s.setReg n v).rambr = s.rambr := rfl
@[simp] theorem State.setReg_rombr (s : State) (n : Reg) (v : Word) : (s.setReg n v).rombr = s.rombr := rfl
@[simp] theorem State.setReg_cbr (s : State) (n : Reg) (v : Word) : (s.setReg n v).cbr = s.cbr := rfl
@[simp] theorem State.setReg_cacheFlags (s : State) (n : Reg) (v : Word) : (s.setReg n v).cacheFlags = s.cacheFlags := rfl
@[simp] theorem State.setReg_rombuf (s : State) (n : Reg) (v : Word) : (s.setReg n v).rombuf = s.rombuf := rfl
@[simp] theorem State.setReg_romPending (s : State) (n : Reg) (v : Word) : (s.setReg n v).romPending = s.romPending := rfl
@[simp] theorem State.setReg_romStatus (s : State) (n : Reg) (v : Word) : (s.setReg n v).romStatus = s.romStatus := rfl
@[simp] theorem State.setReg_lastram (s : State) (n : Reg) (v : Word) : (s.setReg n v).lastram = s.lastram := rfl
@[simp] theorem State.setReg_lastramSet (s : State) (n : Reg) (v : Word) : (s.setReg n v).lastramSet = s.lastramSet := rfl
@[simp] theorem State.setReg_inlineLo (s : State) (n : Reg) (v : Word) : (s.setReg n v).inlineLo = s.inlineLo := rfl
@[simp] theorem State.setReg_ramBuf (s : State) (n : Reg) (v : Word) : (s.setReg n v).ramBuf = s.ramBuf := rfl
@[simp] theorem State.setReg_plotBuf (s : State) (n : Reg) (v : Word) : (s.setReg n v).plotBuf = s.plotBuf := rfl
@[simp] theorem State.setReg_pix (s : State) (n : Reg) (v : Word) : (s.setReg n v).pix = s.pix := rfl
@[simp] theorem State.setReg_code (s : State) (n : Reg) (v : Word) : (s.setReg n v).code = s.code := rfl
@[simp] theorem State.setReg_rom (s : State) (n : Reg) (v : Word) : (s.setReg n v).rom = s.rom := rfl
@[simp] theorem State.setReg_ram (s : State) (n : Reg) (v : Word) : (s.setReg n v).ram = s.ram := rfl
@[simp] theorem State.setReg_stored (s : State) (n : Reg) (v : Word) : (s.setReg n v).stored = s.stored := rfl
@[simp] theorem State.setReg_params (s : State) (n : Reg) (v : Word) : (s.setReg n v).params = s.params := rfl
@[simp] theorem State.setReg_hostIrqs (s : State) (n : Reg) (v : Word) : (s.setReg n v).hostIrqs = s.hostIrqs := rfl
@[simp] theorem State.setReg_draws (s : State) (n : Reg) (v : Word) : (s.setReg n v).draws = s.draws := rfl

/-! ## `advance` -/

@[simp] theorem State.advance_regs (s : State) : s.advance.regs = s.regs.set 15 (s.pc + 1) := rfl
@[simp] theorem State.advance_pipe (s : State) : s.advance.pipe = s.pipe := rfl
@[simp] theorem State.advance_zf (s : State) : s.advance.zf = s.zf := rfl
@[simp] theorem State.advance_cf (s : State) : s.advance.cf = s.cf := rfl
@[simp] theorem State.advance_sf (s : State) : s.advance.sf = s.sf := rfl
@[simp] theorem State.advance_vf (s : State) : s.advance.vf = s.vf := rfl
@[simp] theorem State.advance_go (s : State) : s.advance.go = s.go := rfl
@[simp] theorem State.advance_alt1 (s : State) : s.advance.alt1 = s.alt1 := rfl
@[simp] theorem State.advance_alt2 (s : State) : s.advance.alt2 = s.alt2 := rfl
@[simp] theorem State.advance_b (s : State) : s.advance.b = s.b := rfl
@[simp] theorem State.advance_il (s : State) : s.advance.il = s.il := rfl
@[simp] theorem State.advance_ih (s : State) : s.advance.ih = s.ih := rfl
@[simp] theorem State.advance_sreg (s : State) : s.advance.sreg = s.sreg := rfl
@[simp] theorem State.advance_dreg (s : State) : s.advance.dreg = s.dreg := rfl
@[simp] theorem State.advance_colr (s : State) : s.advance.colr = s.colr := rfl
@[simp] theorem State.advance_por (s : State) : s.advance.por = s.por := rfl
@[simp] theorem State.advance_pbr (s : State) : s.advance.pbr = s.pbr := rfl
@[simp] theorem State.advance_rambr (s : State) : s.advance.rambr = s.rambr := rfl
@[simp] theorem State.advance_rombr (s : State) : s.advance.rombr = s.rombr := rfl
@[simp] theorem State.advance_cbr (s : State) : s.advance.cbr = s.cbr := rfl
@[simp] theorem State.advance_cacheFlags (s : State) : s.advance.cacheFlags = s.cacheFlags := rfl
@[simp] theorem State.advance_rombuf (s : State) : s.advance.rombuf = s.rombuf := rfl
@[simp] theorem State.advance_romPending (s : State) : s.advance.romPending = s.romPending := rfl
@[simp] theorem State.advance_romStatus (s : State) : s.advance.romStatus = s.romStatus := rfl
@[simp] theorem State.advance_lastram (s : State) : s.advance.lastram = s.lastram := rfl
@[simp] theorem State.advance_lastramSet (s : State) : s.advance.lastramSet = s.lastramSet := rfl
@[simp] theorem State.advance_inlineLo (s : State) : s.advance.inlineLo = s.inlineLo := rfl
@[simp] theorem State.advance_ramBuf (s : State) : s.advance.ramBuf = s.ramBuf := rfl
@[simp] theorem State.advance_plotBuf (s : State) : s.advance.plotBuf = s.plotBuf := rfl
@[simp] theorem State.advance_pix (s : State) : s.advance.pix = s.pix := rfl
@[simp] theorem State.advance_code (s : State) : s.advance.code = s.code := rfl
@[simp] theorem State.advance_rom (s : State) : s.advance.rom = s.rom := rfl
@[simp] theorem State.advance_ram (s : State) : s.advance.ram = s.ram := rfl
@[simp] theorem State.advance_stored (s : State) : s.advance.stored = s.stored := rfl
@[simp] theorem State.advance_params (s : State) : s.advance.params = s.params := rfl
@[simp] theorem State.advance_hostIrqs (s : State) : s.advance.hostIrqs = s.hostIrqs := rfl
@[simp] theorem State.advance_draws (s : State) : s.advance.draws = s.draws := rfl

/-! ## `clearPrefix` -/

@[simp] theorem State.clearPrefix_regs (s : State) : s.clearPrefix.regs = s.regs := rfl
@[simp] theorem State.clearPrefix_pipe (s : State) : s.clearPrefix.pipe = s.pipe := rfl
@[simp] theorem State.clearPrefix_zf (s : State) : s.clearPrefix.zf = s.zf := rfl
@[simp] theorem State.clearPrefix_cf (s : State) : s.clearPrefix.cf = s.cf := rfl
@[simp] theorem State.clearPrefix_sf (s : State) : s.clearPrefix.sf = s.sf := rfl
@[simp] theorem State.clearPrefix_vf (s : State) : s.clearPrefix.vf = s.vf := rfl
@[simp] theorem State.clearPrefix_go (s : State) : s.clearPrefix.go = s.go := rfl
@[simp] theorem State.clearPrefix_alt1 (s : State) : s.clearPrefix.alt1 = false := rfl
@[simp] theorem State.clearPrefix_alt2 (s : State) : s.clearPrefix.alt2 = false := rfl
@[simp] theorem State.clearPrefix_b (s : State) : s.clearPrefix.b = false := rfl
@[simp] theorem State.clearPrefix_il (s : State) : s.clearPrefix.il = false := rfl
@[simp] theorem State.clearPrefix_ih (s : State) : s.clearPrefix.ih = false := rfl
@[simp] theorem State.clearPrefix_sreg (s : State) : s.clearPrefix.sreg = 0 := rfl
@[simp] theorem State.clearPrefix_dreg (s : State) : s.clearPrefix.dreg = 0 := rfl
@[simp] theorem State.clearPrefix_colr (s : State) : s.clearPrefix.colr = s.colr := rfl
@[simp] theorem State.clearPrefix_por (s : State) : s.clearPrefix.por = s.por := rfl
@[simp] theorem State.clearPrefix_pbr (s : State) : s.clearPrefix.pbr = s.pbr := rfl
@[simp] theorem State.clearPrefix_rambr (s : State) : s.clearPrefix.rambr = s.rambr := rfl
@[simp] theorem State.clearPrefix_rombr (s : State) : s.clearPrefix.rombr = s.rombr := rfl
@[simp] theorem State.clearPrefix_cbr (s : State) : s.clearPrefix.cbr = s.cbr := rfl
@[simp] theorem State.clearPrefix_cacheFlags (s : State) : s.clearPrefix.cacheFlags = s.cacheFlags := rfl
@[simp] theorem State.clearPrefix_rombuf (s : State) : s.clearPrefix.rombuf = s.rombuf := rfl
@[simp] theorem State.clearPrefix_romPending (s : State) : s.clearPrefix.romPending = s.romPending := rfl
@[simp] theorem State.clearPrefix_romStatus (s : State) : s.clearPrefix.romStatus = s.romStatus := rfl
@[simp] theorem State.clearPrefix_lastram (s : State) : s.clearPrefix.lastram = s.lastram := rfl
@[simp] theorem State.clearPrefix_lastramSet (s : State) : s.clearPrefix.lastramSet = s.lastramSet := rfl
@[simp] theorem State.clearPrefix_inlineLo (s : State) : s.clearPrefix.inlineLo = s.inlineLo := rfl
@[simp] theorem State.clearPrefix_ramBuf (s : State) : s.clearPrefix.ramBuf = s.ramBuf := rfl
@[simp] theorem State.clearPrefix_plotBuf (s : State) : s.clearPrefix.plotBuf = s.plotBuf := rfl
@[simp] theorem State.clearPrefix_pix (s : State) : s.clearPrefix.pix = s.pix := rfl
@[simp] theorem State.clearPrefix_code (s : State) : s.clearPrefix.code = s.code := rfl
@[simp] theorem State.clearPrefix_rom (s : State) : s.clearPrefix.rom = s.rom := rfl
@[simp] theorem State.clearPrefix_ram (s : State) : s.clearPrefix.ram = s.ram := rfl
@[simp] theorem State.clearPrefix_stored (s : State) : s.clearPrefix.stored = s.stored := rfl
@[simp] theorem State.clearPrefix_params (s : State) : s.clearPrefix.params = s.params := rfl
@[simp] theorem State.clearPrefix_hostIrqs (s : State) : s.clearPrefix.hostIrqs = s.hostIrqs := rfl
@[simp] theorem State.clearPrefix_draws (s : State) : s.clearPrefix.draws = s.draws := rfl

/-! ## `setSZ` -/

@[simp] theorem State.setSZ_regs (s : State) (r : Word) : (s.setSZ r).regs = s.regs := rfl
@[simp] theorem State.setSZ_pipe (s : State) (r : Word) : (s.setSZ r).pipe = s.pipe := rfl
@[simp] theorem State.setSZ_zf (s : State) (r : Word) : (s.setSZ r).zf = decide (r = 0) := rfl
@[simp] theorem State.setSZ_cf (s : State) (r : Word) : (s.setSZ r).cf = s.cf := rfl
@[simp] theorem State.setSZ_sf (s : State) (r : Word) : (s.setSZ r).sf = r.msb := rfl
@[simp] theorem State.setSZ_vf (s : State) (r : Word) : (s.setSZ r).vf = s.vf := rfl
@[simp] theorem State.setSZ_go (s : State) (r : Word) : (s.setSZ r).go = s.go := rfl
@[simp] theorem State.setSZ_alt1 (s : State) (r : Word) : (s.setSZ r).alt1 = s.alt1 := rfl
@[simp] theorem State.setSZ_alt2 (s : State) (r : Word) : (s.setSZ r).alt2 = s.alt2 := rfl
@[simp] theorem State.setSZ_b (s : State) (r : Word) : (s.setSZ r).b = s.b := rfl
@[simp] theorem State.setSZ_il (s : State) (r : Word) : (s.setSZ r).il = s.il := rfl
@[simp] theorem State.setSZ_ih (s : State) (r : Word) : (s.setSZ r).ih = s.ih := rfl
@[simp] theorem State.setSZ_sreg (s : State) (r : Word) : (s.setSZ r).sreg = s.sreg := rfl
@[simp] theorem State.setSZ_dreg (s : State) (r : Word) : (s.setSZ r).dreg = s.dreg := rfl
@[simp] theorem State.setSZ_colr (s : State) (r : Word) : (s.setSZ r).colr = s.colr := rfl
@[simp] theorem State.setSZ_por (s : State) (r : Word) : (s.setSZ r).por = s.por := rfl
@[simp] theorem State.setSZ_pbr (s : State) (r : Word) : (s.setSZ r).pbr = s.pbr := rfl
@[simp] theorem State.setSZ_rambr (s : State) (r : Word) : (s.setSZ r).rambr = s.rambr := rfl
@[simp] theorem State.setSZ_rombr (s : State) (r : Word) : (s.setSZ r).rombr = s.rombr := rfl
@[simp] theorem State.setSZ_cbr (s : State) (r : Word) : (s.setSZ r).cbr = s.cbr := rfl
@[simp] theorem State.setSZ_cacheFlags (s : State) (r : Word) : (s.setSZ r).cacheFlags = s.cacheFlags := rfl
@[simp] theorem State.setSZ_rombuf (s : State) (r : Word) : (s.setSZ r).rombuf = s.rombuf := rfl
@[simp] theorem State.setSZ_romPending (s : State) (r : Word) : (s.setSZ r).romPending = s.romPending := rfl
@[simp] theorem State.setSZ_romStatus (s : State) (r : Word) : (s.setSZ r).romStatus = s.romStatus := rfl
@[simp] theorem State.setSZ_lastram (s : State) (r : Word) : (s.setSZ r).lastram = s.lastram := rfl
@[simp] theorem State.setSZ_lastramSet (s : State) (r : Word) : (s.setSZ r).lastramSet = s.lastramSet := rfl
@[simp] theorem State.setSZ_inlineLo (s : State) (r : Word) : (s.setSZ r).inlineLo = s.inlineLo := rfl
@[simp] theorem State.setSZ_ramBuf (s : State) (r : Word) : (s.setSZ r).ramBuf = s.ramBuf := rfl
@[simp] theorem State.setSZ_plotBuf (s : State) (r : Word) : (s.setSZ r).plotBuf = s.plotBuf := rfl
@[simp] theorem State.setSZ_pix (s : State) (r : Word) : (s.setSZ r).pix = s.pix := rfl
@[simp] theorem State.setSZ_code (s : State) (r : Word) : (s.setSZ r).code = s.code := rfl
@[simp] theorem State.setSZ_rom (s : State) (r : Word) : (s.setSZ r).rom = s.rom := rfl
@[simp] theorem State.setSZ_ram (s : State) (r : Word) : (s.setSZ r).ram = s.ram := rfl
@[simp] theorem State.setSZ_stored (s : State) (r : Word) : (s.setSZ r).stored = s.stored := rfl
@[simp] theorem State.setSZ_params (s : State) (r : Word) : (s.setSZ r).params = s.params := rfl
@[simp] theorem State.setSZ_hostIrqs (s : State) (r : Word) : (s.setSZ r).hostIrqs = s.hostIrqs := rfl
@[simp] theorem State.setSZ_draws (s : State) (r : Word) : (s.setSZ r).draws = s.draws := rfl

/-! ## `setByteSZ` -/

@[simp] theorem State.setByteSZ_regs (s : State) (r : Byte) : (s.setByteSZ r).regs = s.regs := rfl
@[simp] theorem State.setByteSZ_pipe (s : State) (r : Byte) : (s.setByteSZ r).pipe = s.pipe := rfl
@[simp] theorem State.setByteSZ_zf (s : State) (r : Byte) : (s.setByteSZ r).zf = decide (r = 0) := rfl
@[simp] theorem State.setByteSZ_cf (s : State) (r : Byte) : (s.setByteSZ r).cf = s.cf := rfl
@[simp] theorem State.setByteSZ_sf (s : State) (r : Byte) : (s.setByteSZ r).sf = r.msb := rfl
@[simp] theorem State.setByteSZ_vf (s : State) (r : Byte) : (s.setByteSZ r).vf = s.vf := rfl
@[simp] theorem State.setByteSZ_go (s : State) (r : Byte) : (s.setByteSZ r).go = s.go := rfl
@[simp] theorem State.setByteSZ_alt1 (s : State) (r : Byte) : (s.setByteSZ r).alt1 = s.alt1 := rfl
@[simp] theorem State.setByteSZ_alt2 (s : State) (r : Byte) : (s.setByteSZ r).alt2 = s.alt2 := rfl
@[simp] theorem State.setByteSZ_b (s : State) (r : Byte) : (s.setByteSZ r).b = s.b := rfl
@[simp] theorem State.setByteSZ_il (s : State) (r : Byte) : (s.setByteSZ r).il = s.il := rfl
@[simp] theorem State.setByteSZ_ih (s : State) (r : Byte) : (s.setByteSZ r).ih = s.ih := rfl
@[simp] theorem State.setByteSZ_sreg (s : State) (r : Byte) : (s.setByteSZ r).sreg = s.sreg := rfl
@[simp] theorem State.setByteSZ_dreg (s : State) (r : Byte) : (s.setByteSZ r).dreg = s.dreg := rfl
@[simp] theorem State.setByteSZ_colr (s : State) (r : Byte) : (s.setByteSZ r).colr = s.colr := rfl
@[simp] theorem State.setByteSZ_por (s : State) (r : Byte) : (s.setByteSZ r).por = s.por := rfl
@[simp] theorem State.setByteSZ_pbr (s : State) (r : Byte) : (s.setByteSZ r).pbr = s.pbr := rfl
@[simp] theorem State.setByteSZ_rambr (s : State) (r : Byte) : (s.setByteSZ r).rambr = s.rambr := rfl
@[simp] theorem State.setByteSZ_rombr (s : State) (r : Byte) : (s.setByteSZ r).rombr = s.rombr := rfl
@[simp] theorem State.setByteSZ_cbr (s : State) (r : Byte) : (s.setByteSZ r).cbr = s.cbr := rfl
@[simp] theorem State.setByteSZ_cacheFlags (s : State) (r : Byte) : (s.setByteSZ r).cacheFlags = s.cacheFlags := rfl
@[simp] theorem State.setByteSZ_rombuf (s : State) (r : Byte) : (s.setByteSZ r).rombuf = s.rombuf := rfl
@[simp] theorem State.setByteSZ_romPending (s : State) (r : Byte) : (s.setByteSZ r).romPending = s.romPending := rfl
@[simp] theorem State.setByteSZ_romStatus (s : State) (r : Byte) : (s.setByteSZ r).romStatus = s.romStatus := rfl
@[simp] theorem State.setByteSZ_lastram (s : State) (r : Byte) : (s.setByteSZ r).lastram = s.lastram := rfl
@[simp] theorem State.setByteSZ_lastramSet (s : State) (r : Byte) : (s.setByteSZ r).lastramSet = s.lastramSet := rfl
@[simp] theorem State.setByteSZ_inlineLo (s : State) (r : Byte) : (s.setByteSZ r).inlineLo = s.inlineLo := rfl
@[simp] theorem State.setByteSZ_ramBuf (s : State) (r : Byte) : (s.setByteSZ r).ramBuf = s.ramBuf := rfl
@[simp] theorem State.setByteSZ_plotBuf (s : State) (r : Byte) : (s.setByteSZ r).plotBuf = s.plotBuf := rfl
@[simp] theorem State.setByteSZ_pix (s : State) (r : Byte) : (s.setByteSZ r).pix = s.pix := rfl
@[simp] theorem State.setByteSZ_code (s : State) (r : Byte) : (s.setByteSZ r).code = s.code := rfl
@[simp] theorem State.setByteSZ_rom (s : State) (r : Byte) : (s.setByteSZ r).rom = s.rom := rfl
@[simp] theorem State.setByteSZ_ram (s : State) (r : Byte) : (s.setByteSZ r).ram = s.ram := rfl
@[simp] theorem State.setByteSZ_stored (s : State) (r : Byte) : (s.setByteSZ r).stored = s.stored := rfl
@[simp] theorem State.setByteSZ_params (s : State) (r : Byte) : (s.setByteSZ r).params = s.params := rfl
@[simp] theorem State.setByteSZ_hostIrqs (s : State) (r : Byte) : (s.setByteSZ r).hostIrqs = s.hostIrqs := rfl
@[simp] theorem State.setByteSZ_draws (s : State) (r : Byte) : (s.setByteSZ r).draws = s.draws := rfl

/-! ## `setSZC` -/

@[simp] theorem State.setSZC_regs (s : State) (r : Word) (c : Bool) : (s.setSZC r c).regs = s.regs := rfl
@[simp] theorem State.setSZC_pipe (s : State) (r : Word) (c : Bool) : (s.setSZC r c).pipe = s.pipe := rfl
@[simp] theorem State.setSZC_zf (s : State) (r : Word) (c : Bool) : (s.setSZC r c).zf = decide (r = 0) := rfl
@[simp] theorem State.setSZC_cf (s : State) (r : Word) (c : Bool) : (s.setSZC r c).cf = c := rfl
@[simp] theorem State.setSZC_sf (s : State) (r : Word) (c : Bool) : (s.setSZC r c).sf = r.msb := rfl
@[simp] theorem State.setSZC_vf (s : State) (r : Word) (c : Bool) : (s.setSZC r c).vf = s.vf := rfl
@[simp] theorem State.setSZC_go (s : State) (r : Word) (c : Bool) : (s.setSZC r c).go = s.go := rfl
@[simp] theorem State.setSZC_alt1 (s : State) (r : Word) (c : Bool) : (s.setSZC r c).alt1 = s.alt1 := rfl
@[simp] theorem State.setSZC_alt2 (s : State) (r : Word) (c : Bool) : (s.setSZC r c).alt2 = s.alt2 := rfl
@[simp] theorem State.setSZC_b (s : State) (r : Word) (c : Bool) : (s.setSZC r c).b = s.b := rfl
@[simp] theorem State.setSZC_il (s : State) (r : Word) (c : Bool) : (s.setSZC r c).il = s.il := rfl
@[simp] theorem State.setSZC_ih (s : State) (r : Word) (c : Bool) : (s.setSZC r c).ih = s.ih := rfl
@[simp] theorem State.setSZC_sreg (s : State) (r : Word) (c : Bool) : (s.setSZC r c).sreg = s.sreg := rfl
@[simp] theorem State.setSZC_dreg (s : State) (r : Word) (c : Bool) : (s.setSZC r c).dreg = s.dreg := rfl
@[simp] theorem State.setSZC_colr (s : State) (r : Word) (c : Bool) : (s.setSZC r c).colr = s.colr := rfl
@[simp] theorem State.setSZC_por (s : State) (r : Word) (c : Bool) : (s.setSZC r c).por = s.por := rfl
@[simp] theorem State.setSZC_pbr (s : State) (r : Word) (c : Bool) : (s.setSZC r c).pbr = s.pbr := rfl
@[simp] theorem State.setSZC_rambr (s : State) (r : Word) (c : Bool) : (s.setSZC r c).rambr = s.rambr := rfl
@[simp] theorem State.setSZC_rombr (s : State) (r : Word) (c : Bool) : (s.setSZC r c).rombr = s.rombr := rfl
@[simp] theorem State.setSZC_cbr (s : State) (r : Word) (c : Bool) : (s.setSZC r c).cbr = s.cbr := rfl
@[simp] theorem State.setSZC_cacheFlags (s : State) (r : Word) (c : Bool) : (s.setSZC r c).cacheFlags = s.cacheFlags := rfl
@[simp] theorem State.setSZC_rombuf (s : State) (r : Word) (c : Bool) : (s.setSZC r c).rombuf = s.rombuf := rfl
@[simp] theorem State.setSZC_romPending (s : State) (r : Word) (c : Bool) : (s.setSZC r c).romPending = s.romPending := rfl
@[simp] theorem State.setSZC_romStatus (s : State) (r : Word) (c : Bool) : (s.setSZC r c).romStatus = s.romStatus := rfl
@[simp] theorem State.setSZC_lastram (s : State) (r : Word) (c : Bool) : (s.setSZC r c).lastram = s.lastram := rfl
@[simp] theorem State.setSZC_lastramSet (s : State) (r : Word) (c : Bool) : (s.setSZC r c).lastramSet = s.lastramSet := rfl
@[simp] theorem State.setSZC_inlineLo (s : State) (r : Word) (c : Bool) : (s.setSZC r c).inlineLo = s.inlineLo := rfl
@[simp] theorem State.setSZC_ramBuf (s : State) (r : Word) (c : Bool) : (s.setSZC r c).ramBuf = s.ramBuf := rfl
@[simp] theorem State.setSZC_plotBuf (s : State) (r : Word) (c : Bool) : (s.setSZC r c).plotBuf = s.plotBuf := rfl
@[simp] theorem State.setSZC_pix (s : State) (r : Word) (c : Bool) : (s.setSZC r c).pix = s.pix := rfl
@[simp] theorem State.setSZC_code (s : State) (r : Word) (c : Bool) : (s.setSZC r c).code = s.code := rfl
@[simp] theorem State.setSZC_rom (s : State) (r : Word) (c : Bool) : (s.setSZC r c).rom = s.rom := rfl
@[simp] theorem State.setSZC_ram (s : State) (r : Word) (c : Bool) : (s.setSZC r c).ram = s.ram := rfl
@[simp] theorem State.setSZC_stored (s : State) (r : Word) (c : Bool) : (s.setSZC r c).stored = s.stored := rfl
@[simp] theorem State.setSZC_params (s : State) (r : Word) (c : Bool) : (s.setSZC r c).params = s.params := rfl
@[simp] theorem State.setSZC_hostIrqs (s : State) (r : Word) (c : Bool) : (s.setSZC r c).hostIrqs = s.hostIrqs := rfl
@[simp] theorem State.setSZC_draws (s : State) (r : Word) (c : Bool) : (s.setSZC r c).draws = s.draws := rfl

/-! ## `setAdd` -/

@[simp] theorem State.setAdd_regs (s : State) (a b : Word) (cin : Bool) : (s.setAdd a b cin).regs = s.regs := rfl
@[simp] theorem State.setAdd_pipe (s : State) (a b : Word) (cin : Bool) : (s.setAdd a b cin).pipe = s.pipe := rfl
@[simp] theorem State.setAdd_zf (s : State) (a b : Word) (cin : Bool) : (s.setAdd a b cin).zf = decide (adderResult a b cin = 0) := rfl
@[simp] theorem State.setAdd_cf (s : State) (a b : Word) (cin : Bool) : (s.setAdd a b cin).cf = adderCarry a b cin := rfl
@[simp] theorem State.setAdd_sf (s : State) (a b : Word) (cin : Bool) : (s.setAdd a b cin).sf = (adderResult a b cin).msb := rfl
@[simp] theorem State.setAdd_vf (s : State) (a b : Word) (cin : Bool) : (s.setAdd a b cin).vf = addOverflow a b (adderResult a b cin) := rfl
@[simp] theorem State.setAdd_go (s : State) (a b : Word) (cin : Bool) : (s.setAdd a b cin).go = s.go := rfl
@[simp] theorem State.setAdd_alt1 (s : State) (a b : Word) (cin : Bool) : (s.setAdd a b cin).alt1 = s.alt1 := rfl
@[simp] theorem State.setAdd_alt2 (s : State) (a b : Word) (cin : Bool) : (s.setAdd a b cin).alt2 = s.alt2 := rfl
@[simp] theorem State.setAdd_b (s : State) (a b : Word) (cin : Bool) : (s.setAdd a b cin).b = s.b := rfl
@[simp] theorem State.setAdd_il (s : State) (a b : Word) (cin : Bool) : (s.setAdd a b cin).il = s.il := rfl
@[simp] theorem State.setAdd_ih (s : State) (a b : Word) (cin : Bool) : (s.setAdd a b cin).ih = s.ih := rfl
@[simp] theorem State.setAdd_sreg (s : State) (a b : Word) (cin : Bool) : (s.setAdd a b cin).sreg = s.sreg := rfl
@[simp] theorem State.setAdd_dreg (s : State) (a b : Word) (cin : Bool) : (s.setAdd a b cin).dreg = s.dreg := rfl
@[simp] theorem State.setAdd_colr (s : State) (a b : Word) (cin : Bool) : (s.setAdd a b cin).colr = s.colr := rfl
@[simp] theorem State.setAdd_por (s : State) (a b : Word) (cin : Bool) : (s.setAdd a b cin).por = s.por := rfl
@[simp] theorem State.setAdd_pbr (s : State) (a b : Word) (cin : Bool) : (s.setAdd a b cin).pbr = s.pbr := rfl
@[simp] theorem State.setAdd_rambr (s : State) (a b : Word) (cin : Bool) : (s.setAdd a b cin).rambr = s.rambr := rfl
@[simp] theorem State.setAdd_rombr (s : State) (a b : Word) (cin : Bool) : (s.setAdd a b cin).rombr = s.rombr := rfl
@[simp] theorem State.setAdd_cbr (s : State) (a b : Word) (cin : Bool) : (s.setAdd a b cin).cbr = s.cbr := rfl
@[simp] theorem State.setAdd_cacheFlags (s : State) (a b : Word) (cin : Bool) : (s.setAdd a b cin).cacheFlags = s.cacheFlags := rfl
@[simp] theorem State.setAdd_rombuf (s : State) (a b : Word) (cin : Bool) : (s.setAdd a b cin).rombuf = s.rombuf := rfl
@[simp] theorem State.setAdd_romPending (s : State) (a b : Word) (cin : Bool) : (s.setAdd a b cin).romPending = s.romPending := rfl
@[simp] theorem State.setAdd_romStatus (s : State) (a b : Word) (cin : Bool) : (s.setAdd a b cin).romStatus = s.romStatus := rfl
@[simp] theorem State.setAdd_lastram (s : State) (a b : Word) (cin : Bool) : (s.setAdd a b cin).lastram = s.lastram := rfl
@[simp] theorem State.setAdd_lastramSet (s : State) (a b : Word) (cin : Bool) : (s.setAdd a b cin).lastramSet = s.lastramSet := rfl
@[simp] theorem State.setAdd_inlineLo (s : State) (a b : Word) (cin : Bool) : (s.setAdd a b cin).inlineLo = s.inlineLo := rfl
@[simp] theorem State.setAdd_ramBuf (s : State) (a b : Word) (cin : Bool) : (s.setAdd a b cin).ramBuf = s.ramBuf := rfl
@[simp] theorem State.setAdd_plotBuf (s : State) (a b : Word) (cin : Bool) : (s.setAdd a b cin).plotBuf = s.plotBuf := rfl
@[simp] theorem State.setAdd_pix (s : State) (a b : Word) (cin : Bool) : (s.setAdd a b cin).pix = s.pix := rfl
@[simp] theorem State.setAdd_code (s : State) (a b : Word) (cin : Bool) : (s.setAdd a b cin).code = s.code := rfl
@[simp] theorem State.setAdd_rom (s : State) (a b : Word) (cin : Bool) : (s.setAdd a b cin).rom = s.rom := rfl
@[simp] theorem State.setAdd_ram (s : State) (a b : Word) (cin : Bool) : (s.setAdd a b cin).ram = s.ram := rfl
@[simp] theorem State.setAdd_stored (s : State) (a b : Word) (cin : Bool) : (s.setAdd a b cin).stored = s.stored := rfl
@[simp] theorem State.setAdd_params (s : State) (a b : Word) (cin : Bool) : (s.setAdd a b cin).params = s.params := rfl
@[simp] theorem State.setAdd_hostIrqs (s : State) (a b : Word) (cin : Bool) : (s.setAdd a b cin).hostIrqs = s.hostIrqs := rfl
@[simp] theorem State.setAdd_draws (s : State) (a b : Word) (cin : Bool) : (s.setAdd a b cin).draws = s.draws := rfl

/-! ## `setSub` -/

@[simp] theorem State.setSub_regs (s : State) (a b : Word) (cin : Bool) : (s.setSub a b cin).regs = s.regs := rfl
@[simp] theorem State.setSub_pipe (s : State) (a b : Word) (cin : Bool) : (s.setSub a b cin).pipe = s.pipe := rfl
@[simp] theorem State.setSub_zf (s : State) (a b : Word) (cin : Bool) : (s.setSub a b cin).zf = decide (adderResult a (~~~b) cin = 0) := rfl
@[simp] theorem State.setSub_cf (s : State) (a b : Word) (cin : Bool) : (s.setSub a b cin).cf = adderCarry a (~~~b) cin := rfl
@[simp] theorem State.setSub_sf (s : State) (a b : Word) (cin : Bool) : (s.setSub a b cin).sf = (adderResult a (~~~b) cin).msb := rfl
@[simp] theorem State.setSub_vf (s : State) (a b : Word) (cin : Bool) : (s.setSub a b cin).vf = subOverflow a b (adderResult a (~~~b) cin) := rfl
@[simp] theorem State.setSub_go (s : State) (a b : Word) (cin : Bool) : (s.setSub a b cin).go = s.go := rfl
@[simp] theorem State.setSub_alt1 (s : State) (a b : Word) (cin : Bool) : (s.setSub a b cin).alt1 = s.alt1 := rfl
@[simp] theorem State.setSub_alt2 (s : State) (a b : Word) (cin : Bool) : (s.setSub a b cin).alt2 = s.alt2 := rfl
@[simp] theorem State.setSub_b (s : State) (a b : Word) (cin : Bool) : (s.setSub a b cin).b = s.b := rfl
@[simp] theorem State.setSub_il (s : State) (a b : Word) (cin : Bool) : (s.setSub a b cin).il = s.il := rfl
@[simp] theorem State.setSub_ih (s : State) (a b : Word) (cin : Bool) : (s.setSub a b cin).ih = s.ih := rfl
@[simp] theorem State.setSub_sreg (s : State) (a b : Word) (cin : Bool) : (s.setSub a b cin).sreg = s.sreg := rfl
@[simp] theorem State.setSub_dreg (s : State) (a b : Word) (cin : Bool) : (s.setSub a b cin).dreg = s.dreg := rfl
@[simp] theorem State.setSub_colr (s : State) (a b : Word) (cin : Bool) : (s.setSub a b cin).colr = s.colr := rfl
@[simp] theorem State.setSub_por (s : State) (a b : Word) (cin : Bool) : (s.setSub a b cin).por = s.por := rfl
@[simp] theorem State.setSub_pbr (s : State) (a b : Word) (cin : Bool) : (s.setSub a b cin).pbr = s.pbr := rfl
@[simp] theorem State.setSub_rambr (s : State) (a b : Word) (cin : Bool) : (s.setSub a b cin).rambr = s.rambr := rfl
@[simp] theorem State.setSub_rombr (s : State) (a b : Word) (cin : Bool) : (s.setSub a b cin).rombr = s.rombr := rfl
@[simp] theorem State.setSub_cbr (s : State) (a b : Word) (cin : Bool) : (s.setSub a b cin).cbr = s.cbr := rfl
@[simp] theorem State.setSub_cacheFlags (s : State) (a b : Word) (cin : Bool) : (s.setSub a b cin).cacheFlags = s.cacheFlags := rfl
@[simp] theorem State.setSub_rombuf (s : State) (a b : Word) (cin : Bool) : (s.setSub a b cin).rombuf = s.rombuf := rfl
@[simp] theorem State.setSub_romPending (s : State) (a b : Word) (cin : Bool) : (s.setSub a b cin).romPending = s.romPending := rfl
@[simp] theorem State.setSub_romStatus (s : State) (a b : Word) (cin : Bool) : (s.setSub a b cin).romStatus = s.romStatus := rfl
@[simp] theorem State.setSub_lastram (s : State) (a b : Word) (cin : Bool) : (s.setSub a b cin).lastram = s.lastram := rfl
@[simp] theorem State.setSub_lastramSet (s : State) (a b : Word) (cin : Bool) : (s.setSub a b cin).lastramSet = s.lastramSet := rfl
@[simp] theorem State.setSub_inlineLo (s : State) (a b : Word) (cin : Bool) : (s.setSub a b cin).inlineLo = s.inlineLo := rfl
@[simp] theorem State.setSub_ramBuf (s : State) (a b : Word) (cin : Bool) : (s.setSub a b cin).ramBuf = s.ramBuf := rfl
@[simp] theorem State.setSub_plotBuf (s : State) (a b : Word) (cin : Bool) : (s.setSub a b cin).plotBuf = s.plotBuf := rfl
@[simp] theorem State.setSub_pix (s : State) (a b : Word) (cin : Bool) : (s.setSub a b cin).pix = s.pix := rfl
@[simp] theorem State.setSub_code (s : State) (a b : Word) (cin : Bool) : (s.setSub a b cin).code = s.code := rfl
@[simp] theorem State.setSub_rom (s : State) (a b : Word) (cin : Bool) : (s.setSub a b cin).rom = s.rom := rfl
@[simp] theorem State.setSub_ram (s : State) (a b : Word) (cin : Bool) : (s.setSub a b cin).ram = s.ram := rfl
@[simp] theorem State.setSub_stored (s : State) (a b : Word) (cin : Bool) : (s.setSub a b cin).stored = s.stored := rfl
@[simp] theorem State.setSub_params (s : State) (a b : Word) (cin : Bool) : (s.setSub a b cin).params = s.params := rfl
@[simp] theorem State.setSub_hostIrqs (s : State) (a b : Word) (cin : Bool) : (s.setSub a b cin).hostIrqs = s.hostIrqs := rfl
@[simp] theorem State.setSub_draws (s : State) (a b : Word) (cin : Bool) : (s.setSub a b cin).draws = s.draws := rfl

/-! ## `setMerge` -/

@[simp] theorem State.setMerge_regs (s : State) (r : Word) : (s.setMerge r).regs = s.regs := rfl
@[simp] theorem State.setMerge_pipe (s : State) (r : Word) : (s.setMerge r).pipe = s.pipe := rfl
@[simp] theorem State.setMerge_zf (s : State) (r : Word) : (s.setMerge r).zf = ((r &&& 0xF0F0) != 0) := rfl
@[simp] theorem State.setMerge_cf (s : State) (r : Word) : (s.setMerge r).cf = ((r &&& 0xE0E0) != 0) := rfl
@[simp] theorem State.setMerge_sf (s : State) (r : Word) : (s.setMerge r).sf = ((r &&& 0x8080) != 0) := rfl
@[simp] theorem State.setMerge_vf (s : State) (r : Word) : (s.setMerge r).vf = ((r &&& 0xC0C0) != 0) := rfl
@[simp] theorem State.setMerge_go (s : State) (r : Word) : (s.setMerge r).go = s.go := rfl
@[simp] theorem State.setMerge_alt1 (s : State) (r : Word) : (s.setMerge r).alt1 = s.alt1 := rfl
@[simp] theorem State.setMerge_alt2 (s : State) (r : Word) : (s.setMerge r).alt2 = s.alt2 := rfl
@[simp] theorem State.setMerge_b (s : State) (r : Word) : (s.setMerge r).b = s.b := rfl
@[simp] theorem State.setMerge_il (s : State) (r : Word) : (s.setMerge r).il = s.il := rfl
@[simp] theorem State.setMerge_ih (s : State) (r : Word) : (s.setMerge r).ih = s.ih := rfl
@[simp] theorem State.setMerge_sreg (s : State) (r : Word) : (s.setMerge r).sreg = s.sreg := rfl
@[simp] theorem State.setMerge_dreg (s : State) (r : Word) : (s.setMerge r).dreg = s.dreg := rfl
@[simp] theorem State.setMerge_colr (s : State) (r : Word) : (s.setMerge r).colr = s.colr := rfl
@[simp] theorem State.setMerge_por (s : State) (r : Word) : (s.setMerge r).por = s.por := rfl
@[simp] theorem State.setMerge_pbr (s : State) (r : Word) : (s.setMerge r).pbr = s.pbr := rfl
@[simp] theorem State.setMerge_rambr (s : State) (r : Word) : (s.setMerge r).rambr = s.rambr := rfl
@[simp] theorem State.setMerge_rombr (s : State) (r : Word) : (s.setMerge r).rombr = s.rombr := rfl
@[simp] theorem State.setMerge_cbr (s : State) (r : Word) : (s.setMerge r).cbr = s.cbr := rfl
@[simp] theorem State.setMerge_cacheFlags (s : State) (r : Word) : (s.setMerge r).cacheFlags = s.cacheFlags := rfl
@[simp] theorem State.setMerge_rombuf (s : State) (r : Word) : (s.setMerge r).rombuf = s.rombuf := rfl
@[simp] theorem State.setMerge_romPending (s : State) (r : Word) : (s.setMerge r).romPending = s.romPending := rfl
@[simp] theorem State.setMerge_romStatus (s : State) (r : Word) : (s.setMerge r).romStatus = s.romStatus := rfl
@[simp] theorem State.setMerge_lastram (s : State) (r : Word) : (s.setMerge r).lastram = s.lastram := rfl
@[simp] theorem State.setMerge_lastramSet (s : State) (r : Word) : (s.setMerge r).lastramSet = s.lastramSet := rfl
@[simp] theorem State.setMerge_inlineLo (s : State) (r : Word) : (s.setMerge r).inlineLo = s.inlineLo := rfl
@[simp] theorem State.setMerge_ramBuf (s : State) (r : Word) : (s.setMerge r).ramBuf = s.ramBuf := rfl
@[simp] theorem State.setMerge_plotBuf (s : State) (r : Word) : (s.setMerge r).plotBuf = s.plotBuf := rfl
@[simp] theorem State.setMerge_pix (s : State) (r : Word) : (s.setMerge r).pix = s.pix := rfl
@[simp] theorem State.setMerge_code (s : State) (r : Word) : (s.setMerge r).code = s.code := rfl
@[simp] theorem State.setMerge_rom (s : State) (r : Word) : (s.setMerge r).rom = s.rom := rfl
@[simp] theorem State.setMerge_ram (s : State) (r : Word) : (s.setMerge r).ram = s.ram := rfl
@[simp] theorem State.setMerge_stored (s : State) (r : Word) : (s.setMerge r).stored = s.stored := rfl
@[simp] theorem State.setMerge_params (s : State) (r : Word) : (s.setMerge r).params = s.params := rfl
@[simp] theorem State.setMerge_hostIrqs (s : State) (r : Word) : (s.setMerge r).hostIrqs = s.hostIrqs := rfl
@[simp] theorem State.setMerge_draws (s : State) (r : Word) : (s.setMerge r).draws = s.draws := rfl

/-! ## `setMoves` -/

@[simp] theorem State.setMoves_regs (s : State) (t : Word) : (s.setMoves t).regs = s.regs := rfl
@[simp] theorem State.setMoves_pipe (s : State) (t : Word) : (s.setMoves t).pipe = s.pipe := rfl
@[simp] theorem State.setMoves_zf (s : State) (t : Word) : (s.setMoves t).zf = decide (t = 0) := rfl
@[simp] theorem State.setMoves_cf (s : State) (t : Word) : (s.setMoves t).cf = s.cf := rfl
@[simp] theorem State.setMoves_sf (s : State) (t : Word) : (s.setMoves t).sf = t.msb := rfl
@[simp] theorem State.setMoves_vf (s : State) (t : Word) : (s.setMoves t).vf = t.getLsbD 7 := rfl
@[simp] theorem State.setMoves_go (s : State) (t : Word) : (s.setMoves t).go = s.go := rfl
@[simp] theorem State.setMoves_alt1 (s : State) (t : Word) : (s.setMoves t).alt1 = s.alt1 := rfl
@[simp] theorem State.setMoves_alt2 (s : State) (t : Word) : (s.setMoves t).alt2 = s.alt2 := rfl
@[simp] theorem State.setMoves_b (s : State) (t : Word) : (s.setMoves t).b = s.b := rfl
@[simp] theorem State.setMoves_il (s : State) (t : Word) : (s.setMoves t).il = s.il := rfl
@[simp] theorem State.setMoves_ih (s : State) (t : Word) : (s.setMoves t).ih = s.ih := rfl
@[simp] theorem State.setMoves_sreg (s : State) (t : Word) : (s.setMoves t).sreg = s.sreg := rfl
@[simp] theorem State.setMoves_dreg (s : State) (t : Word) : (s.setMoves t).dreg = s.dreg := rfl
@[simp] theorem State.setMoves_colr (s : State) (t : Word) : (s.setMoves t).colr = s.colr := rfl
@[simp] theorem State.setMoves_por (s : State) (t : Word) : (s.setMoves t).por = s.por := rfl
@[simp] theorem State.setMoves_pbr (s : State) (t : Word) : (s.setMoves t).pbr = s.pbr := rfl
@[simp] theorem State.setMoves_rambr (s : State) (t : Word) : (s.setMoves t).rambr = s.rambr := rfl
@[simp] theorem State.setMoves_rombr (s : State) (t : Word) : (s.setMoves t).rombr = s.rombr := rfl
@[simp] theorem State.setMoves_cbr (s : State) (t : Word) : (s.setMoves t).cbr = s.cbr := rfl
@[simp] theorem State.setMoves_cacheFlags (s : State) (t : Word) : (s.setMoves t).cacheFlags = s.cacheFlags := rfl
@[simp] theorem State.setMoves_rombuf (s : State) (t : Word) : (s.setMoves t).rombuf = s.rombuf := rfl
@[simp] theorem State.setMoves_romPending (s : State) (t : Word) : (s.setMoves t).romPending = s.romPending := rfl
@[simp] theorem State.setMoves_romStatus (s : State) (t : Word) : (s.setMoves t).romStatus = s.romStatus := rfl
@[simp] theorem State.setMoves_lastram (s : State) (t : Word) : (s.setMoves t).lastram = s.lastram := rfl
@[simp] theorem State.setMoves_lastramSet (s : State) (t : Word) : (s.setMoves t).lastramSet = s.lastramSet := rfl
@[simp] theorem State.setMoves_inlineLo (s : State) (t : Word) : (s.setMoves t).inlineLo = s.inlineLo := rfl
@[simp] theorem State.setMoves_ramBuf (s : State) (t : Word) : (s.setMoves t).ramBuf = s.ramBuf := rfl
@[simp] theorem State.setMoves_plotBuf (s : State) (t : Word) : (s.setMoves t).plotBuf = s.plotBuf := rfl
@[simp] theorem State.setMoves_pix (s : State) (t : Word) : (s.setMoves t).pix = s.pix := rfl
@[simp] theorem State.setMoves_code (s : State) (t : Word) : (s.setMoves t).code = s.code := rfl
@[simp] theorem State.setMoves_rom (s : State) (t : Word) : (s.setMoves t).rom = s.rom := rfl
@[simp] theorem State.setMoves_ram (s : State) (t : Word) : (s.setMoves t).ram = s.ram := rfl
@[simp] theorem State.setMoves_stored (s : State) (t : Word) : (s.setMoves t).stored = s.stored := rfl
@[simp] theorem State.setMoves_params (s : State) (t : Word) : (s.setMoves t).params = s.params := rfl
@[simp] theorem State.setMoves_hostIrqs (s : State) (t : Word) : (s.setMoves t).hostIrqs = s.hostIrqs := rfl
@[simp] theorem State.setMoves_draws (s : State) (t : Word) : (s.setMoves t).draws = s.draws := rfl

/-! ## `drainRam` -/

@[simp] theorem State.drainRam_regs (s : State) : s.drainRam.regs = s.regs := rfl
@[simp] theorem State.drainRam_pipe (s : State) : s.drainRam.pipe = s.pipe := rfl
@[simp] theorem State.drainRam_zf (s : State) : s.drainRam.zf = s.zf := rfl
@[simp] theorem State.drainRam_cf (s : State) : s.drainRam.cf = s.cf := rfl
@[simp] theorem State.drainRam_sf (s : State) : s.drainRam.sf = s.sf := rfl
@[simp] theorem State.drainRam_vf (s : State) : s.drainRam.vf = s.vf := rfl
@[simp] theorem State.drainRam_go (s : State) : s.drainRam.go = s.go := rfl
@[simp] theorem State.drainRam_alt1 (s : State) : s.drainRam.alt1 = s.alt1 := rfl
@[simp] theorem State.drainRam_alt2 (s : State) : s.drainRam.alt2 = s.alt2 := rfl
@[simp] theorem State.drainRam_b (s : State) : s.drainRam.b = s.b := rfl
@[simp] theorem State.drainRam_il (s : State) : s.drainRam.il = s.il := rfl
@[simp] theorem State.drainRam_ih (s : State) : s.drainRam.ih = s.ih := rfl
@[simp] theorem State.drainRam_sreg (s : State) : s.drainRam.sreg = s.sreg := rfl
@[simp] theorem State.drainRam_dreg (s : State) : s.drainRam.dreg = s.dreg := rfl
@[simp] theorem State.drainRam_colr (s : State) : s.drainRam.colr = s.colr := rfl
@[simp] theorem State.drainRam_por (s : State) : s.drainRam.por = s.por := rfl
@[simp] theorem State.drainRam_pbr (s : State) : s.drainRam.pbr = s.pbr := rfl
@[simp] theorem State.drainRam_rambr (s : State) : s.drainRam.rambr = s.rambr := rfl
@[simp] theorem State.drainRam_rombr (s : State) : s.drainRam.rombr = s.rombr := rfl
@[simp] theorem State.drainRam_cbr (s : State) : s.drainRam.cbr = s.cbr := rfl
@[simp] theorem State.drainRam_cacheFlags (s : State) : s.drainRam.cacheFlags = s.cacheFlags := rfl
@[simp] theorem State.drainRam_rombuf (s : State) : s.drainRam.rombuf = s.rombuf := rfl
@[simp] theorem State.drainRam_romPending (s : State) : s.drainRam.romPending = s.romPending := rfl
@[simp] theorem State.drainRam_romStatus (s : State) : s.drainRam.romStatus = s.romStatus := rfl
@[simp] theorem State.drainRam_lastram (s : State) : s.drainRam.lastram = s.lastram := rfl
@[simp] theorem State.drainRam_lastramSet (s : State) : s.drainRam.lastramSet = s.lastramSet := rfl
@[simp] theorem State.drainRam_inlineLo (s : State) : s.drainRam.inlineLo = s.inlineLo := rfl
@[simp] theorem State.drainRam_ramBuf (s : State) : s.drainRam.ramBuf = [] := rfl
@[simp] theorem State.drainRam_plotBuf (s : State) : s.drainRam.plotBuf = s.plotBuf := rfl
@[simp] theorem State.drainRam_pix (s : State) : s.drainRam.pix = s.pix := rfl
@[simp] theorem State.drainRam_code (s : State) : s.drainRam.code = s.code := rfl
@[simp] theorem State.drainRam_rom (s : State) : s.drainRam.rom = s.rom := rfl
@[simp] theorem State.drainRam_ram (s : State) : s.drainRam.ram = drainInto s.ramBuf s.ram := rfl
@[simp] theorem State.drainRam_stored (s : State) : s.drainRam.stored = s.stored := rfl
@[simp] theorem State.drainRam_params (s : State) : s.drainRam.params = s.params := rfl
@[simp] theorem State.drainRam_hostIrqs (s : State) : s.drainRam.hostIrqs = s.hostIrqs := rfl
@[simp] theorem State.drainRam_draws (s : State) : s.drainRam.draws = s.draws := rfl

/-! ## `issueStore` -/

@[simp] theorem State.issueStore_regs (s : State) (cells : List Host.Cell) : (s.issueStore cells).regs = s.regs := rfl
@[simp] theorem State.issueStore_pipe (s : State) (cells : List Host.Cell) : (s.issueStore cells).pipe = s.pipe := rfl
@[simp] theorem State.issueStore_zf (s : State) (cells : List Host.Cell) : (s.issueStore cells).zf = s.zf := rfl
@[simp] theorem State.issueStore_cf (s : State) (cells : List Host.Cell) : (s.issueStore cells).cf = s.cf := rfl
@[simp] theorem State.issueStore_sf (s : State) (cells : List Host.Cell) : (s.issueStore cells).sf = s.sf := rfl
@[simp] theorem State.issueStore_vf (s : State) (cells : List Host.Cell) : (s.issueStore cells).vf = s.vf := rfl
@[simp] theorem State.issueStore_go (s : State) (cells : List Host.Cell) : (s.issueStore cells).go = s.go := rfl
@[simp] theorem State.issueStore_alt1 (s : State) (cells : List Host.Cell) : (s.issueStore cells).alt1 = s.alt1 := rfl
@[simp] theorem State.issueStore_alt2 (s : State) (cells : List Host.Cell) : (s.issueStore cells).alt2 = s.alt2 := rfl
@[simp] theorem State.issueStore_b (s : State) (cells : List Host.Cell) : (s.issueStore cells).b = s.b := rfl
@[simp] theorem State.issueStore_il (s : State) (cells : List Host.Cell) : (s.issueStore cells).il = s.il := rfl
@[simp] theorem State.issueStore_ih (s : State) (cells : List Host.Cell) : (s.issueStore cells).ih = s.ih := rfl
@[simp] theorem State.issueStore_sreg (s : State) (cells : List Host.Cell) : (s.issueStore cells).sreg = s.sreg := rfl
@[simp] theorem State.issueStore_dreg (s : State) (cells : List Host.Cell) : (s.issueStore cells).dreg = s.dreg := rfl
@[simp] theorem State.issueStore_colr (s : State) (cells : List Host.Cell) : (s.issueStore cells).colr = s.colr := rfl
@[simp] theorem State.issueStore_por (s : State) (cells : List Host.Cell) : (s.issueStore cells).por = s.por := rfl
@[simp] theorem State.issueStore_pbr (s : State) (cells : List Host.Cell) : (s.issueStore cells).pbr = s.pbr := rfl
@[simp] theorem State.issueStore_rambr (s : State) (cells : List Host.Cell) : (s.issueStore cells).rambr = s.rambr := rfl
@[simp] theorem State.issueStore_rombr (s : State) (cells : List Host.Cell) : (s.issueStore cells).rombr = s.rombr := rfl
@[simp] theorem State.issueStore_cbr (s : State) (cells : List Host.Cell) : (s.issueStore cells).cbr = s.cbr := rfl
@[simp] theorem State.issueStore_cacheFlags (s : State) (cells : List Host.Cell) : (s.issueStore cells).cacheFlags = s.cacheFlags := rfl
@[simp] theorem State.issueStore_rombuf (s : State) (cells : List Host.Cell) : (s.issueStore cells).rombuf = s.rombuf := rfl
@[simp] theorem State.issueStore_romPending (s : State) (cells : List Host.Cell) : (s.issueStore cells).romPending = s.romPending := rfl
@[simp] theorem State.issueStore_romStatus (s : State) (cells : List Host.Cell) : (s.issueStore cells).romStatus = s.romStatus := rfl
@[simp] theorem State.issueStore_lastram (s : State) (cells : List Host.Cell) : (s.issueStore cells).lastram = s.lastram := rfl
@[simp] theorem State.issueStore_lastramSet (s : State) (cells : List Host.Cell) : (s.issueStore cells).lastramSet = s.lastramSet := rfl
@[simp] theorem State.issueStore_inlineLo (s : State) (cells : List Host.Cell) : (s.issueStore cells).inlineLo = s.inlineLo := rfl
@[simp] theorem State.issueStore_ramBuf (s : State) (cells : List Host.Cell) : (s.issueStore cells).ramBuf = cells := rfl
@[simp] theorem State.issueStore_plotBuf (s : State) (cells : List Host.Cell) : (s.issueStore cells).plotBuf = s.plotBuf := rfl
@[simp] theorem State.issueStore_pix (s : State) (cells : List Host.Cell) : (s.issueStore cells).pix = s.pix := rfl
@[simp] theorem State.issueStore_code (s : State) (cells : List Host.Cell) : (s.issueStore cells).code = s.code := rfl
@[simp] theorem State.issueStore_rom (s : State) (cells : List Host.Cell) : (s.issueStore cells).rom = s.rom := rfl
@[simp] theorem State.issueStore_ram (s : State) (cells : List Host.Cell) : (s.issueStore cells).ram = drainInto s.ramBuf s.ram := rfl
@[simp] theorem State.issueStore_stored (s : State) (cells : List Host.Cell) : (s.issueStore cells).stored = insertAddrs cells s.stored := rfl
@[simp] theorem State.issueStore_params (s : State) (cells : List Host.Cell) : (s.issueStore cells).params = s.params := rfl
@[simp] theorem State.issueStore_hostIrqs (s : State) (cells : List Host.Cell) : (s.issueStore cells).hostIrqs = s.hostIrqs := rfl
@[simp] theorem State.issueStore_draws (s : State) (cells : List Host.Cell) : (s.issueStore cells).draws = s.draws := rfl

/-! ## `noteRam` -/

@[simp] theorem State.noteRam_regs (s : State) (a : Word) : (s.noteRam a).regs = s.regs := rfl
@[simp] theorem State.noteRam_pipe (s : State) (a : Word) : (s.noteRam a).pipe = s.pipe := rfl
@[simp] theorem State.noteRam_zf (s : State) (a : Word) : (s.noteRam a).zf = s.zf := rfl
@[simp] theorem State.noteRam_cf (s : State) (a : Word) : (s.noteRam a).cf = s.cf := rfl
@[simp] theorem State.noteRam_sf (s : State) (a : Word) : (s.noteRam a).sf = s.sf := rfl
@[simp] theorem State.noteRam_vf (s : State) (a : Word) : (s.noteRam a).vf = s.vf := rfl
@[simp] theorem State.noteRam_go (s : State) (a : Word) : (s.noteRam a).go = s.go := rfl
@[simp] theorem State.noteRam_alt1 (s : State) (a : Word) : (s.noteRam a).alt1 = s.alt1 := rfl
@[simp] theorem State.noteRam_alt2 (s : State) (a : Word) : (s.noteRam a).alt2 = s.alt2 := rfl
@[simp] theorem State.noteRam_b (s : State) (a : Word) : (s.noteRam a).b = s.b := rfl
@[simp] theorem State.noteRam_il (s : State) (a : Word) : (s.noteRam a).il = s.il := rfl
@[simp] theorem State.noteRam_ih (s : State) (a : Word) : (s.noteRam a).ih = s.ih := rfl
@[simp] theorem State.noteRam_sreg (s : State) (a : Word) : (s.noteRam a).sreg = s.sreg := rfl
@[simp] theorem State.noteRam_dreg (s : State) (a : Word) : (s.noteRam a).dreg = s.dreg := rfl
@[simp] theorem State.noteRam_colr (s : State) (a : Word) : (s.noteRam a).colr = s.colr := rfl
@[simp] theorem State.noteRam_por (s : State) (a : Word) : (s.noteRam a).por = s.por := rfl
@[simp] theorem State.noteRam_pbr (s : State) (a : Word) : (s.noteRam a).pbr = s.pbr := rfl
@[simp] theorem State.noteRam_rambr (s : State) (a : Word) : (s.noteRam a).rambr = s.rambr := rfl
@[simp] theorem State.noteRam_rombr (s : State) (a : Word) : (s.noteRam a).rombr = s.rombr := rfl
@[simp] theorem State.noteRam_cbr (s : State) (a : Word) : (s.noteRam a).cbr = s.cbr := rfl
@[simp] theorem State.noteRam_cacheFlags (s : State) (a : Word) : (s.noteRam a).cacheFlags = s.cacheFlags := rfl
@[simp] theorem State.noteRam_rombuf (s : State) (a : Word) : (s.noteRam a).rombuf = s.rombuf := rfl
@[simp] theorem State.noteRam_romPending (s : State) (a : Word) : (s.noteRam a).romPending = s.romPending := rfl
@[simp] theorem State.noteRam_romStatus (s : State) (a : Word) : (s.noteRam a).romStatus = s.romStatus := rfl
@[simp] theorem State.noteRam_lastram (s : State) (a : Word) : (s.noteRam a).lastram = a := rfl
@[simp] theorem State.noteRam_lastramSet (s : State) (a : Word) : (s.noteRam a).lastramSet = true := rfl
@[simp] theorem State.noteRam_inlineLo (s : State) (a : Word) : (s.noteRam a).inlineLo = s.inlineLo := rfl
@[simp] theorem State.noteRam_ramBuf (s : State) (a : Word) : (s.noteRam a).ramBuf = s.ramBuf := rfl
@[simp] theorem State.noteRam_plotBuf (s : State) (a : Word) : (s.noteRam a).plotBuf = s.plotBuf := rfl
@[simp] theorem State.noteRam_pix (s : State) (a : Word) : (s.noteRam a).pix = s.pix := rfl
@[simp] theorem State.noteRam_code (s : State) (a : Word) : (s.noteRam a).code = s.code := rfl
@[simp] theorem State.noteRam_rom (s : State) (a : Word) : (s.noteRam a).rom = s.rom := rfl
@[simp] theorem State.noteRam_ram (s : State) (a : Word) : (s.noteRam a).ram = s.ram := rfl
@[simp] theorem State.noteRam_stored (s : State) (a : Word) : (s.noteRam a).stored = s.stored := rfl
@[simp] theorem State.noteRam_params (s : State) (a : Word) : (s.noteRam a).params = s.params := rfl
@[simp] theorem State.noteRam_hostIrqs (s : State) (a : Word) : (s.noteRam a).hostIrqs = s.hostIrqs := rfl
@[simp] theorem State.noteRam_draws (s : State) (a : Word) : (s.noteRam a).draws = s.draws := rfl

/-! ## `drainPlot` -/

@[simp] theorem State.drainPlot_regs (s : State) : s.drainPlot.regs = s.regs := rfl
@[simp] theorem State.drainPlot_pipe (s : State) : s.drainPlot.pipe = s.pipe := rfl
@[simp] theorem State.drainPlot_zf (s : State) : s.drainPlot.zf = s.zf := rfl
@[simp] theorem State.drainPlot_cf (s : State) : s.drainPlot.cf = s.cf := rfl
@[simp] theorem State.drainPlot_sf (s : State) : s.drainPlot.sf = s.sf := rfl
@[simp] theorem State.drainPlot_vf (s : State) : s.drainPlot.vf = s.vf := rfl
@[simp] theorem State.drainPlot_go (s : State) : s.drainPlot.go = s.go := rfl
@[simp] theorem State.drainPlot_alt1 (s : State) : s.drainPlot.alt1 = s.alt1 := rfl
@[simp] theorem State.drainPlot_alt2 (s : State) : s.drainPlot.alt2 = s.alt2 := rfl
@[simp] theorem State.drainPlot_b (s : State) : s.drainPlot.b = s.b := rfl
@[simp] theorem State.drainPlot_il (s : State) : s.drainPlot.il = s.il := rfl
@[simp] theorem State.drainPlot_ih (s : State) : s.drainPlot.ih = s.ih := rfl
@[simp] theorem State.drainPlot_sreg (s : State) : s.drainPlot.sreg = s.sreg := rfl
@[simp] theorem State.drainPlot_dreg (s : State) : s.drainPlot.dreg = s.dreg := rfl
@[simp] theorem State.drainPlot_colr (s : State) : s.drainPlot.colr = s.colr := rfl
@[simp] theorem State.drainPlot_por (s : State) : s.drainPlot.por = s.por := rfl
@[simp] theorem State.drainPlot_pbr (s : State) : s.drainPlot.pbr = s.pbr := rfl
@[simp] theorem State.drainPlot_rambr (s : State) : s.drainPlot.rambr = s.rambr := rfl
@[simp] theorem State.drainPlot_rombr (s : State) : s.drainPlot.rombr = s.rombr := rfl
@[simp] theorem State.drainPlot_cbr (s : State) : s.drainPlot.cbr = s.cbr := rfl
@[simp] theorem State.drainPlot_cacheFlags (s : State) : s.drainPlot.cacheFlags = s.cacheFlags := rfl
@[simp] theorem State.drainPlot_rombuf (s : State) : s.drainPlot.rombuf = s.rombuf := rfl
@[simp] theorem State.drainPlot_romPending (s : State) : s.drainPlot.romPending = s.romPending := rfl
@[simp] theorem State.drainPlot_romStatus (s : State) : s.drainPlot.romStatus = s.romStatus := rfl
@[simp] theorem State.drainPlot_lastram (s : State) : s.drainPlot.lastram = s.lastram := rfl
@[simp] theorem State.drainPlot_lastramSet (s : State) : s.drainPlot.lastramSet = s.lastramSet := rfl
@[simp] theorem State.drainPlot_inlineLo (s : State) : s.drainPlot.inlineLo = s.inlineLo := rfl
@[simp] theorem State.drainPlot_ramBuf (s : State) : s.drainPlot.ramBuf = s.ramBuf := rfl
@[simp] theorem State.drainPlot_plotBuf (s : State) : s.drainPlot.plotBuf = [] := rfl
@[simp] theorem State.drainPlot_pix (s : State) : s.drainPlot.pix = drainInto s.plotBuf s.pix := rfl
@[simp] theorem State.drainPlot_code (s : State) : s.drainPlot.code = s.code := rfl
@[simp] theorem State.drainPlot_rom (s : State) : s.drainPlot.rom = s.rom := rfl
@[simp] theorem State.drainPlot_ram (s : State) : s.drainPlot.ram = s.ram := rfl
@[simp] theorem State.drainPlot_stored (s : State) : s.drainPlot.stored = s.stored := rfl
@[simp] theorem State.drainPlot_params (s : State) : s.drainPlot.params = s.params := rfl
@[simp] theorem State.drainPlot_hostIrqs (s : State) : s.drainPlot.hostIrqs = s.hostIrqs := rfl
@[simp] theorem State.drainPlot_draws (s : State) : s.drainPlot.draws = s.draws := rfl

/-! ## `pixelWrite` -/

@[simp] theorem State.pixelWrite_regs (s : State) (x y c : Byte) : (s.pixelWrite x y c).regs = s.regs := rfl
@[simp] theorem State.pixelWrite_pipe (s : State) (x y c : Byte) : (s.pixelWrite x y c).pipe = s.pipe := rfl
@[simp] theorem State.pixelWrite_zf (s : State) (x y c : Byte) : (s.pixelWrite x y c).zf = s.zf := rfl
@[simp] theorem State.pixelWrite_cf (s : State) (x y c : Byte) : (s.pixelWrite x y c).cf = s.cf := rfl
@[simp] theorem State.pixelWrite_sf (s : State) (x y c : Byte) : (s.pixelWrite x y c).sf = s.sf := rfl
@[simp] theorem State.pixelWrite_vf (s : State) (x y c : Byte) : (s.pixelWrite x y c).vf = s.vf := rfl
@[simp] theorem State.pixelWrite_go (s : State) (x y c : Byte) : (s.pixelWrite x y c).go = s.go := rfl
@[simp] theorem State.pixelWrite_alt1 (s : State) (x y c : Byte) : (s.pixelWrite x y c).alt1 = s.alt1 := rfl
@[simp] theorem State.pixelWrite_alt2 (s : State) (x y c : Byte) : (s.pixelWrite x y c).alt2 = s.alt2 := rfl
@[simp] theorem State.pixelWrite_b (s : State) (x y c : Byte) : (s.pixelWrite x y c).b = s.b := rfl
@[simp] theorem State.pixelWrite_il (s : State) (x y c : Byte) : (s.pixelWrite x y c).il = s.il := rfl
@[simp] theorem State.pixelWrite_ih (s : State) (x y c : Byte) : (s.pixelWrite x y c).ih = s.ih := rfl
@[simp] theorem State.pixelWrite_sreg (s : State) (x y c : Byte) : (s.pixelWrite x y c).sreg = s.sreg := rfl
@[simp] theorem State.pixelWrite_dreg (s : State) (x y c : Byte) : (s.pixelWrite x y c).dreg = s.dreg := rfl
@[simp] theorem State.pixelWrite_colr (s : State) (x y c : Byte) : (s.pixelWrite x y c).colr = s.colr := rfl
@[simp] theorem State.pixelWrite_por (s : State) (x y c : Byte) : (s.pixelWrite x y c).por = s.por := rfl
@[simp] theorem State.pixelWrite_pbr (s : State) (x y c : Byte) : (s.pixelWrite x y c).pbr = s.pbr := rfl
@[simp] theorem State.pixelWrite_rambr (s : State) (x y c : Byte) : (s.pixelWrite x y c).rambr = s.rambr := rfl
@[simp] theorem State.pixelWrite_rombr (s : State) (x y c : Byte) : (s.pixelWrite x y c).rombr = s.rombr := rfl
@[simp] theorem State.pixelWrite_cbr (s : State) (x y c : Byte) : (s.pixelWrite x y c).cbr = s.cbr := rfl
@[simp] theorem State.pixelWrite_cacheFlags (s : State) (x y c : Byte) : (s.pixelWrite x y c).cacheFlags = s.cacheFlags := rfl
@[simp] theorem State.pixelWrite_rombuf (s : State) (x y c : Byte) : (s.pixelWrite x y c).rombuf = s.rombuf := rfl
@[simp] theorem State.pixelWrite_romPending (s : State) (x y c : Byte) : (s.pixelWrite x y c).romPending = s.romPending := rfl
@[simp] theorem State.pixelWrite_romStatus (s : State) (x y c : Byte) : (s.pixelWrite x y c).romStatus = s.romStatus := rfl
@[simp] theorem State.pixelWrite_lastram (s : State) (x y c : Byte) : (s.pixelWrite x y c).lastram = s.lastram := rfl
@[simp] theorem State.pixelWrite_lastramSet (s : State) (x y c : Byte) : (s.pixelWrite x y c).lastramSet = s.lastramSet := rfl
@[simp] theorem State.pixelWrite_inlineLo (s : State) (x y c : Byte) : (s.pixelWrite x y c).inlineLo = s.inlineLo := rfl
@[simp] theorem State.pixelWrite_ramBuf (s : State) (x y c : Byte) : (s.pixelWrite x y c).ramBuf = s.ramBuf := rfl
@[simp] theorem State.pixelWrite_plotBuf (s : State) (x y c : Byte) : (s.pixelWrite x y c).plotBuf = s.plotBuf ++ [(pixelAddr x y, c)] := rfl
@[simp] theorem State.pixelWrite_pix (s : State) (x y c : Byte) : (s.pixelWrite x y c).pix = s.pix := rfl
@[simp] theorem State.pixelWrite_code (s : State) (x y c : Byte) : (s.pixelWrite x y c).code = s.code := rfl
@[simp] theorem State.pixelWrite_rom (s : State) (x y c : Byte) : (s.pixelWrite x y c).rom = s.rom := rfl
@[simp] theorem State.pixelWrite_ram (s : State) (x y c : Byte) : (s.pixelWrite x y c).ram = s.ram := rfl
@[simp] theorem State.pixelWrite_stored (s : State) (x y c : Byte) : (s.pixelWrite x y c).stored = s.stored := rfl
@[simp] theorem State.pixelWrite_params (s : State) (x y c : Byte) : (s.pixelWrite x y c).params = s.params := rfl
@[simp] theorem State.pixelWrite_hostIrqs (s : State) (x y c : Byte) : (s.pixelWrite x y c).hostIrqs = s.hostIrqs := rfl
@[simp] theorem State.pixelWrite_draws (s : State) (x y c : Byte) : (s.pixelWrite x y c).draws = s.draws := rfl

/-! ## `drew` -/

@[simp] theorem State.drew_regs (s : State) (k : Nat) : (s.drew k).regs = s.regs := rfl
@[simp] theorem State.drew_pipe (s : State) (k : Nat) : (s.drew k).pipe = s.pipe := rfl
@[simp] theorem State.drew_zf (s : State) (k : Nat) : (s.drew k).zf = s.zf := rfl
@[simp] theorem State.drew_cf (s : State) (k : Nat) : (s.drew k).cf = s.cf := rfl
@[simp] theorem State.drew_sf (s : State) (k : Nat) : (s.drew k).sf = s.sf := rfl
@[simp] theorem State.drew_vf (s : State) (k : Nat) : (s.drew k).vf = s.vf := rfl
@[simp] theorem State.drew_go (s : State) (k : Nat) : (s.drew k).go = s.go := rfl
@[simp] theorem State.drew_alt1 (s : State) (k : Nat) : (s.drew k).alt1 = s.alt1 := rfl
@[simp] theorem State.drew_alt2 (s : State) (k : Nat) : (s.drew k).alt2 = s.alt2 := rfl
@[simp] theorem State.drew_b (s : State) (k : Nat) : (s.drew k).b = s.b := rfl
@[simp] theorem State.drew_il (s : State) (k : Nat) : (s.drew k).il = s.il := rfl
@[simp] theorem State.drew_ih (s : State) (k : Nat) : (s.drew k).ih = s.ih := rfl
@[simp] theorem State.drew_sreg (s : State) (k : Nat) : (s.drew k).sreg = s.sreg := rfl
@[simp] theorem State.drew_dreg (s : State) (k : Nat) : (s.drew k).dreg = s.dreg := rfl
@[simp] theorem State.drew_colr (s : State) (k : Nat) : (s.drew k).colr = s.colr := rfl
@[simp] theorem State.drew_por (s : State) (k : Nat) : (s.drew k).por = s.por := rfl
@[simp] theorem State.drew_pbr (s : State) (k : Nat) : (s.drew k).pbr = s.pbr := rfl
@[simp] theorem State.drew_rambr (s : State) (k : Nat) : (s.drew k).rambr = s.rambr := rfl
@[simp] theorem State.drew_rombr (s : State) (k : Nat) : (s.drew k).rombr = s.rombr := rfl
@[simp] theorem State.drew_cbr (s : State) (k : Nat) : (s.drew k).cbr = s.cbr := rfl
@[simp] theorem State.drew_cacheFlags (s : State) (k : Nat) : (s.drew k).cacheFlags = s.cacheFlags := rfl
@[simp] theorem State.drew_rombuf (s : State) (k : Nat) : (s.drew k).rombuf = s.rombuf := rfl
@[simp] theorem State.drew_romPending (s : State) (k : Nat) : (s.drew k).romPending = s.romPending := rfl
@[simp] theorem State.drew_romStatus (s : State) (k : Nat) : (s.drew k).romStatus = s.romStatus := rfl
@[simp] theorem State.drew_lastram (s : State) (k : Nat) : (s.drew k).lastram = s.lastram := rfl
@[simp] theorem State.drew_lastramSet (s : State) (k : Nat) : (s.drew k).lastramSet = s.lastramSet := rfl
@[simp] theorem State.drew_inlineLo (s : State) (k : Nat) : (s.drew k).inlineLo = s.inlineLo := rfl
@[simp] theorem State.drew_ramBuf (s : State) (k : Nat) : (s.drew k).ramBuf = s.ramBuf := rfl
@[simp] theorem State.drew_plotBuf (s : State) (k : Nat) : (s.drew k).plotBuf = s.plotBuf := rfl
@[simp] theorem State.drew_pix (s : State) (k : Nat) : (s.drew k).pix = s.pix := rfl
@[simp] theorem State.drew_code (s : State) (k : Nat) : (s.drew k).code = s.code := rfl
@[simp] theorem State.drew_rom (s : State) (k : Nat) : (s.drew k).rom = s.rom := rfl
@[simp] theorem State.drew_ram (s : State) (k : Nat) : (s.drew k).ram = s.ram := rfl
@[simp] theorem State.drew_stored (s : State) (k : Nat) : (s.drew k).stored = s.stored := rfl
@[simp] theorem State.drew_params (s : State) (k : Nat) : (s.drew k).params = s.params := rfl
@[simp] theorem State.drew_hostIrqs (s : State) (k : Nat) : (s.drew k).hostIrqs = s.hostIrqs := rfl
@[simp] theorem State.drew_draws (s : State) (k : Nat) : (s.drew k).draws = s.draws + k := rfl

/-! ## `romLoad` -/

@[simp] theorem State.romLoad_regs (s : State) : s.romLoad.regs = s.regs := by
  unfold State.romLoad; split <;> rfl
@[simp] theorem State.romLoad_pipe (s : State) : s.romLoad.pipe = s.pipe := by
  unfold State.romLoad; split <;> rfl
@[simp] theorem State.romLoad_zf (s : State) : s.romLoad.zf = s.zf := by
  unfold State.romLoad; split <;> rfl
@[simp] theorem State.romLoad_cf (s : State) : s.romLoad.cf = s.cf := by
  unfold State.romLoad; split <;> rfl
@[simp] theorem State.romLoad_sf (s : State) : s.romLoad.sf = s.sf := by
  unfold State.romLoad; split <;> rfl
@[simp] theorem State.romLoad_vf (s : State) : s.romLoad.vf = s.vf := by
  unfold State.romLoad; split <;> rfl
@[simp] theorem State.romLoad_go (s : State) : s.romLoad.go = s.go := by
  unfold State.romLoad; split <;> rfl
@[simp] theorem State.romLoad_alt1 (s : State) : s.romLoad.alt1 = s.alt1 := by
  unfold State.romLoad; split <;> rfl
@[simp] theorem State.romLoad_alt2 (s : State) : s.romLoad.alt2 = s.alt2 := by
  unfold State.romLoad; split <;> rfl
@[simp] theorem State.romLoad_b (s : State) : s.romLoad.b = s.b := by
  unfold State.romLoad; split <;> rfl
@[simp] theorem State.romLoad_il (s : State) : s.romLoad.il = s.il := by
  unfold State.romLoad; split <;> rfl
@[simp] theorem State.romLoad_ih (s : State) : s.romLoad.ih = s.ih := by
  unfold State.romLoad; split <;> rfl
@[simp] theorem State.romLoad_sreg (s : State) : s.romLoad.sreg = s.sreg := by
  unfold State.romLoad; split <;> rfl
@[simp] theorem State.romLoad_dreg (s : State) : s.romLoad.dreg = s.dreg := by
  unfold State.romLoad; split <;> rfl
@[simp] theorem State.romLoad_colr (s : State) : s.romLoad.colr = s.colr := by
  unfold State.romLoad; split <;> rfl
@[simp] theorem State.romLoad_por (s : State) : s.romLoad.por = s.por := by
  unfold State.romLoad; split <;> rfl
@[simp] theorem State.romLoad_pbr (s : State) : s.romLoad.pbr = s.pbr := by
  unfold State.romLoad; split <;> rfl
@[simp] theorem State.romLoad_rambr (s : State) : s.romLoad.rambr = s.rambr := by
  unfold State.romLoad; split <;> rfl
@[simp] theorem State.romLoad_rombr (s : State) : s.romLoad.rombr = s.rombr := by
  unfold State.romLoad; split <;> rfl
@[simp] theorem State.romLoad_cbr (s : State) : s.romLoad.cbr = s.cbr := by
  unfold State.romLoad; split <;> rfl
@[simp] theorem State.romLoad_cacheFlags (s : State) : s.romLoad.cacheFlags = s.cacheFlags := by
  unfold State.romLoad; split <;> rfl
@[simp] theorem State.romLoad_lastram (s : State) : s.romLoad.lastram = s.lastram := by
  unfold State.romLoad; split <;> rfl
@[simp] theorem State.romLoad_lastramSet (s : State) : s.romLoad.lastramSet = s.lastramSet := by
  unfold State.romLoad; split <;> rfl
@[simp] theorem State.romLoad_inlineLo (s : State) : s.romLoad.inlineLo = s.inlineLo := by
  unfold State.romLoad; split <;> rfl
@[simp] theorem State.romLoad_ramBuf (s : State) : s.romLoad.ramBuf = s.ramBuf := by
  unfold State.romLoad; split <;> rfl
@[simp] theorem State.romLoad_plotBuf (s : State) : s.romLoad.plotBuf = s.plotBuf := by
  unfold State.romLoad; split <;> rfl
@[simp] theorem State.romLoad_pix (s : State) : s.romLoad.pix = s.pix := by
  unfold State.romLoad; split <;> rfl
@[simp] theorem State.romLoad_code (s : State) : s.romLoad.code = s.code := by
  unfold State.romLoad; split <;> rfl
@[simp] theorem State.romLoad_rom (s : State) : s.romLoad.rom = s.rom := by
  unfold State.romLoad; split <;> rfl
@[simp] theorem State.romLoad_ram (s : State) : s.romLoad.ram = s.ram := by
  unfold State.romLoad; split <;> rfl
@[simp] theorem State.romLoad_stored (s : State) : s.romLoad.stored = s.stored := by
  unfold State.romLoad; split <;> rfl
@[simp] theorem State.romLoad_params (s : State) : s.romLoad.params = s.params := by
  unfold State.romLoad; split <;> rfl
@[simp] theorem State.romLoad_hostIrqs (s : State) : s.romLoad.hostIrqs = s.hostIrqs := by
  unfold State.romLoad; split <;> rfl
@[simp] theorem State.romLoad_draws (s : State) : s.romLoad.draws = s.draws := by
  unfold State.romLoad; split <;> rfl

/-! ## `writeReg` -/

@[simp] theorem State.writeReg_pipe (s : State) (n : Reg) (v : Word) : (s.writeReg n v).pipe = s.pipe := by
  unfold State.writeReg; split <;> simp
@[simp] theorem State.writeReg_zf (s : State) (n : Reg) (v : Word) : (s.writeReg n v).zf = s.zf := by
  unfold State.writeReg; split <;> simp
@[simp] theorem State.writeReg_cf (s : State) (n : Reg) (v : Word) : (s.writeReg n v).cf = s.cf := by
  unfold State.writeReg; split <;> simp
@[simp] theorem State.writeReg_sf (s : State) (n : Reg) (v : Word) : (s.writeReg n v).sf = s.sf := by
  unfold State.writeReg; split <;> simp
@[simp] theorem State.writeReg_vf (s : State) (n : Reg) (v : Word) : (s.writeReg n v).vf = s.vf := by
  unfold State.writeReg; split <;> simp
@[simp] theorem State.writeReg_go (s : State) (n : Reg) (v : Word) : (s.writeReg n v).go = s.go := by
  unfold State.writeReg; split <;> simp
@[simp] theorem State.writeReg_alt1 (s : State) (n : Reg) (v : Word) : (s.writeReg n v).alt1 = s.alt1 := by
  unfold State.writeReg; split <;> simp
@[simp] theorem State.writeReg_alt2 (s : State) (n : Reg) (v : Word) : (s.writeReg n v).alt2 = s.alt2 := by
  unfold State.writeReg; split <;> simp
@[simp] theorem State.writeReg_b (s : State) (n : Reg) (v : Word) : (s.writeReg n v).b = s.b := by
  unfold State.writeReg; split <;> simp
@[simp] theorem State.writeReg_il (s : State) (n : Reg) (v : Word) : (s.writeReg n v).il = s.il := by
  unfold State.writeReg; split <;> simp
@[simp] theorem State.writeReg_ih (s : State) (n : Reg) (v : Word) : (s.writeReg n v).ih = s.ih := by
  unfold State.writeReg; split <;> simp
@[simp] theorem State.writeReg_sreg (s : State) (n : Reg) (v : Word) : (s.writeReg n v).sreg = s.sreg := by
  unfold State.writeReg; split <;> simp
@[simp] theorem State.writeReg_dreg (s : State) (n : Reg) (v : Word) : (s.writeReg n v).dreg = s.dreg := by
  unfold State.writeReg; split <;> simp
@[simp] theorem State.writeReg_colr (s : State) (n : Reg) (v : Word) : (s.writeReg n v).colr = s.colr := by
  unfold State.writeReg; split <;> simp
@[simp] theorem State.writeReg_por (s : State) (n : Reg) (v : Word) : (s.writeReg n v).por = s.por := by
  unfold State.writeReg; split <;> simp
@[simp] theorem State.writeReg_pbr (s : State) (n : Reg) (v : Word) : (s.writeReg n v).pbr = s.pbr := by
  unfold State.writeReg; split <;> simp
@[simp] theorem State.writeReg_rambr (s : State) (n : Reg) (v : Word) : (s.writeReg n v).rambr = s.rambr := by
  unfold State.writeReg; split <;> simp
@[simp] theorem State.writeReg_rombr (s : State) (n : Reg) (v : Word) : (s.writeReg n v).rombr = s.rombr := by
  unfold State.writeReg; split <;> simp
@[simp] theorem State.writeReg_cbr (s : State) (n : Reg) (v : Word) : (s.writeReg n v).cbr = s.cbr := by
  unfold State.writeReg; split <;> simp
@[simp] theorem State.writeReg_cacheFlags (s : State) (n : Reg) (v : Word) : (s.writeReg n v).cacheFlags = s.cacheFlags := by
  unfold State.writeReg; split <;> simp
@[simp] theorem State.writeReg_lastram (s : State) (n : Reg) (v : Word) : (s.writeReg n v).lastram = s.lastram := by
  unfold State.writeReg; split <;> simp
@[simp] theorem State.writeReg_lastramSet (s : State) (n : Reg) (v : Word) : (s.writeReg n v).lastramSet = s.lastramSet := by
  unfold State.writeReg; split <;> simp
@[simp] theorem State.writeReg_inlineLo (s : State) (n : Reg) (v : Word) : (s.writeReg n v).inlineLo = s.inlineLo := by
  unfold State.writeReg; split <;> simp
@[simp] theorem State.writeReg_ramBuf (s : State) (n : Reg) (v : Word) : (s.writeReg n v).ramBuf = s.ramBuf := by
  unfold State.writeReg; split <;> simp
@[simp] theorem State.writeReg_plotBuf (s : State) (n : Reg) (v : Word) : (s.writeReg n v).plotBuf = s.plotBuf := by
  unfold State.writeReg; split <;> simp
@[simp] theorem State.writeReg_pix (s : State) (n : Reg) (v : Word) : (s.writeReg n v).pix = s.pix := by
  unfold State.writeReg; split <;> simp
@[simp] theorem State.writeReg_code (s : State) (n : Reg) (v : Word) : (s.writeReg n v).code = s.code := by
  unfold State.writeReg; split <;> simp
@[simp] theorem State.writeReg_rom (s : State) (n : Reg) (v : Word) : (s.writeReg n v).rom = s.rom := by
  unfold State.writeReg; split <;> simp
@[simp] theorem State.writeReg_ram (s : State) (n : Reg) (v : Word) : (s.writeReg n v).ram = s.ram := by
  unfold State.writeReg; split <;> simp
@[simp] theorem State.writeReg_stored (s : State) (n : Reg) (v : Word) : (s.writeReg n v).stored = s.stored := by
  unfold State.writeReg; split <;> simp
@[simp] theorem State.writeReg_params (s : State) (n : Reg) (v : Word) : (s.writeReg n v).params = s.params := by
  unfold State.writeReg; split <;> simp
@[simp] theorem State.writeReg_hostIrqs (s : State) (n : Reg) (v : Word) : (s.writeReg n v).hostIrqs = s.hostIrqs := by
  unfold State.writeReg; split <;> simp
@[simp] theorem State.writeReg_draws (s : State) (n : Reg) (v : Word) : (s.writeReg n v).draws = s.draws := by
  unfold State.writeReg; split <;> simp

/-! ## `setColour` -/

@[simp] theorem State.setColour_regs (s : State) (k : Byte) : (s.setColour k).regs = s.regs := by
  unfold State.setColour; split <;> rfl
@[simp] theorem State.setColour_pipe (s : State) (k : Byte) : (s.setColour k).pipe = s.pipe := by
  unfold State.setColour; split <;> rfl
@[simp] theorem State.setColour_zf (s : State) (k : Byte) : (s.setColour k).zf = s.zf := by
  unfold State.setColour; split <;> rfl
@[simp] theorem State.setColour_cf (s : State) (k : Byte) : (s.setColour k).cf = s.cf := by
  unfold State.setColour; split <;> rfl
@[simp] theorem State.setColour_sf (s : State) (k : Byte) : (s.setColour k).sf = s.sf := by
  unfold State.setColour; split <;> rfl
@[simp] theorem State.setColour_vf (s : State) (k : Byte) : (s.setColour k).vf = s.vf := by
  unfold State.setColour; split <;> rfl
@[simp] theorem State.setColour_go (s : State) (k : Byte) : (s.setColour k).go = s.go := by
  unfold State.setColour; split <;> rfl
@[simp] theorem State.setColour_alt1 (s : State) (k : Byte) : (s.setColour k).alt1 = s.alt1 := by
  unfold State.setColour; split <;> rfl
@[simp] theorem State.setColour_alt2 (s : State) (k : Byte) : (s.setColour k).alt2 = s.alt2 := by
  unfold State.setColour; split <;> rfl
@[simp] theorem State.setColour_b (s : State) (k : Byte) : (s.setColour k).b = s.b := by
  unfold State.setColour; split <;> rfl
@[simp] theorem State.setColour_il (s : State) (k : Byte) : (s.setColour k).il = s.il := by
  unfold State.setColour; split <;> rfl
@[simp] theorem State.setColour_ih (s : State) (k : Byte) : (s.setColour k).ih = s.ih := by
  unfold State.setColour; split <;> rfl
@[simp] theorem State.setColour_sreg (s : State) (k : Byte) : (s.setColour k).sreg = s.sreg := by
  unfold State.setColour; split <;> rfl
@[simp] theorem State.setColour_dreg (s : State) (k : Byte) : (s.setColour k).dreg = s.dreg := by
  unfold State.setColour; split <;> rfl
@[simp] theorem State.setColour_por (s : State) (k : Byte) : (s.setColour k).por = s.por := by
  unfold State.setColour; split <;> rfl
@[simp] theorem State.setColour_pbr (s : State) (k : Byte) : (s.setColour k).pbr = s.pbr := by
  unfold State.setColour; split <;> rfl
@[simp] theorem State.setColour_rambr (s : State) (k : Byte) : (s.setColour k).rambr = s.rambr := by
  unfold State.setColour; split <;> rfl
@[simp] theorem State.setColour_rombr (s : State) (k : Byte) : (s.setColour k).rombr = s.rombr := by
  unfold State.setColour; split <;> rfl
@[simp] theorem State.setColour_cbr (s : State) (k : Byte) : (s.setColour k).cbr = s.cbr := by
  unfold State.setColour; split <;> rfl
@[simp] theorem State.setColour_cacheFlags (s : State) (k : Byte) : (s.setColour k).cacheFlags = s.cacheFlags := by
  unfold State.setColour; split <;> rfl
@[simp] theorem State.setColour_rombuf (s : State) (k : Byte) : (s.setColour k).rombuf = s.rombuf := by
  unfold State.setColour; split <;> rfl
@[simp] theorem State.setColour_romPending (s : State) (k : Byte) : (s.setColour k).romPending = s.romPending := by
  unfold State.setColour; split <;> rfl
@[simp] theorem State.setColour_romStatus (s : State) (k : Byte) : (s.setColour k).romStatus = s.romStatus := by
  unfold State.setColour; split <;> rfl
@[simp] theorem State.setColour_lastram (s : State) (k : Byte) : (s.setColour k).lastram = s.lastram := by
  unfold State.setColour; split <;> rfl
@[simp] theorem State.setColour_lastramSet (s : State) (k : Byte) : (s.setColour k).lastramSet = s.lastramSet := by
  unfold State.setColour; split <;> rfl
@[simp] theorem State.setColour_inlineLo (s : State) (k : Byte) : (s.setColour k).inlineLo = s.inlineLo := by
  unfold State.setColour; split <;> rfl
@[simp] theorem State.setColour_ramBuf (s : State) (k : Byte) : (s.setColour k).ramBuf = s.ramBuf := by
  unfold State.setColour; split <;> rfl
@[simp] theorem State.setColour_plotBuf (s : State) (k : Byte) : (s.setColour k).plotBuf = s.plotBuf := by
  unfold State.setColour; split <;> rfl
@[simp] theorem State.setColour_pix (s : State) (k : Byte) : (s.setColour k).pix = s.pix := by
  unfold State.setColour; split <;> rfl
@[simp] theorem State.setColour_code (s : State) (k : Byte) : (s.setColour k).code = s.code := by
  unfold State.setColour; split <;> rfl
@[simp] theorem State.setColour_rom (s : State) (k : Byte) : (s.setColour k).rom = s.rom := by
  unfold State.setColour; split <;> rfl
@[simp] theorem State.setColour_ram (s : State) (k : Byte) : (s.setColour k).ram = s.ram := by
  unfold State.setColour; split <;> rfl
@[simp] theorem State.setColour_stored (s : State) (k : Byte) : (s.setColour k).stored = s.stored := by
  unfold State.setColour; split <;> rfl
@[simp] theorem State.setColour_params (s : State) (k : Byte) : (s.setColour k).params = s.params := by
  unfold State.setColour; split <;> rfl
@[simp] theorem State.setColour_hostIrqs (s : State) (k : Byte) : (s.setColour k).hostIrqs = s.hostIrqs := by
  unfold State.setColour; split <;> rfl

@[simp] theorem State.romLoad_romPending (s : State) : s.romLoad.romPending = true := by
  unfold State.romLoad; split <;> rfl

@[simp] theorem State.writeReg_regs (s : State) (n : Reg) (v : Word) : (s.writeReg n v).regs = s.regs.set n v := by
  unfold State.writeReg; split <;> simp

end Sys2Proof.Machine
end

