-- ==== Sys2Proof/Laws/Ops.lean ====
section
/-!
SUPPORT. What each shared operation can do, said once, in the terms of Safety.lean.
-/

namespace Sys2Proof.Machine

/-! ## Registers -/

theorem State.reg_eq (s : State) (n : Reg) : s.reg n = s.regs[n] := rfl

@[simp] theorem State.reg_setReg (s : State) (n m : Reg) (v : Word) :
    (s.setReg n v).reg m = if m = n then v else s.reg m := by
  simp only [State.reg, State.setReg, Fin.getElem_fin, Vector.getElem_set, Fin.ext_iff, eq_comm]

theorem State.reg_advance (s : State) (m : Reg) : s.advance.reg m = if m = 15 then s.reg 15 + 1 else s.reg m := by
  simp [State.advance, State.pc]

@[simp] theorem State.reg_writeReg (s : State) (n m : Reg) (v : Word) :
    (s.writeReg n v).reg m = if m = n then v else s.reg m := by
  rw [← State.reg_setReg]; simp [State.reg_eq]

@[simp] theorem State.reg_clearPrefix (s : State) (m : Reg) : s.clearPrefix.reg m = s.reg m := rfl

@[simp] theorem State.reg_romLoad (s : State) (m : Reg) : s.romLoad.reg m = s.reg m := by simp [State.reg_eq]

/-- States with the same registers have the same register values. -/
theorem State.reg_congr {s t : State} (h : t.regs = s.regs) (m : Reg) : t.reg m = s.reg m := by
  simp [State.reg_eq, h]

/-! ## The ROM buffer -/

theorem writeReg_romFollows (s : State) (n : Reg) (v : Word) : RomFollows n v s (s.writeReg n v) := by
  by_cases h : n = 14
  · subst h
    have ha : (s.setReg 14 v).romAddr = bankAddr s.rombr v := by simp [State.romAddr]
    constructor
    · simp
    · simp [State.writeReg]
    · intro _ hm
      simp [State.writeReg, State.romLoad, ha, hm]
    · intro _ hm
      simp [State.writeReg, State.romLoad, ha, hm]
  · exact ⟨fun _ => by simp [State.writeReg, h], fun e => absurd e h, fun e => absurd e h, fun e => absurd e h⟩

/-! ## The two ends of a meaning -/

/-- `FlagsKept`, and what else stays, only reads fields, so equal fields give it. -/
theorem restKept_of_fields {s t : State} (h1 : t.pipe = s.pipe ∧ t.go = s.go ∧ t.hostIrqs = s.hostIrqs ∧ t.colr = s.colr ∧
      t.por = s.por ∧ t.pbr = s.pbr ∧ t.rambr = s.rambr ∧ t.rombr = s.rombr ∧ t.cbr = s.cbr ∧ t.cacheFlags = s.cacheFlags ∧
      t.lastram = s.lastram ∧ t.lastramSet = s.lastramSet ∧ t.inlineLo = s.inlineLo ∧ t.code = s.code ∧ t.rom = s.rom ∧
      t.params = s.params ∧ t.draws = s.draws)
    (h2 : t.ramBuf = s.ramBuf ∧ t.ram = s.ram ∧ t.stored = s.stored) (h3 : t.plotBuf = s.plotBuf ∧ t.pix = s.pix) :
    RestKept s t := by
  obtain ⟨a1, a2, a3, a4, a5, a6, a7, a8, a9, a10, a11, a12, a13, a14, a15, a16, a17⟩ := h1
  refine ⟨⟨a1, a2, a3, a4, a5, a6, a7, a8, a9, a10, a11, a12, a13, a14, a15, a16, a17⟩, ⟨fun a => ?_, h2.1, h2.2.2⟩,
    ⟨fun x y => ?_, h3.1⟩⟩
  · simp [State.ramByte, h2]
  · simp [State.pixel, h3]

/-- Everything `finishReg` does: it always completes, and it does what `WroteReg` says and touches no flag. -/
theorem finishReg_spec (n : Reg) (v : Word) (s : State) :
    ∃ t, finishReg n v s = .next t ∧ WroteReg n v s t ∧ FlagsKept s t := by
  refine ⟨_, rfl, ?_⟩
  by_cases h : n = 15
  · subst h
    have hr := writeReg_romFollows s 15 v
    refine ⟨⟨⟨by simp [isPc], fun m hm _ => by simp [isPc, hm], by simp [isPc]⟩, ⟨fun _ => ?_, by simp [isPc], by simp [isPc], by simp [isPc]⟩, by constructor <;> simp [isPc],
      restKept_of_fields (by simp [isPc]) (by simp [isPc]) (by simp [isPc])⟩, by constructor <;> simp [isPc]⟩
    simpa [isPc] using hr.kept
  · have hr := writeReg_romFollows s n v
    refine ⟨⟨⟨?_, ?_, ?_⟩, ⟨?_, ?_, ?_, ?_⟩, by constructor <;> simp [isPc, h],
      restKept_of_fields (by simp [isPc, h]) (by simp [isPc, h]) (by simp [isPc, h])⟩, by constructor <;> simp [isPc, h]⟩
    · simp [isPc, h, State.reg_advance]
    · intro m hm h15
      simp [isPc, h, State.reg_advance, hm, h15]
    · simp [isPc, h, State.reg_advance, Ne.symm h]
    · simpa [isPc, h] using hr.kept
    · simpa [isPc, h] using hr.pending
    · simpa [isPc, h] using hr.mapped
    · simpa [isPc, h] using hr.unmapped

/-- Everything `finish` does. -/
theorem finish_spec (s : State) : ∃ t, finish s = .next t ∧ WroteNoReg s t ∧ FlagsKept s t := by
  refine ⟨_, rfl, ⟨⟨?_, ?_, ?_, ?_, ?_⟩, ?_, ?_⟩, ?_⟩
  · intro m h15
    simp [State.reg_advance, h15]
  · simp [State.reg_advance]
  · simp
  · simp
  · simp
  · constructor <;> simp
  · exact restKept_of_fields (by simp) (by simp) (by simp)
  · constructor <;> simp

/-- What an instruction writes apart from the flags does not depend on the flags it starts from. -/
theorem WroteReg.of_withFlagsOf {n : Reg} {v : Word} {b f t : State} (w : WroteReg n v b t) :
    WroteReg n v (b.withFlagsOf f) t :=
  ⟨⟨w.regs.dest, w.regs.others, w.regs.pc⟩, ⟨w.rom.kept, w.rom.pending, w.rom.mapped, w.rom.unmapped⟩, w.prefixData,
    by obtain ⟨⟨⟩, ⟨⟩, ⟨⟩⟩ := w.rest; constructor <;> constructor <;> assumption⟩

/-- See `WroteReg.of_withFlagsOf`. -/
theorem WroteNoReg.of_withFlagsOf {b f t : State} (w : WroteNoReg b t) : WroteNoReg (b.withFlagsOf f) t :=
  ⟨⟨w.regs.others, w.regs.pc, w.regs.rombuf, w.regs.romStatus, w.regs.romPending⟩, w.prefixData,
    by obtain ⟨⟨⟩, ⟨⟩, ⟨⟩⟩ := w.rest; constructor <;> constructor <;> assumption⟩

theorem msb_eq_bit15 (r : Word) : r.msb = r.getLsbD 15 := by simp [BitVec.msb_eq_getLsbD_last]

/-- A result written to DReg after `SetSZ`. -/
theorem finishDst_setSZ (r : Word) (s : State) : YieldsSZ r s (finishDst r (s.setSZ r)) := by
  obtain ⟨t, h, w, f⟩ := finishReg_spec s.dreg r (s.setSZ r)
  exact ⟨t, h, w.of_withFlagsOf (f := s), f.sign.trans (msb_eq_bit15 r), f.zero, f.carry, f.overflow⟩

/-- A result written to DReg after `SetSZ` and a carry. -/
theorem finishDst_setSZC (r : Word) (c : Bool) (s : State) : YieldsSZC r c s (finishDst r (s.setSZC r c)) := by
  obtain ⟨t, h, w, f⟩ := finishReg_spec s.dreg r (s.setSZC r c)
  exact ⟨t, h, w.of_withFlagsOf (f := s), f.sign.trans (msb_eq_bit15 r), f.zero, f.carry, f.overflow⟩

/-- A result written to a register after `SetSZ`, as INC and DEC do. -/
theorem finishReg_setSZ (n : Reg) (r : Word) (s : State) :
    ∃ t, finishReg n r (s.setSZ r) = .next t ∧ WroteReg n r s t ∧ FlagsSZ r s t := by
  obtain ⟨t, h, w, f⟩ := finishReg_spec n r (s.setSZ r)
  exact ⟨t, h, w.of_withFlagsOf (f := s), f.sign.trans (msb_eq_bit15 r), f.zero, f.carry, f.overflow⟩

/-- Everything a branch can do. -/
theorem branchIf_spec (cond : Bool) (d : Byte) (s : State) : Branches cond d s (branchIf cond d s) := by
  cases cond
  · refine ⟨_, rfl, by simp, fun _ => ?_, by simp, by simp, by simp, ?_, ?_, ?_⟩
    · exact ⟨fun m h => by simp [State.reg_advance, h], by simp [State.reg_advance], by simp, by simp, by simp⟩
    · constructor <;> simp
    · constructor <;> simp
    · exact restKept_of_fields (by simp) (by simp) (by simp)
  · have hr := (writeReg_romFollows s 15 (branchTarget s d)).kept (by decide)
    refine ⟨_, rfl, fun _ => ?_, by simp, hr.1, hr.2.1, hr.2.2, ?_, ?_, ?_⟩
    · exact ⟨by simp [branchTarget, State.pc, signedByteOperand, sext8], fun m h _ => by simp [h], by simp⟩
    · constructor <;> simp
    · constructor <;> simp
    · exact restKept_of_fields (by simp) (by simp) (by simp)

/-! ## RAM -/

/-- The check of an address succeeds exactly where RAM is open, and otherwise refuses. -/
theorem ramCheck_open {s : State} {a : Nat} (h : s.RamOpen a) : s.ramCheck a = .ok () := by
  simp [State.ramCheck, h.1, h.2]

theorem ramCheck_closed {s : State} {a : Nat} (h : ¬ s.RamOpen a) : ∃ r, RamRefusal r ∧ s.ramCheck a = .error r := by
  unfold State.ramCheck
  split
  · exact ⟨_, .inl rfl, rfl⟩
  · split
    · exact ⟨_, .inr rfl, rfl⟩
    · exact absurd ⟨by simp_all, by simp_all⟩ h

theorem loadByte_open {s : State} {a : Word} (h : s.RamOpen (s.ramAddr a)) :
    s.loadByte a = .ok (s.ramByte (s.ramAddr a)) := by
  simp [State.loadByte, ramCheck_open h]

theorem loadByte_closed {s : State} {a : Word} (h : ¬ s.RamOpen (s.ramAddr a)) :
    ∃ r, RamRefusal r ∧ s.loadByte a = .error r := by
  obtain ⟨r, n, hr⟩ := ramCheck_closed h
  exact ⟨r, n, by simp [State.loadByte, hr]⟩

/-- An even address is its own word's low address. -/
theorem even_word {a : Word} (h : a.getLsbD 0 = false) : a &&& 0xFFFE = a ∧ a ||| 1 = a ^^^ 1 := by
  constructor <;> ext i hi <;> interval_cases i <;> simp_all [← BitVec.getLsbD_eq_getElem]

/-- An odd address is its own word's high address. -/
theorem odd_word {a : Word} (h : a.getLsbD 0 = true) : a &&& 0xFFFE = a ^^^ 1 ∧ a ||| 1 = a := by
  constructor <;> ext i hi <;> interval_cases i <;> simp_all [← BitVec.getLsbD_eq_getElem]

/-- The two addresses of a word, as a load forms them and as a store does, are the same two. -/
theorem wordOpen_iff (s : State) (a : Word) :
    s.WordOpen a ↔ s.RamOpen (s.ramAddr (a &&& 0xFFFE)) ∧ s.RamOpen (s.ramAddr (a ||| 1)) := by
  cases h : a.getLsbD 0
  · rw [(even_word h).1, (even_word h).2]; rfl
  · rw [(odd_word h).1, (odd_word h).2, and_comm]; rfl

theorem loadWord_open {s : State} {a : Word} (h : s.WordOpen a) :
    s.loadWord a = .ok (s.ramByte (s.ramAddr (a ||| 1)) ++ s.ramByte (s.ramAddr (a &&& 0xFFFE))) := by
  obtain ⟨h0, h1⟩ := (wordOpen_iff s a).1 h
  simp only [State.loadWord, loadByte_open h0, loadByte_open h1, wordOf]

theorem loadWord_closed {s : State} {a : Word} (h : ¬ s.WordOpen a) : ∃ r, RamRefusal r ∧ s.loadWord a = .error r := by
  rw [wordOpen_iff, not_and_or] at h
  by_cases h0 : s.RamOpen (s.ramAddr (a &&& 0xFFFE))
  · obtain ⟨r, n, hr⟩ := loadByte_closed (h.resolve_left (not_not_intro h0))
    exact ⟨r, n, by simp only [State.loadWord, loadByte_open h0, hr]⟩
  · obtain ⟨r, n, hr⟩ := loadByte_closed h0
    exact ⟨r, n, by simp only [State.loadWord, hr]⟩

theorem storeWord_open {s : State} {a : Word} (h : s.WordOpen a) (v : Word) :
    s.storeWord a v = .ok (s.issueStore [(s.ramAddr a, lowByte v), (s.ramAddr (a ^^^ 1), highByte v)]) := by
  simp only [State.storeWord, ramCheck_open h.1, ramCheck_open h.2]

theorem storeWord_closed {s : State} {a : Word} (h : ¬ s.WordOpen a) (v : Word) :
    ∃ r, RamRefusal r ∧ s.storeWord a v = .error r := by
  rw [State.WordOpen, not_and_or] at h
  by_cases h0 : s.RamOpen (s.ramAddr a)
  · obtain ⟨r, n, hr⟩ := ramCheck_closed (h.resolve_left (not_not_intro h0))
    exact ⟨r, n, by simp only [State.storeWord, ramCheck_open h0, hr]⟩
  · obtain ⟨r, n, hr⟩ := ramCheck_closed h0
    exact ⟨r, n, by simp only [State.storeWord, hr]⟩

theorem storeByte_open {s : State} {a : Word} (h : s.RamOpen (s.ramAddr a)) (v : Byte) :
    s.storeByte a v = .ok (s.issueStore [(s.ramAddr a, v)]) := by
  simp [State.storeByte, ramCheck_open h]

theorem storeByte_closed {s : State} {a : Word} (h : ¬ s.RamOpen (s.ramAddr a)) (v : Byte) :
    ∃ r, RamRefusal r ∧ s.storeByte a v = .error r := by
  obtain ⟨r, n, hr⟩ := ramCheck_closed h
  exact ⟨r, n, by simp [State.storeByte, hr]⟩

/-- A drain of the write buffer changes no byte a load can see. -/
theorem drainRam_ramByte (s : State) (a : Nat) : s.drainRam.ramByte a = s.ramByte a := by
  simp [State.ramByte, read_drainInto]

/-- The address SBK stores to: the last one used, or the free one before any. -/
theorem sbkAddr_set {s : State} (h : s.lastramSet = true) : s.sbkAddr = s.lastram := by simp [State.sbkAddr, h]

theorem sbkAddr_unset {s : State} (h : s.lastramSet = false) : s.sbkAddr = Config.launchLastram := by
  simp [State.sbkAddr, h]

/-- A drain of the plot buffer changes no pixel. -/
theorem drainPlot_pixel (s : State) (x y : Byte) : s.drainPlot.pixel x y = s.pixel x y := by
  simp [State.pixel, read_drainInto]

/-- Everything a store does once its address is open. -/
theorem issueStore_spec (cells : List Host.Cell) (s : State) : Stores cells s (finish (s.issueStore cells)) := by
  obtain ⟨t, h, w, f⟩ := finish_spec (s.issueStore cells)
  refine ⟨t, h, ⟨w.regs.others, w.regs.pc, w.regs.rombuf, w.regs.romStatus, w.regs.romPending⟩,
    ⟨f.zero, f.carry, f.sign, f.overflow⟩, w.prefixData, ?_, ⟨fun a => ?_, w.rest.ram.pending, fun a => ?_⟩,
    ⟨w.rest.pixels.pixels, w.rest.pixels.pending⟩⟩
  · obtain ⟨⟩ := w.rest.system
    constructor <;> assumption
  · rw [w.rest.ram.bytes a]
    simp [State.ramByte, readThrough_drainInto]
  · rw [w.rest.ram.stored]
    simp [mem_insertAddrs]

/-! ## The ROM buffer -/

/-- What a GETx finds: nothing the run chose, the byte fetched, or no byte. -/
theorem readRomBuffer_eq (s : State) :
    s.readRomBuffer =
      match s.romStatus with
      | .unset => .ok (Config.launchRombuf, { s with romPending := false })
      | .loaded => .ok (s.rombuf, { s with romPending := false })
      | .unmapped => .error .unmappedData := rfl

/-! ## Fetch -/

/-- What a code address reads as depends on the memories, the stores and the parameters alone. -/
theorem codeRead_congr {s t : State} (h1 : t.params = s.params) (h2 : t.code = s.code) (h3 : t.ram = s.ram)
    (h4 : t.stored = s.stored) (bank : Byte) (a : Word) : t.codeRead bank a = s.codeRead bank a := by
  simp [State.codeRead, h1, h2, h3, h4]

/-- What taking an opcode byte and its in-line bytes does, when the bytes can be fetched: the bytes in fetch order, and the state
with r15 past them, the pipe filled behind them, and the form's in-line flags. -/
structure FormTaken (s : State) (k : Nat) (branch : Bool) (bytes : List Byte) (t : State) : Prop where
  length : bytes.length = k
  reads : ∀ j (h : j < bytes.length), s.codeRead s.pbr (s.reg 15 + BitVec.ofNat 16 j) = .ok bytes[j]
  next : s.codeRead s.pbr (s.reg 15 + BitVec.ofNat 16 k) = .ok t.pipe
  low : t.inlineLo = if k = 2 then bytes.headD s.inlineLo else s.inlineLo
  state : t = { s.setReg 15 (s.reg 15 + BitVec.ofNat 16 k) with
    pipe := t.pipe, inlineLo := t.inlineLo, il := s.il || (k != 0 && !branch), ih := s.ih || decide (k = 2) }

theorem setReg_self (s : State) : s.setReg 15 (s.reg 15) = s := by
  have h : s.regs.set 15 s.regs[15] = s.regs := by
    ext i hi
    by_cases h : 15 = i
    · subst h; simp
    · simp
  simp [State.setReg, State.reg, h]

theorem prefetch_ok {s t : State} (h : s.prefetch = .ok t) :
    t = { s with pipe := t.pipe } ∧ s.codeRead s.pbr (s.reg 15) = .ok t.pipe := by
  unfold State.prefetch at h
  split at h
  · cases h
  · cases h
    exact ⟨rfl, by assumption⟩

theorem prefetch_open {s : State} (h : s.CodeOpen) : ∃ t, s.prefetch = .ok t := by
  obtain ⟨b, hb⟩ := h s.pc
  exact ⟨{ s with pipe := b }, by simp [State.prefetch, hb]⟩

theorem fetchImm_ok {s t : State} {b : Byte} (h : s.fetchImm = .ok (b, t)) :
    b = s.pipe ∧ t = { s.setReg 15 (s.reg 15 + 1) with pipe := t.pipe } ∧
      s.codeRead s.pbr (s.reg 15 + 1) = .ok t.pipe := by
  unfold State.fetchImm at h
  split at h
  · cases h
  · rename_i u hu
    cases h
    obtain ⟨h1, h2⟩ := prefetch_ok hu
    refine ⟨rfl, h1, ?_⟩
    rw [← h2, State.reg_advance]
    exact (codeRead_congr rfl rfl rfl rfl _ _).symm

theorem fetchImm_open {s : State} (h : s.CodeOpen) : ∃ b t, s.fetchImm = .ok (b, t) := by
  obtain ⟨t, ht⟩ := prefetch_open (s := s.advance) h
  exact ⟨s.pipe, t, by simp [State.fetchImm, ht]⟩

/-- Code that can be fetched can still be fetched from any state with the same bank, memories, stores and parameters. -/
theorem CodeOpen.congr {s t : State} (h : s.CodeOpen) (h0 : t.pbr = s.pbr) (h1 : t.params = s.params) (h2 : t.code = s.code)
    (h3 : t.ram = s.ram) (h4 : t.stored = s.stored) : t.CodeOpen := by
  intro a
  rw [h0, codeRead_congr h1 h2 h3 h4]
  exact h a

theorem takeOpcode_ok {s t : State} {il ih : Bool} (h : s.takeOpcode il ih = .ok t) :
    t = { s with pipe := t.pipe, il := s.il || il, ih := s.ih || ih } ∧ s.codeRead s.pbr (s.reg 15) = .ok t.pipe := by
  unfold State.takeOpcode at h
  split at h
  · cases h
  · rename_i u hu
    cases h
    obtain ⟨h1, h2⟩ := prefetch_ok hu
    rw [h1]
    exact ⟨rfl, h2⟩

/-- The fetch of a form succeeds exactly as `FormTaken` says. -/
theorem takeForm_ok {s t : State} {k : Nat} (hk : k ≤ 2) {branch : Bool} {bytes : List Byte}
    (h : s.takeForm k branch = .ok (bytes, t)) : FormTaken s k branch bytes t := by
  unfold State.takeForm at h
  split at h
  · cases h
  rename_i u hu
  obtain ⟨h1, h2⟩ := takeOpcode_ok hu
  interval_cases k
  · cases h
    refine ⟨rfl, by simp, by simpa using h2, by rw [h1]; rfl, ?_⟩
    rw [h1]
    simp [setReg_self]
  · simp only [State.takeByte] at h
    split at h
    · cases h
    rename_i b v hv
    cases h
    obtain ⟨rfl, h3, h4⟩ := fetchImm_ok hv
    generalize u.pipe = p at h1 h2
    generalize t.pipe = q at h3 h4
    subst h1 h3
    refine ⟨rfl, fun j hj => ?_, ?_, rfl, rfl⟩
    · obtain rfl : j = 0 := by simpa using hj
      simpa using h2
    · exact h4
  · simp only [State.takeWord] at h
    split at h
    · cases h
    rename_i b v hv
    split at h
    · cases h
    rename_i c w hw
    cases h
    obtain ⟨rfl, h3, h4⟩ := fetchImm_ok hv
    obtain ⟨rfl, h5, h6⟩ := fetchImm_ok hw
    generalize u.pipe = p at h1 h2 h5
    generalize v.pipe = q at h3 h4
    generalize t.pipe = r at h5 h6
    subst h1 h3 h5
    have e : s.reg 15 + 1 + 1 = s.reg 15 + BitVec.ofNat 16 2 := by rw [BitVec.add_assoc]; rfl
    refine ⟨rfl, fun j hj => ?_, ?_, rfl, ?_⟩
    · rcases j with _ | _ | j
      · simpa using h2
      · exact h4
      · simp at hj
    · change s.codeRead s.pbr ((s.setReg 15 (s.reg 15 + 1)).reg 15 + 1) = .ok r at h6
      rw [State.reg_setReg, if_pos rfl, e] at h6
      exact h6
    · rw [← e]
      simp [State.setReg, State.reg]

/-- Where code can be fetched, so can every form. -/
theorem takeForm_open {s : State} (h : s.CodeOpen) {k : Nat} (hk : k ≤ 2) (branch : Bool) :
    ∃ bytes t, s.takeForm k branch = .ok (bytes, t) := by
  obtain ⟨u, hu⟩ := prefetch_open h
  have h1 := (prefetch_ok hu).1
  unfold State.takeForm State.takeOpcode
  rw [hu]
  interval_cases k
  · exact ⟨_, _, rfl⟩
  · have ho : ({ u with il := u.il || (1 != 0 && !branch), ih := u.ih || decide (1 = 2) } : State).CodeOpen :=
      CodeOpen.congr h (by rw [h1]) (by rw [h1]) (by rw [h1]) (by rw [h1]) (by rw [h1])
    obtain ⟨b, v, hv⟩ := fetchImm_open ho
    refine ⟨[b], v, ?_⟩
    show State.takeByte _ = _
    unfold State.takeByte
    rw [hv]
  · have ho : ({ u with il := u.il || (2 != 0 && !branch), ih := u.ih || decide (2 = 2) } : State).CodeOpen :=
      CodeOpen.congr h (by rw [h1]) (by rw [h1]) (by rw [h1]) (by rw [h1]) (by rw [h1])
    obtain ⟨b, v, hv⟩ := fetchImm_open ho
    have h3 := (fetchImm_ok hv).2.1
    have ho2 : ({ v with inlineLo := b } : State).CodeOpen :=
      CodeOpen.congr ho (by rw [h3]; rfl) (by rw [h3]; rfl) (by rw [h3]; rfl) (by rw [h3]; rfl) (by rw [h3]; rfl)
    obtain ⟨c, w, hw⟩ := fetchImm_open ho2
    refine ⟨[w.inlineLo, c], w, ?_⟩
    show State.takeWord _ = _
    unfold State.takeWord
    rw [hv]
    dsimp only
    rw [hw]

/-- A branch has one in-line byte. -/
theorem inlineBytes_branch {alt : Alt} {op : Byte} (h : isBranchByte alt op = true) : inlineBytes alt op = 1 := by
  unfold isBranchByte at h
  unfold inlineBytes
  split at h <;> simp_all

/-- No form has more than two in-line bytes. -/
theorem inlineBytes_le (alt : Alt) (op : Byte) : inlineBytes alt op ≤ 2 := by
  unfold inlineBytes
  split <;> omega

/-- Everything a fetch that succeeds does. -/
theorem fetch_ok {s t : State} {bytes : List Byte} (h : s.fetch = .ok (bytes, t)) :
    ∃ rest, bytes = s.pipe :: rest ∧
      FormTaken s (inlineBytes s.altMode s.pipe) (isBranchByte s.altMode s.pipe) rest t := by
  unfold State.fetch at h
  split at h
  · cases h
  · rename_i rest u hu
    cases h
    exact ⟨rest, rfl, takeForm_ok (inlineBytes_le _ _) hu⟩

theorem fetch_open {s : State} (h : s.CodeOpen) : ∃ bytes t, s.fetch = .ok (bytes, t) := by
  obtain ⟨r, t, ht⟩ := takeForm_open h (inlineBytes_le s.altMode s.pipe) (isBranchByte s.altMode s.pipe)
  exact ⟨s.pipe :: r, t, by simp [State.fetch, ht]⟩

/-- The fetch leaves the ALT mode the byte was read under. -/
theorem FormTaken.altMode_eq {s t : State} {k : Nat} {branch : Bool} {bytes : List Byte} (h : FormTaken s k branch bytes t) :
    t.altMode = s.altMode := by
  rw [h.state]
  rfl

/-- A step that ends in a next state is a fetch, a decoding and a meaning. -/
theorem step_next {s t : State} (h : step s = .next t) :
    s.go = true ∧ ∃ bytes rest u i, s.fetch = .ok (bytes, u) ∧ decode s.altMode bytes = .ok (i, rest) ∧ exec i u = .next t := by
  unfold step at h
  split at h
  · rename_i hg
    refine ⟨hg, ?_⟩
    split at h
    · cases h
    rename_i bytes u hu
    split at h
    · cases h
    rename_i i rest hi
    obtain ⟨r, _, f⟩ := fetch_ok hu
    rw [f.altMode_eq] at hi
    exact ⟨bytes, rest, u, i, hu, hi, h⟩
  · cases h

/-- `finish` on a state whose flags are those of another. -/
theorem finish_flags {b s : State} (h : b.withFlagsOf s = b) :
    ∃ t, finish b = .next t ∧ WroteNoReg b t ∧ FlagsKept s t := by
  obtain ⟨t, ht, w, f⟩ := finish_spec b
  refine ⟨t, ht, w, ?_⟩
  rw [← h] at f
  exact ⟨f.zero, f.carry, f.sign, f.overflow⟩

/-! ## What an operation did, read off its success -/

theorem storeWord_ok {s t : State} {a v : Word} (h : s.storeWord a v = .ok t) :
    t = s.issueStore [(s.ramAddr a, lowByte v), (s.ramAddr (a ^^^ 1), highByte v)] := by
  unfold State.storeWord at h
  split at h <;> cases h
  rfl

theorem storeByte_ok {s t : State} {a : Word} {v : Byte} (h : s.storeByte a v = .ok t) :
    t = s.issueStore [(s.ramAddr a, v)] := by
  unfold State.storeByte at h
  split at h <;> cases h
  rfl

theorem readRomBuffer_ok {s t : State} {v : Byte} (h : s.readRomBuffer = .ok (v, t)) : t = { s with romPending := false } := by
  rw [readRomBuffer_eq] at h
  split at h <;> cases h <;> rfl

theorem andThen_next {o : Result} {f : State → Result} {t : State} (h : andThen o f = .next t) :
    ∃ u, o = .next u ∧ f u = .next t := by
  unfold andThen at h
  split at h
  · exact ⟨_, rfl, h⟩
  · cases h
  · cases h

theorem thenForm_next {k : Nat} {f : State → Result} {s t : State} (h : thenForm k f s = .next t) :
    ∃ bytes u, s.takeForm k false = .ok (bytes, u) ∧ f u = .next t := by
  unfold thenForm at h
  split at h
  · cases h
  · exact ⟨_, _, ‹_›, h⟩

end Sys2Proof.Machine
end

