-- ==== Sys2Proof/Laws/Values.lean ====
section
/-!
SUPPORT. The bit-level operations as numbers: bytes of a word, the adder and its overflow, the products, the shifts, nybbles.
-/

namespace Sys2Proof

/-! ## Bytes of a word -/

theorem wordOf_toNat (h l : Byte) : (wordOf h l).toNat = h.toNat * 256 + l.toNat := by
  rw [wordOf, BitVec.toNat_append, ← Nat.shiftLeft_add_eq_or_of_lt l.isLt, Nat.shiftLeft_eq]

theorem lowByte_toNat (w : Word) : (lowByte w).toNat = w.toNat % 256 := by simp [lowByte]

theorem highByte_toNat (w : Word) : (highByte w).toNat = w.toNat / 256 := by
  have := w.isLt
  simp [highByte, Nat.shiftRight_eq_div_pow]
  omega

theorem wordOf_bytes (w : Word) : wordOf (highByte w) (lowByte w) = w := by
  apply BitVec.eq_of_toNat_eq
  rw [wordOf_toNat, lowByte_toNat, highByte_toNat]
  omega

theorem highByte_wordOf (h l : Byte) : highByte (wordOf h l) = h := by
  apply BitVec.eq_of_toNat_eq
  have := l.isLt
  rw [highByte_toNat, wordOf_toNat]
  omega

theorem lowByte_wordOf (h l : Byte) : lowByte (wordOf h l) = l := by
  apply BitVec.eq_of_toNat_eq
  have := l.isLt
  rw [lowByte_toNat, wordOf_toNat]
  omega

end Sys2Proof

namespace Sys2Proof.Machine

/-! ## Words as numbers -/

theorem word_toInt (x : Word) : x.toInt = if x.toNat < 32768 then (x.toNat : Int) else x.toNat - 65536 := by
  rw [BitVec.toInt_eq_toNat_cond]
  norm_num
  split_ifs <;> omega

theorem word_bit15 (x : Word) : x.getLsbD 15 = decide (32768 ≤ x.toNat) := by
  rw [← BitVec.msb_eq_getLsbD_last (x := x), BitVec.msb_eq_decide]

theorem word_bit0 (x : Word) : x.getLsbD 0 = decide (x.toNat % 2 = 1) := by simp [BitVec.getLsbD, Nat.testBit_zero]

/-! ## The adder -/

theorem adderResult_add (a b : Word) (c : Bool) : adderResult a b c = a + b + BitVec.ofNat 16 (carryIn c) := by
  apply BitVec.eq_of_toNat_eq
  simp [adderResult, adderSum, BitVec.toNat_add]

theorem adderResult_sub (a b : Word) (c : Bool) :
    adderResult a (~~~b) c = a - b - BitVec.ofNat 16 (1 - carryIn c) := by
  apply BitVec.eq_of_toNat_eq
  have := b.isLt
  have := a.isLt
  cases c <;> simp [adderResult, adderSum, carryIn, BitVec.toNat_not, BitVec.toNat_sub] <;> omega

theorem carryIn_le (c : Bool) : carryIn c ≤ 1 := by cases c <;> simp [carryIn]

/-- The bit formula of R150 is signed overflow. -/
theorem addOverflow_iff (a b : Word) (c : Bool) :
    addOverflow a b (adderResult a b c) = true ↔
      a.toInt + b.toInt + (carryIn c : Nat) < -32768 ∨ 32767 < a.toInt + b.toInt + (carryIn c : Nat) := by
  have hr : (adderResult a b c).toNat = (a.toNat + b.toNat + carryIn c) % 65536 := by simp [adderResult, adderSum]
  have hc := carryIn_le c
  simp only [addOverflow, BitVec.msb_and, BitVec.msb_xor]
  simp only [BitVec.msb_eq_decide, hr, word_toInt]
  have := a.isLt
  have := b.isLt
  generalize carryIn c = k at *
  by_cases h1 : 32768 ≤ a.toNat <;> by_cases h2 : 32768 ≤ b.toNat <;> simp [h1, h2] <;> split_ifs <;> omega

/-- The bit formula of R151 is signed overflow. -/
theorem subOverflow_iff (a b : Word) (c : Bool) :
    subOverflow a b (adderResult a (~~~b) c) = true ↔
      a.toInt - b.toInt - (1 - carryIn c : Nat) < -32768 ∨ 32767 < a.toInt - b.toInt - (1 - carryIn c : Nat) := by
  have hb := b.isLt
  have hr : (adderResult a (~~~b) c).toNat = (a.toNat + (65535 - b.toNat) + carryIn c) % 65536 := by
    simp [adderResult, adderSum, BitVec.toNat_not]
  have hc := carryIn_le c
  simp only [subOverflow, BitVec.msb_and, BitVec.msb_xor]
  simp only [BitVec.msb_eq_decide, hr, word_toInt]
  have := a.isLt
  generalize carryIn c = k at *
  by_cases h1 : 32768 ≤ a.toNat <;> by_cases h2 : 32768 ≤ b.toNat <;> simp [h1, h2] <;> split_ifs <;> omega

/-- The carry of a subtraction is the absence of a borrow. -/
theorem subCarry_iff (a b : Word) (c : Bool) : adderCarry a (~~~b) c = true ↔ b.toNat + (1 - carryIn c) ≤ a.toNat := by
  have := b.isLt
  cases c <;> simp [adderCarry, adderSum, BitVec.toNat_not, carryIn] <;> omega

/-! ## Products -/

theorem signedByteProduct_toInt (a b : Word) : (signedByteProduct a b).toInt = (lowByte a).toInt * (lowByte b).toInt := by
  have h1 := (lowByte a).le_toInt
  have h2 := (lowByte a).toInt_lt
  have h3 := (lowByte b).le_toInt
  have h4 := (lowByte b).toInt_lt
  norm_num at h1 h2 h3 h4
  have : -16384 ≤ (lowByte a).toInt * (lowByte b).toInt ∧ (lowByte a).toInt * (lowByte b).toInt ≤ 16384 := by
    constructor <;> nlinarith
  rw [signedByteProduct, BitVec.toInt_ofInt]
  exact Int.bmod_eq_of_le (by omega) (by omega)

theorem unsignedByteProduct_toNat (a b : Word) :
    (unsignedByteProduct a b).toNat = (lowByte a).toNat * (lowByte b).toNat := by
  have := (lowByte a).isLt
  have := (lowByte b).isLt
  have : (lowByte a).toNat * (lowByte b).toNat ≤ 255 * 255 := Nat.mul_le_mul (by omega) (by omega)
  rw [unsignedByteProduct, BitVec.toNat_ofNat]
  omega

theorem product_bounds (a b : Word) : -1073741824 ≤ a.toInt * b.toInt ∧ a.toInt * b.toInt ≤ 1073741824 := by
  have h1 := a.le_toInt
  have h2 := a.toInt_lt
  have h3 := b.le_toInt
  have h4 := b.toInt_lt
  norm_num at h1 h2 h3 h4
  constructor <;> nlinarith

theorem product32_toNat (a b : Word) : ((product32 a b).toNat : Int) = (a.toInt * b.toInt) % 4294967296 := by
  simp only [product32, BitVec.toNat_ofInt]
  norm_num
  exact Int.emod_nonneg _ (by norm_num)

theorem productHigh_toInt (a b : Word) : (productHigh a b).toInt = a.toInt * b.toInt / 65536 := by
  have h := product32_toNat a b
  have := product_bounds a b
  have e : (productHigh a b).toNat = (product32 a b).toNat / 65536 := by
    have := (product32 a b).isLt
    simp [productHigh, Nat.shiftRight_eq_div_pow]
    omega
  rw [word_toInt]
  generalize a.toInt * b.toInt = p at *
  split_ifs <;> omega

theorem productLow_toNat (a b : Word) : ((productLow a b).toNat : Int) = a.toInt * b.toInt % 65536 := by
  have h := product32_toNat a b
  have e : (productLow a b).toNat = (product32 a b).toNat % 65536 := by simp [productLow]
  generalize a.toInt * b.toInt = p at *
  omega

theorem productCarry_eq (a b : Word) : productCarry a b = decide (a.toInt * b.toInt / 32768 % 2 = 1) := by
  have h := product32_toNat a b
  have e : productCarry a b = decide ((product32 a b).toNat / 32768 % 2 = 1) := by
    simp [productCarry, BitVec.getLsbD, Nat.testBit, Nat.shiftRight_eq_div_pow]
    generalize (product32 a b).toNat / 32768 = q
    rcases Nat.mod_two_eq_zero_or_one q with h | h <;> simp [h]
  rw [e, decide_eq_decide]
  generalize a.toInt * b.toInt = p at *
  omega

/-! ## Shifts -/

theorem asrResult_toInt (a : Word) : (asrResult a).toInt = a.toInt / 2 := by
  simp [asrResult, BitVec.toInt_sshiftRight, Int.shiftRight_eq_div_pow]

theorem rolResult_toNat (a : Word) (c : Bool) : (rolResult a c).toNat = (2 * a.toNat + if c then 1 else 0) % 65536 := by
  have h : rolResult a c = a <<< 1 + (BitVec.ofBool c).zeroExtend 16 := by
    symm
    apply BitVec.add_eq_or_of_and_eq_zero
    ext i hi
    interval_cases i <;> cases c <;> simp
  rw [h]
  have := a.isLt
  cases c <;> simp [BitVec.toNat_add, Nat.shiftLeft_eq] <;> omega

theorem rorResult_toNat (a : Word) (c : Bool) : (rorResult a c).toNat = a.toNat / 2 + if c then 32768 else 0 := by
  have h : rorResult a c = a >>> 1 + (BitVec.ofBool c).zeroExtend 16 <<< 15 := by
    symm
    apply BitVec.add_eq_or_of_and_eq_zero
    ext i hi
    interval_cases i <;> cases c <;> simp
  rw [h]
  have := a.isLt
  cases c
  · simp [Nat.shiftRight_eq_div_pow]
  · simp [BitVec.toNat_add, Nat.shiftRight_eq_div_pow]
    omega

/-! ## Addresses and nybbles -/

theorem bankAddr_inj (b : Byte) (x y : Word) : bankAddr b x = bankAddr b y ↔ x = y := by
  simp [bankAddr, ← BitVec.toNat_inj]

theorem pixelAddr_inj (x y x' y' : Byte) : pixelAddr x y = pixelAddr x' y' ↔ x = x' ∧ y = y' := by
  have := x.isLt
  have := x'.isLt
  simp only [pixelAddr, ← BitVec.toNat_inj]
  omega

theorem nybbles_toNat (h l : Nibble) : (nybbles h l).toNat = h.toNat * 16 + l.toNat := by
  rw [nybbles, BitVec.toNat_append, ← Nat.shiftLeft_add_eq_or_of_lt l.isLt, Nat.shiftLeft_eq]

theorem highNybble_toNat (b : Byte) : (highNybble b).toNat = b.toNat / 16 := by
  have := b.isLt
  simp [highNybble, Nat.shiftRight_eq_div_pow]
  omega

theorem lowNybble_toNat (b : Byte) : (lowNybble b).toNat = b.toNat % 16 := by simp [lowNybble]

end Sys2Proof.Machine
end

