-- ==== Sys2Proof/Laws/Meanings.lean ====
section
/-!
SUPPORT. What each operation shared by several meanings does, in the terms of Safety.lean; and the assembler spellings as
sequences.
-/

namespace Sys2Proof.Machine

/-! ## Arithmetic -/

theorem addTo_spec (y : Word) (c : Bool) (s : State) : Adds y (carryIn c) s (addTo y c s) := by
  obtain ⟨t, h, w, f⟩ := finishReg_spec s.dreg (adderResult s.src y c) (s.setAdd s.src y c)
  refine ⟨t, h, ?_, ?_, ?_, ?_, ?_⟩ <;> try rw [← adderResult_add]
  · exact w.of_withFlagsOf (f := s)
  · exact f.sign.trans (msb_eq_bit15 _)
  · exact f.zero
  · rw [f.carry]
    exact decide_eq_true_iff
  · rw [f.overflow]
    exact addOverflow_iff _ _ _

theorem subTo_spec (y : Word) (c : Bool) (s : State) : Subtracts y (1 - carryIn c) s (subTo y c s) := by
  obtain ⟨t, h, w, f⟩ := finishReg_spec s.dreg (adderResult s.src (~~~y) c) (s.setSub s.src y c)
  refine ⟨t, h, ?_, ?_, ?_, ?_, ?_⟩ <;> try rw [← adderResult_sub]
  · exact w.of_withFlagsOf (f := s)
  · exact f.sign.trans (msb_eq_bit15 _)
  · exact f.zero
  · rw [f.carry]
    exact subCarry_iff _ _ _
  · rw [f.overflow]
    exact subOverflow_iff _ _ _

/-! ## RAM and ROM -/

theorem shortAddress_eq (k : Byte) : shortAddress k = k.zeroExtend 16 * 2 := by
  apply BitVec.eq_of_toNat_eq
  have := k.isLt
  simp [shortAddress, zext8, Nat.shiftLeft_eq]

theorem loadWordTo_open {s : State} {a : Word} (h : s.WordOpen a) (n : Reg) : LoadsWord n a s (loadWordTo n a s) := by
  unfold loadWordTo
  rw [loadWord_open h]
  exact finishReg_spec _ _ _

theorem loadWordTo_closed {s : State} {a : Word} (h : ¬ s.WordOpen a) (n : Reg) : RefusesRam (loadWordTo n a s) := by
  obtain ⟨r, hr, e⟩ := loadWord_closed h
  exact ⟨r, hr, by simp only [loadWordTo, e]⟩

theorem storeWordAt_closed {s : State} {a : Word} (h : ¬ s.WordOpen a) (v : Word) : RefusesRam (storeWordAt a v s) := by
  obtain ⟨r, hr, e⟩ := storeWord_closed (s := s.noteRam a) h v
  exact ⟨r, hr, by simp only [storeWordAt, e]⟩

theorem storeWordAt_open {s : State} {a : Word} (h : s.WordOpen a) (v : Word) :
    StoresWord a v s (storeWordAt a v s) := by
  unfold storeWordAt
  rw [storeWord_open (s := s.noteRam a) h]
  exact issueStore_spec _ _

/-- SBK stores a word at its address, where that is open. -/
theorem execSbk_open {s : State} (h : s.WordOpen s.sbkAddr) :
    Stores [(s.ramAddr s.sbkAddr, lowByte s.src), (s.ramAddr (s.sbkAddr ^^^ 1), highByte s.src)] s (execSbk s) := by
  unfold execSbk
  rw [storeWord_open h]
  exact issueStore_spec _ _

theorem execSbk_closed {s : State} (h : ¬ s.WordOpen s.sbkAddr) : RefusesRam (execSbk s) := by
  obtain ⟨r, hr, e⟩ := storeWord_closed h s.src
  exact ⟨r, hr, by simp only [execSbk, e]⟩

theorem getTo_loaded {s : State} (h : s.romStatus = .loaded) (f : Byte → Word → Word) :
    YieldsPlain s.dreg (f s.rombuf s.src) { s with romPending := false } (getTo f s) := by
  unfold getTo
  rw [readRomBuffer_eq, h]
  exact finishReg_spec _ _ _

theorem getTo_unset {s : State} (h : s.romStatus = .unset) (f : Byte → Word → Word) :
    YieldsPlain s.dreg (f Config.launchRombuf s.src) { s with romPending := false } (getTo f s) := by
  unfold getTo
  rw [readRomBuffer_eq, h]
  exact finishReg_spec _ _ _

/-! ## Prefixes -/

/-- The end of a prefix: `b` is `s` with other prefix data. -/
theorem completePrefix_spec {s b : State}
    (h : b = { s with alt1 := b.alt1, alt2 := b.alt2, b := b.b, sreg := b.sreg, dreg := b.dreg }) :
    ∃ t, complete false b = .next t ∧ PrefixKept b t ∧ NoRegWritten s t ∧ FlagsKept s t ∧ RestKept s t := by
  refine ⟨_, rfl, ?_, ?_, ?_, ?_⟩
  · constructor <;> simp
  · rw [h]
    exact ⟨fun m hm => by simp [State.reg_advance, hm]; rfl, by simp [State.reg_advance]; rfl, rfl, rfl, rfl⟩
  · rw [h]
    constructor <;> rfl
  · rw [h]
    exact restKept_of_fields (by simp) (by simp) (by simp)

/-! ## Assembler spellings (30_encoding.md R114) -/

/-- Run meanings one after the other, taking the bytes of each one after the first as the fetch does. -/
def runForms : List Instr → State → Result
  | [], s => .next s
  | [i], s => exec i s
  | i :: j :: js, s => andThen (exec i s) (thenForm ((encodeBody j).length - 1) (runForms (j :: js)))

/-- An assembler spelling's meaning is the run of its sequence. -/
theorem exec_spelling {i : Instr} (h : i.isCore = false) (s : State) : exec i s = runForms (expand i) s := by
  cases i <;> first | rfl | simp [Instr.isCore] at h

/-- A property of the meanings in a sequence, and of the fetches between them, is one of the sequence. -/
theorem runForms_induction {R : State → State → Prop} {Q : Instr → Prop}
    (fetch : ∀ s k bytes u, k ≤ 2 → s.takeForm k false = .ok (bytes, u) → R s u) (trans : ∀ s t u, R s t → R t u → R s u)
    (core : ∀ i s t, Q i → exec i s = .next t → R s t) (i : Instr) (js : List Instr) (hq : ∀ j ∈ i :: js, Q j) (s t : State)
    (h : runForms (i :: js) s = .next t) : R s t := by
  induction js generalizing i s with
  | nil => exact core _ _ _ (hq i (by simp)) h
  | cons j js ih =>
    obtain ⟨u, hu, h⟩ := andThen_next h
    obtain ⟨bytes, v, hv, h⟩ := thenForm_next h
    have hk : (encodeBody j).length - 1 ≤ 2 := by cases j <;> simp [encodeBody]
    exact trans _ _ _ (core _ _ _ (hq i (by simp)) hu)
      (trans _ _ _ (fetch _ _ _ _ hk hv) (ih j (fun k hk => hq k (by simp [List.mem_cons.1 hk])) v h))

end Sys2Proof.Machine
end

