-- ==== Sys2Proof/Laws/PerInstr.lean ====
section
/-!
SUPPORT. Statements made per instruction: the encoding of every instruction has as many bytes as its row of
spec/opcode_table.json gives it, prefix bytes included.
-/

namespace Sys2Proof.Laws

/-- The length of an instruction in bytes, as its row of the table gives it (a pseudo-instruction's is that of its sequence). -/
def tableLength : Instr → Nat
  | .stop | .nop | .cache | .lsr | .rol | .toReg _ | .withReg _ | .stw _ | .loop | .alt1 | .alt2 | .alt3 | .ldw _
  | .plot | .swap | .color | .notW | .addR _ | .subR _ | .merge | .andR _ | .multR _ | .sbk | .link _ | .sex | .asr
  | .ror | .jmp _ | .lob | .fmult | .fromReg _ | .hib | .orR _ | .inc _ | .getc | .dec _ | .getb | .movewLoad0 _
  | .movewStore0 _ => 1
  | .bra _ | .blt _ | .bge _ | .bne _ | .beq _ | .bpl _ | .bmi _ | .bcc _ | .bcs _ | .bvc _ | .bvs _ | .stb _
  | .ldb _ | .rpix | .cmode | .adcR _ | .addI _ | .adcI _ | .sbcR _ | .subI _ | .cmpR _ | .bicR _ | .andI _ | .bicI _
  | .umultR _ | .multI _ | .umultI _ | .div2 | .ljmp _ | .lmult | .ibt _ _ | .xorR _ | .orI _ | .xorI _ | .ramb
  | .romb | .getbh | .getbl | .getbs | .moveRR _ _ | .moveI8 _ _ | .movesRR _ _ | .movebLoad0 _ | .movebStore0 _
  | .movewLoad _ _ | .movewStore _ _ => 2
  | .lms _ _ | .sms _ _ | .iwt _ _ | .lea _ _ | .moveI16 _ _ | .moveLoadShort _ _ | .moveStoreShort _ _
  | .movebLoad _ _ | .movebStore _ _ => 3
  | .lm _ _ | .sm _ _ | .moveLoad _ _ | .moveStore _ _ => 4

/-- The encoding has the length the table gives. -/
def EncodedLength.Statement (i : Instr) : Prop := (encode i).length = tableLength i

theorem EncodedLength.stop : EncodedLength.Statement (.stop) := rfl
theorem EncodedLength.nop : EncodedLength.Statement (.nop) := rfl
theorem EncodedLength.cache : EncodedLength.Statement (.cache) := rfl
theorem EncodedLength.lsr : EncodedLength.Statement (.lsr) := rfl
theorem EncodedLength.rol : EncodedLength.Statement (.rol) := rfl
theorem EncodedLength.bra (x : _) : EncodedLength.Statement (.bra x) := rfl
theorem EncodedLength.blt (x : _) : EncodedLength.Statement (.blt x) := rfl
theorem EncodedLength.bge (x : _) : EncodedLength.Statement (.bge x) := rfl
theorem EncodedLength.bne (x : _) : EncodedLength.Statement (.bne x) := rfl
theorem EncodedLength.beq (x : _) : EncodedLength.Statement (.beq x) := rfl
theorem EncodedLength.bpl (x : _) : EncodedLength.Statement (.bpl x) := rfl
theorem EncodedLength.bmi (x : _) : EncodedLength.Statement (.bmi x) := rfl
theorem EncodedLength.bcc (x : _) : EncodedLength.Statement (.bcc x) := rfl
theorem EncodedLength.bcs (x : _) : EncodedLength.Statement (.bcs x) := rfl
theorem EncodedLength.bvc (x : _) : EncodedLength.Statement (.bvc x) := rfl
theorem EncodedLength.bvs (x : _) : EncodedLength.Statement (.bvs x) := rfl
theorem EncodedLength.toReg (x : _) : EncodedLength.Statement (.toReg x) := rfl
theorem EncodedLength.withReg (x : _) : EncodedLength.Statement (.withReg x) := rfl
theorem EncodedLength.stw (x : _) : EncodedLength.Statement (.stw x) := rfl
theorem EncodedLength.stb (x : _) : EncodedLength.Statement (.stb x) := rfl
theorem EncodedLength.loop : EncodedLength.Statement (.loop) := rfl
theorem EncodedLength.alt1 : EncodedLength.Statement (.alt1) := rfl
theorem EncodedLength.alt2 : EncodedLength.Statement (.alt2) := rfl
theorem EncodedLength.alt3 : EncodedLength.Statement (.alt3) := rfl
theorem EncodedLength.ldw (x : _) : EncodedLength.Statement (.ldw x) := rfl
theorem EncodedLength.ldb (x : _) : EncodedLength.Statement (.ldb x) := rfl
theorem EncodedLength.plot : EncodedLength.Statement (.plot) := rfl
theorem EncodedLength.rpix : EncodedLength.Statement (.rpix) := rfl
theorem EncodedLength.swap : EncodedLength.Statement (.swap) := rfl
theorem EncodedLength.color : EncodedLength.Statement (.color) := rfl
theorem EncodedLength.cmode : EncodedLength.Statement (.cmode) := rfl
theorem EncodedLength.notW : EncodedLength.Statement (.notW) := rfl
theorem EncodedLength.addR (x : _) : EncodedLength.Statement (.addR x) := rfl
theorem EncodedLength.adcR (x : _) : EncodedLength.Statement (.adcR x) := rfl
theorem EncodedLength.addI (x : _) : EncodedLength.Statement (.addI x) := rfl
theorem EncodedLength.adcI (x : _) : EncodedLength.Statement (.adcI x) := rfl
theorem EncodedLength.subR (x : _) : EncodedLength.Statement (.subR x) := rfl
theorem EncodedLength.sbcR (x : _) : EncodedLength.Statement (.sbcR x) := rfl
theorem EncodedLength.subI (x : _) : EncodedLength.Statement (.subI x) := rfl
theorem EncodedLength.cmpR (x : _) : EncodedLength.Statement (.cmpR x) := rfl
theorem EncodedLength.merge : EncodedLength.Statement (.merge) := rfl
theorem EncodedLength.andR (x : _) : EncodedLength.Statement (.andR x) := rfl
theorem EncodedLength.bicR (x : _) : EncodedLength.Statement (.bicR x) := rfl
theorem EncodedLength.andI (x : _) : EncodedLength.Statement (.andI x) := rfl
theorem EncodedLength.bicI (x : _) : EncodedLength.Statement (.bicI x) := rfl
theorem EncodedLength.multR (x : _) : EncodedLength.Statement (.multR x) := rfl
theorem EncodedLength.umultR (x : _) : EncodedLength.Statement (.umultR x) := rfl
theorem EncodedLength.multI (x : _) : EncodedLength.Statement (.multI x) := rfl
theorem EncodedLength.umultI (x : _) : EncodedLength.Statement (.umultI x) := rfl
theorem EncodedLength.sbk : EncodedLength.Statement (.sbk) := rfl
theorem EncodedLength.link (x : _) : EncodedLength.Statement (.link x) := rfl
theorem EncodedLength.sex : EncodedLength.Statement (.sex) := rfl
theorem EncodedLength.asr : EncodedLength.Statement (.asr) := rfl
theorem EncodedLength.div2 : EncodedLength.Statement (.div2) := rfl
theorem EncodedLength.ror : EncodedLength.Statement (.ror) := rfl
theorem EncodedLength.jmp (x : _) : EncodedLength.Statement (.jmp x) := rfl
theorem EncodedLength.ljmp (x : _) : EncodedLength.Statement (.ljmp x) := rfl
theorem EncodedLength.lob : EncodedLength.Statement (.lob) := rfl
theorem EncodedLength.fmult : EncodedLength.Statement (.fmult) := rfl
theorem EncodedLength.lmult : EncodedLength.Statement (.lmult) := rfl
theorem EncodedLength.ibt (x : _) (y : _) : EncodedLength.Statement (.ibt x y) := rfl
theorem EncodedLength.lms (x : _) (y : _) : EncodedLength.Statement (.lms x y) := rfl
theorem EncodedLength.sms (x : _) (y : _) : EncodedLength.Statement (.sms x y) := rfl
theorem EncodedLength.fromReg (x : _) : EncodedLength.Statement (.fromReg x) := rfl
theorem EncodedLength.hib : EncodedLength.Statement (.hib) := rfl
theorem EncodedLength.orR (x : _) : EncodedLength.Statement (.orR x) := rfl
theorem EncodedLength.xorR (x : _) : EncodedLength.Statement (.xorR x) := rfl
theorem EncodedLength.orI (x : _) : EncodedLength.Statement (.orI x) := rfl
theorem EncodedLength.xorI (x : _) : EncodedLength.Statement (.xorI x) := rfl
theorem EncodedLength.inc (x : _) : EncodedLength.Statement (.inc x) := rfl
theorem EncodedLength.getc : EncodedLength.Statement (.getc) := rfl
theorem EncodedLength.ramb : EncodedLength.Statement (.ramb) := rfl
theorem EncodedLength.romb : EncodedLength.Statement (.romb) := rfl
theorem EncodedLength.dec (x : _) : EncodedLength.Statement (.dec x) := rfl
theorem EncodedLength.getb : EncodedLength.Statement (.getb) := rfl
theorem EncodedLength.getbh : EncodedLength.Statement (.getbh) := rfl
theorem EncodedLength.getbl : EncodedLength.Statement (.getbl) := rfl
theorem EncodedLength.getbs : EncodedLength.Statement (.getbs) := rfl
theorem EncodedLength.iwt (x : _) (y : _) : EncodedLength.Statement (.iwt x y) := rfl
theorem EncodedLength.lm (x : _) (y : _) : EncodedLength.Statement (.lm x y) := rfl
theorem EncodedLength.sm (x : _) (y : _) : EncodedLength.Statement (.sm x y) := rfl
theorem EncodedLength.lea (x : _) (y : _) : EncodedLength.Statement (.lea x y) := rfl
theorem EncodedLength.moveRR (x : _) (y : _) : EncodedLength.Statement (.moveRR x y) := rfl
theorem EncodedLength.moveI8 (x : _) (y : _) : EncodedLength.Statement (.moveI8 x y) := rfl
theorem EncodedLength.moveI16 (x : _) (y : _) : EncodedLength.Statement (.moveI16 x y) := rfl
theorem EncodedLength.moveLoadShort (x : _) (y : _) : EncodedLength.Statement (.moveLoadShort x y) := rfl
theorem EncodedLength.moveLoad (x : _) (y : _) : EncodedLength.Statement (.moveLoad x y) := rfl
theorem EncodedLength.moveStoreShort (x : _) (y : _) : EncodedLength.Statement (.moveStoreShort x y) := rfl
theorem EncodedLength.moveStore (x : _) (y : _) : EncodedLength.Statement (.moveStore x y) := rfl
theorem EncodedLength.movesRR (x : _) (y : _) : EncodedLength.Statement (.movesRR x y) := rfl
theorem EncodedLength.movebLoad0 (x : _) : EncodedLength.Statement (.movebLoad0 x) := rfl
theorem EncodedLength.movebLoad (x : _) (y : _) : EncodedLength.Statement (.movebLoad x y) := rfl
theorem EncodedLength.movebStore0 (x : _) : EncodedLength.Statement (.movebStore0 x) := rfl
theorem EncodedLength.movebStore (x : _) (y : _) : EncodedLength.Statement (.movebStore x y) := rfl
theorem EncodedLength.movewLoad0 (x : _) : EncodedLength.Statement (.movewLoad0 x) := rfl
theorem EncodedLength.movewLoad (x : _) (y : _) : EncodedLength.Statement (.movewLoad x y) := rfl
theorem EncodedLength.movewStore0 (x : _) : EncodedLength.Statement (.movewStore0 x) := rfl
theorem EncodedLength.movewStore (x : _) (y : _) : EncodedLength.Statement (.movewStore x y) := rfl

end Sys2Proof.Laws
end

