-- ==== Sys2Proof/Tests/Slice0.lean ====
section
/-!
SUPPORT. The model's own tests. Expected values are the worked examples printed beside the rules of spec/ (40 to 47) and rows of
spec/95_test_vectors.md; the words of the decode tests are written out from the tables of 30_encoding.md R108, R109 and R114.
The last part shows, for every statement of Obligations.lean that has hypotheses, states and operands that meet them.
-/

namespace Sys2Proof.Tests

open Sys2Proof Sys2Proof.Machine

/-- The reset state with some registers given. -/
def given (l : List (Reg × Word)) : State := l.foldl (fun s p => s.setReg p.1 p.2) State.reset

/-- The outcome is a next state of which `p` holds. -/
def gives (o : Result) (p : State → Bool) : Bool :=
  match o with
  | .next t => p t
  | .fault _ | .refused _ => false

/-- The reason of a refusal. -/
def refusal (o : Result) : Option Refusal :=
  match o with
  | .refused r => some r
  | .next _ | .fault _ => none

/-- s, z, c and v. -/
def flags (t : State) : Bool × Bool × Bool × Bool := (t.sf, t.zf, t.cf, t.vf)

/-- The RAM bytes at some addresses. -/
def ramOf (l : List Host.Cell) : Memory := l.foldl (fun m c => Memory.write m c.1 c.2) []

/-! ## WellFormed: each check refuses an ill-formed term (R115, R114) -/

theorem test_wf_address_register : (Instr.ldw 12).wf = false ∧ (Instr.stb 11).wf = true := by decide
theorem test_wf_logic_register : (Instr.andR 0).wf = false ∧ (Instr.xorR 15).wf = true := by decide
theorem test_wf_logic_immediate : (Instr.orI 0).wf = false ∧ (Instr.bicI 15).wf = true := by decide
theorem test_wf_count_register : (Instr.inc 15).wf = false ∧ (Instr.dec 14).wf = true := by decide
theorem test_wf_jump_register : (Instr.jmp 7).wf = false ∧ (Instr.ljmp 14).wf = false ∧ (Instr.jmp 13).wf = true := by decide
theorem test_wf_link : (Instr.link 0).wf = false ∧ (Instr.link 5).wf = false ∧ (Instr.link 4).wf = true := by decide
theorem test_wf_short_address : (Instr.moveLoadShort 1 3).wf = false ∧ (Instr.moveStoreShort 1 510).wf = true := by decide
theorem test_wf_move_byte_register : (Instr.movebLoad 0 1).wf = false ∧ (Instr.movebLoad 1 12).wf = false := by decide
theorem test_wf_move_word_register : (Instr.movewStore 0 1).wf = false ∧ (Instr.movewStore 15 11).wf = true := by decide

/-! ## Decode: a word of every constructor, from the tables of R108 and R109 -/

theorem test_decode_row0 :
    decode .none [0x00] = .ok (.stop, []) ∧ decode .none [0x01] = .ok (.nop, []) ∧ decode .none [0x02] = .ok (.cache, []) ∧
      decode .none [0x03] = .ok (.lsr, []) ∧ decode .none [0x04] = .ok (.rol, []) := ⟨rfl, rfl, rfl, rfl, rfl⟩
theorem test_decode_branches :
    decode .none [0x05, 0xfe] = .ok (.bra 0xfe, []) ∧ decode .none [0x06, 0x02] = .ok (.blt 2, []) ∧
      decode .one [0x07, 0x02] = .ok (.bge 2, []) ∧ decode .none [0x08, 0x7f] = .ok (.bne 0x7f, []) ∧
      decode .two [0x09, 0x03] = .ok (.beq 3, []) ∧ decode .none [0x0a, 0x02] = .ok (.bpl 2, []) ∧
      decode .none [0x0b, 0x80] = .ok (.bmi 0x80, []) ∧ decode .three [0x0c, 0x02] = .ok (.bcc 2, []) ∧
      decode .none [0x0d, 0x02] = .ok (.bcs 2, []) ∧ decode .none [0x0e, 0x02] = .ok (.bvc 2, []) ∧
      decode .none [0x0f, 0x02, 0x01] = .ok (.bvs 2, [0x01]) := ⟨rfl, rfl, rfl, rfl, rfl, rfl, rfl, rfl, rfl, rfl, rfl⟩
theorem test_decode_prefixes :
    decode .none [0x12] = .ok (.toReg 2, []) ∧ decode .one [0x25] = .ok (.withReg 5, []) ∧
      decode .three [0xb2] = .ok (.fromReg 2, []) ∧ decode .none [0x3d] = .ok (.alt1, []) ∧
      decode .one [0x3e] = .ok (.alt2, []) ∧ decode .two [0x3f] = .ok (.alt3, []) := ⟨rfl, rfl, rfl, rfl, rfl, rfl⟩
theorem test_decode_row3 :
    decode .none [0x31] = .ok (.stw 1, []) ∧ decode .one [0x33] = .ok (.stb 3, []) ∧ decode .none [0x3b] = .ok (.stw 11, []) ∧
      decode .none [0x3c] = .ok (.loop, []) := ⟨rfl, rfl, rfl, rfl⟩
theorem test_decode_row4 :
    decode .none [0x42] = .ok (.ldw 2, []) ∧ decode .one [0x41] = .ok (.ldb 1, []) ∧ decode .none [0x4c] = .ok (.plot, []) ∧
      decode .one [0x4c] = .ok (.rpix, []) ∧ decode .none [0x4d] = .ok (.swap, []) ∧ decode .none [0x4e] = .ok (.color, []) ∧
      decode .one [0x4e] = .ok (.cmode, []) ∧ decode .none [0x4f] = .ok (.notW, []) := ⟨rfl, rfl, rfl, rfl, rfl, rfl, rfl, rfl⟩
theorem test_decode_add_sub :
    decode .none [0x54] = .ok (.addR 4, []) ∧ decode .one [0x50] = .ok (.adcR 0, []) ∧ decode .two [0x53] = .ok (.addI 3, []) ∧
      decode .three [0x5f] = .ok (.adcI 15, []) ∧ decode .none [0x61] = .ok (.subR 1, []) ∧
      decode .one [0x61] = .ok (.sbcR 1, []) ∧ decode .two [0x61] = .ok (.subI 1, []) ∧
      decode .three [0x61] = .ok (.cmpR 1, []) := ⟨rfl, rfl, rfl, rfl, rfl, rfl, rfl, rfl⟩
theorem test_decode_row7 :
    decode .none [0x70] = .ok (.merge, []) ∧ decode .none [0x71] = .ok (.andR 1, []) ∧ decode .one [0x7f] = .ok (.bicR 15, []) ∧
      decode .two [0x76] = .ok (.andI 6, []) ∧ decode .three [0x7f] = .ok (.bicI 15, []) := ⟨rfl, rfl, rfl, rfl, rfl⟩
theorem test_decode_row8 :
    decode .none [0x81] = .ok (.multR 1, []) ∧ decode .one [0x82] = .ok (.umultR 2, []) ∧
      decode .two [0x8f] = .ok (.multI 15, []) ∧ decode .three [0x80] = .ok (.umultI 0, []) := ⟨rfl, rfl, rfl, rfl⟩
theorem test_decode_row9 :
    decode .none [0x90] = .ok (.sbk, []) ∧ decode .none [0x94] = .ok (.link 4, []) ∧ decode .none [0x95] = .ok (.sex, []) ∧
      decode .none [0x96] = .ok (.asr, []) ∧ decode .one [0x96] = .ok (.div2, []) ∧ decode .none [0x97] = .ok (.ror, []) ∧
      decode .none [0x99] = .ok (.jmp 9, []) ∧ decode .one [0x9d] = .ok (.ljmp 13, []) ∧ decode .none [0x9e] = .ok (.lob, []) ∧
      decode .none [0x9f] = .ok (.fmult, []) ∧ decode .one [0x9f] = .ok (.lmult, []) :=
  ⟨rfl, rfl, rfl, rfl, rfl, rfl, rfl, rfl, rfl, rfl, rfl⟩
theorem test_decode_rowA :
    decode .none [0xa3, 0xfe] = .ok (.ibt 3 0xfe, []) ∧ decode .one [0xa3, 0x10] = .ok (.lms 3 0x10, []) ∧
      decode .two [0xa2, 0xff] = .ok (.sms 2 0xff, []) := ⟨rfl, rfl, rfl⟩
theorem test_decode_rowC :
    decode .none [0xc0] = .ok (.hib, []) ∧ decode .none [0xc1] = .ok (.orR 1, []) ∧ decode .one [0xc1] = .ok (.xorR 1, []) ∧
      decode .two [0xc1] = .ok (.orI 1, []) ∧ decode .three [0xcf] = .ok (.xorI 15, []) := ⟨rfl, rfl, rfl, rfl, rfl⟩
theorem test_decode_rowD :
    decode .none [0xde] = .ok (.inc 14, []) ∧ decode .two [0xd0] = .ok (.inc 0, []) ∧ decode .none [0xdf] = .ok (.getc, []) ∧
      decode .two [0xdf] = .ok (.ramb, []) ∧ decode .three [0xdf] = .ok (.romb, []) := ⟨rfl, rfl, rfl, rfl, rfl⟩
theorem test_decode_rowE :
    decode .none [0xe3] = .ok (.dec 3, []) ∧ decode .none [0xef] = .ok (.getb, []) ∧ decode .one [0xef] = .ok (.getbh, []) ∧
      decode .two [0xef] = .ok (.getbl, []) ∧ decode .three [0xef] = .ok (.getbs, []) := ⟨rfl, rfl, rfl, rfl, rfl⟩
theorem test_decode_rowF :
    decode .none [0xf1, 0x34, 0x12] = .ok (.iwt 1 0x1234, []) ∧ decode .one [0xf5, 0x00, 0x10] = .ok (.lm 5 0x1000, []) ∧
      decode .two [0xf7, 0x00, 0x20] = .ok (.sm 7 0x2000, []) := ⟨rfl, rfl, rfl⟩

/-- The bytes R114 and 43_immediate_move.md print for the assembler spellings. -/
theorem test_encode_spellings :
    encode (.lea 9 0x01abcd) = [0xf9, 0xcd, 0xab] ∧ encode (.moveRR 2 5) = [0x25, 0x12] ∧ encode (.moveI8 3 0xfe) = [0xa3, 0xfe] ∧
      encode (.moveI16 1 0x1234) = [0xf1, 0x34, 0x12] ∧ encode (.moveLoadShort 3 0x20) = [0x3d, 0xa3, 0x10] ∧
      encode (.moveLoad 5 0x1000) = [0x3d, 0xf5, 0x00, 0x10] ∧ encode (.moveStoreShort 2 0x1fe) = [0x3e, 0xa2, 0xff] ∧
      encode (.moveStore 7 0x2000) = [0x3e, 0xf7, 0x00, 0x20] ∧ encode (.movesRR 1 2) = [0x21, 0xb2] := by decide
theorem test_encode_byte_and_word_moves :
    encode (.movebLoad0 5) = [0x3d, 0x45] ∧ encode (.movebLoad 3 5) = [0x13, 0x3d, 0x45] ∧ encode (.movebStore0 5) = [0x3d, 0x35] ∧
      encode (.movebStore 3 5) = [0xb3, 0x3d, 0x35] ∧ encode (.movewLoad0 4) = [0x44] ∧ encode (.movewLoad 7 4) = [0x17, 0x44] ∧
      encode (.movewStore0 4) = [0x34] ∧ encode (.movewStore 7 4) = [0xb7, 0x34] := by decide
/-- Each spelling's bytes decode to its sequence. -/
theorem test_decode_spellings :
    disassemble 2 .none [0x25, 0x12] = .ok [.withReg 5, .toReg 2] ∧ disassemble 2 .none [0x21, 0xb2] = .ok [.withReg 1, .fromReg 2] ∧
      disassemble 2 .none [0x3d, 0xa3, 0x10] = .ok [.alt1, .lms 3 0x10] ∧
      disassemble 2 .none [0x3d, 0xf5, 0x00, 0x10] = .ok [.alt1, .lm 5 0x1000] ∧
      disassemble 2 .none [0x3e, 0xa2, 0xff] = .ok [.alt2, .sms 2 0xff] ∧
      disassemble 2 .none [0x3e, 0xf7, 0x00, 0x20] = .ok [.alt2, .sm 7 0x2000] ∧
      disassemble 3 .none [0x13, 0x3d, 0x45] = .ok [.toReg 3, .alt1, .ldb 5] ∧
      disassemble 3 .none [0xb3, 0x3d, 0x35] = .ok [.fromReg 3, .alt1, .stb 5] ∧
      disassemble 2 .none [0x3d, 0x45] = .ok [.alt1, .ldb 5] ∧ disassemble 2 .none [0x3d, 0x35] = .ok [.alt1, .stb 5] ∧
      disassemble 2 .none [0x17, 0x44] = .ok [.toReg 7, .ldw 4] ∧ disassemble 2 .none [0xb7, 0x34] = .ok [.fromReg 7, .stw 4] :=
  ⟨rfl, rfl, rfl, rfl, rfl, rfl, rfl, rfl, rfl, rfl, rfl, rfl⟩

/-- Blanks of the tables (R111; 95_test_vectors.md 2.10). -/
theorem test_decode_blanks :
    decode .one [0x70] = .error .undefinedAltForm ∧ decode .two [0x40] = .error .undefinedAltForm ∧
      decode .three [0xa0, 0x00] = .error .undefinedAltForm ∧ decode .one [0xdf] = .error .undefinedAltForm ∧
      decode .one [0xe1] = .error .undefinedAltForm ∧ decode .one [0x02] = .error .undefinedAltForm ∧
      decode .two [0x98] = .error .undefinedAltForm := ⟨rfl, rfl, rfl, rfl, rfl, rfl, rfl⟩

theorem test_table_word : decodeTableWord 24 0x1234f1 = some (.iwt 1 0x1234) ∧ decodeTableWord 8 0x7ff90 = some .sbk := ⟨rfl, rfl⟩

/-! ## Reset and the step -/

theorem test_reset_runs_the_launch_nop :
    gives (step State.reset) (fun t => t.reg 15 = 1 ∧ t.pipe = 0 ∧ t.go) = true := by decide
theorem test_with_fetch_word :
    gives (step (State.reset.withFetchWord 24 0x1234f1)) (fun t => t.reg 1 = 0x1234 ∧ t.reg 15 = 3) = true := by decide
theorem test_step_after_stop : step { State.reset with go := false } = .fault .stopped := rfl

/-! ## Prefixes and moves (40_prefix.md, 43_immediate_move.md) -/

theorem test_alt1 :
    gives (exec (.alt1) { given [] with alt2 := true })
      (fun t => t.alt1 ∧ t.alt2 ∧ t.reg 15 = 1) = true := by decide
theorem test_alt2 : gives (exec (.alt2) (given [(15, 0xffff)])) (fun t => !t.alt1 ∧ t.alt2 ∧ t.reg 15 = 0) = true := by decide
theorem test_alt3 :
    gives (exec (.alt3) { given [] with b := true, sreg := 3, dreg := 3 })
      (fun t => t.alt1 ∧ t.alt2 ∧ t.b ∧ t.sreg = 3) = true := by decide
theorem test_with :
    gives (exec (.withReg 3) { given [] with alt1 := true })
      (fun t => t.sreg = 3 ∧ t.dreg = 3 ∧ t.b ∧ t.alt1) = true := by decide
theorem test_to_names :
    gives (exec (.toReg 2) { given [] with sreg := 3 })
      (fun t => t.dreg = 2 ∧ t.sreg = 3 ∧ !t.b) = true := by decide
theorem test_to_moves :
    gives (exec (.toReg 2) { given [(5, 0x1234)] with b := true, sreg := 5, dreg := 5 })
      (fun t => t.reg 2 = 0x1234 ∧ t.sreg = 0 ∧ t.dreg = 0 ∧ !t.b) = true := by decide
theorem test_from_names :
    gives (exec (.fromReg 3) { given [] with dreg := 2 })
      (fun t => t.sreg = 3 ∧ t.dreg = 2) = true := by decide
theorem test_from_moves :
    gives (exec (.fromReg 2) { given [(2, 0x80ff)] with b := true, sreg := 1, dreg := 1, cf := true })
      (fun t => t.reg 1 = 0x80ff ∧ flags t = (true, false, true, true) ∧ !t.b) = true := by decide
theorem test_ibt :
    gives (exec (.ibt 3 0xfe) (given []))
      (fun t => t.reg 3 = 0xfffe ∧ flags t = (false, false, false, false)) = true := by decide
theorem test_iwt :
    gives (exec (.iwt 1 0x1234) { given [] with zf := true })
      (fun t => t.reg 1 = 0x1234 ∧ flags t = (false, true, false, false)) = true := by decide
theorem test_iwt_jumps : gives (exec (.iwt 15 0x9000) (given [(15, 0x8003)])) (fun t => t.reg 15 = 0x9000) = true := by decide
theorem test_lea : gives (exec (.lea 9 0x01abcd) (given [])) (fun t => t.reg 9 = 0xabcd) = true := by decide
theorem test_moveI8 : gives (exec (.moveI8 3 0x80) (given [])) (fun t => t.reg 3 = 0xff80) = true := by decide
theorem test_moveI16 : gives (exec (.moveI16 1 0x1234) (given [])) (fun t => t.reg 1 = 0x1234) = true := by decide
theorem test_moveRR :
    gives (exec (.moveRR 2 5) (given [(5, 0x1234)]))
      (fun t => t.reg 2 = 0x1234 ∧ t.reg 15 = 2 ∧ t.dreg = 0) = true := by decide
theorem test_movesRR :
    gives (exec (.movesRR 1 2) (given [(1, 5)]))
      (fun t => t.reg 1 = 0 ∧ flags t = (false, true, false, false)) = true := by decide
theorem test_moveLoadShort :
    gives (exec (.moveLoadShort 3 0x20) { given [] with ram := ramOf [(0x20, 0x78), (0x21, 0x56)] })
      (fun t => t.reg 3 = 0x5678 ∧ t.reg 15 = 3 ∧ t.lastram = 0x20) = true := by decide
theorem test_moveLoad :
    gives (exec (.moveLoad 5 0x1000) { given [] with ram := ramOf [(0x1000, 0xcd), (0x1001, 0xab)] })
      (fun t => t.reg 5 = 0xabcd ∧ t.reg 15 = 4 ∧ !t.alt1) = true := by decide
theorem test_moveStoreShort :
    gives (exec (.moveStoreShort 2 0x1fe) (given [(2, 0xa55a)]))
      (fun t => t.ramByte 0x1fe = 0x5a ∧ t.ramByte 0x1ff = 0xa5) = true := by decide
theorem test_moveStore :
    gives (exec (.moveStore 7 0x2000) (given [(7, 0x0102)]))
      (fun t => t.ramByte 0x2000 = 2 ∧ t.ramByte 0x2001 = 1 ∧ t.lastram = 0x2000) = true := by decide
theorem test_movebLoad :
    gives (exec (.movebLoad 3 5) { given [(5, 0x100)] with ram := ramOf [(0x100, 0x9c)] })
      (fun t => t.reg 3 = 0x9c ∧ t.reg 15 = 3) = true := by decide
theorem test_movebLoad0 :
    gives (exec (.movebLoad0 5) { given [(5, 0x100)] with ram := ramOf [(0x100, 0x9c)] })
      (fun t => t.reg 0 = 0x9c ∧ t.reg 15 = 2) = true := by decide
theorem test_movebStore :
    gives (exec (.movebStore 3 5) (given [(5, 0x101), (3, 0x12ab)]))
      (fun t => t.ramByte 0x101 = 0xab ∧ t.ramByte 0x100 = 0) = true := by decide
theorem test_movebStore0 :
    gives (exec (.movebStore0 5) (given [(5, 0x101), (0, 0x12ab)]))
      (fun t => t.ramByte 0x101 = 0xab) = true := by decide
theorem test_movewLoad :
    gives (exec (.movewLoad 7 4) { given [(4, 0x200)] with ram := ramOf [(0x200, 0xef), (0x201, 0xbe)] })
      (fun t => t.reg 7 = 0xbeef ∧ t.reg 0 = 0) = true := by decide
theorem test_movewLoad0 :
    gives (exec (.movewLoad0 4) { given [(4, 0x200)] with ram := ramOf [(0x200, 0xef), (0x201, 0xbe)] })
      (fun t => t.reg 0 = 0xbeef) = true := by decide
theorem test_movewStore :
    gives (exec (.movewStore 7 4) (given [(4, 0x200), (7, 0xbeef)]))
      (fun t => t.ramByte 0x200 = 0xef ∧ t.ramByte 0x201 = 0xbe) = true := by decide
theorem test_movewStore0 :
    gives (exec (.movewStore0 4) (given [(4, 0x200), (0, 0xbeef)]))
      (fun t => t.ramByte 0x200 = 0xef ∧ t.ramByte 0x201 = 0xbe) = true := by decide

/-! ## Arithmetic (41_arithmetic.md) -/

theorem test_adcR :
    gives (exec (.adcR 1) { given [(0, 0xffff), (1, 1)] with cf := true })
      (fun t => t.reg 0 = 1 ∧ flags t = (false, false, true, false)) = true := by decide
theorem test_adcI :
    gives (exec (.adcI 15) { given [(3, 0x7ff0)] with cf := true, sreg := 3, dreg := 4 })
      (fun t => t.reg 4 = 0x8000 ∧ flags t = (true, false, false, true)) = true := by decide
theorem test_addI :
    gives (exec (.addI 1) (given [(0, 0x7fff)]))
      (fun t => t.reg 0 = 0x8000 ∧ flags t = (true, false, false, true)) = true := by decide
theorem test_addR :
    gives (exec (.addR 4) { given [(3, 5), (4, 6)] with sreg := 3, dreg := 3, b := true })
      (fun t => t.reg 3 = 11 ∧ t.sreg = 0) = true := by decide
theorem test_cmpR :
    gives (exec (.cmpR 1) (given [(0, 5), (1, 5)]))
      (fun t => t.reg 0 = 5 ∧ flags t = (false, true, true, false)) = true := by decide
theorem test_cmp_overflow :
    gives (exec (.cmpR 1) (given [(0, 0x8000), (1, 1)]))
      (fun t => flags t = (false, false, true, true)) = true := by decide
theorem test_dec :
    gives (exec (.dec 3) (given []))
      (fun t => t.reg 3 = 0xffff ∧ flags t = (true, false, false, false)) = true := by decide
theorem test_inc_r14 :
    gives (exec (.inc 14) { given [(14, 0x8000)] with rom := ramOf [(0x8001, 0x77)] })
      (fun t => t.reg 14 = 0x8001 ∧ t.rombuf = 0x77 ∧ t.sf) = true := by decide
theorem test_fmult :
    gives (exec (.fmult) (given [(0, 0x4000), (6, 0x4000)]))
      (fun t => t.reg 0 = 0x1000 ∧ flags t = (false, false, false, false)) = true := by decide
theorem test_lmult :
    gives (exec (.lmult) (given [(0, 3), (6, 0x8000)]))
      (fun t => t.reg 0 = 0xfffe ∧ t.reg 4 = 0x8000 ∧ flags t = (true, false, true, false)) = true := by decide
theorem test_multR :
    gives (exec (.multR 1) (given [(0, 0x12ff), (1, 2)]))
      (fun t => t.reg 0 = 0xfffe ∧ flags t = (true, false, false, false)) = true := by decide
theorem test_multI : gives (exec (.multI 15) (given [(0, 0x80)])) (fun t => t.reg 0 = 0xf880) = true := by decide
theorem test_sbcR :
    gives (exec (.sbcR 1) (given [(0, 5), (1, 3)]))
      (fun t => t.reg 0 = 1 ∧ flags t = (false, false, true, false)) = true := by decide
theorem test_subI :
    gives (exec (.subI 1) (given []))
      (fun t => t.reg 0 = 0xffff ∧ flags t = (true, false, false, false)) = true := by decide
theorem test_subR :
    gives (exec (.subR 0) (given [(0, 0x1234)]))
      (fun t => t.reg 0 = 0 ∧ flags t = (false, true, true, false)) = true := by decide
theorem test_umultR :
    gives (exec (.umultR 2) (given [(0, 0xff), (2, 0xff)]))
      (fun t => t.reg 0 = 0xfe01 ∧ flags t = (true, false, false, false)) = true := by decide
theorem test_umultI : gives (exec (.umultI 15) (given [(0, 0x1210)])) (fun t => t.reg 0 = 0xf0) = true := by decide

/-! ## Logic, shifts and bytes (42_logic_shift.md) -/

theorem test_andI :
    gives (exec (.andI 6) (given [(0, 0xf0f5)]))
      (fun t => t.reg 0 = 4 ∧ flags t = (false, false, false, false)) = true := by decide
theorem test_andR : gives (exec (.andR 1) (given [(0, 0xff00), (1, 0x00ff)])) (fun t => t.reg 0 = 0 ∧ t.zf) = true := by decide
theorem test_bicI :
    gives (exec (.bicI 15) (given [(0, 0xffff)]))
      (fun t => t.reg 0 = 0xfff0 ∧ flags t = (true, false, false, false)) = true := by decide
theorem test_bicR : gives (exec (.bicR 1) (given [(0, 0xff0f), (1, 0xf00f)])) (fun t => t.reg 0 = 0x0f00) = true := by decide
theorem test_orI :
    gives (exec (.orI 1) (given [(0, 0x8000)]))
      (fun t => t.reg 0 = 0x8001 ∧ flags t = (true, false, false, false)) = true := by decide
theorem test_orR : gives (exec (.orR 1) (given [(0, 0x00f0), (1, 0x0f00)])) (fun t => t.reg 0 = 0x0ff0) = true := by decide
theorem test_xorR :
    gives (exec (.xorR 1) (given [(0, 0x00ff), (1, 0x0ff0)]))
      (fun t => t.reg 0 = 0x0f0f ∧ flags t = (false, false, false, false)) = true := by decide
theorem test_xorI : gives (exec (.xorI 15) (given [(0, 0x000f)])) (fun t => t.reg 0 = 0 ∧ t.zf) = true := by decide
theorem test_not :
    gives (exec (.notW) (given [(0, 0x00ff)]))
      (fun t => t.reg 0 = 0xff00 ∧ flags t = (true, false, false, false)) = true := by decide
theorem test_asr :
    gives (exec (.asr) (given [(0, 0x8001)]))
      (fun t => t.reg 0 = 0xc000 ∧ flags t = (true, false, true, false)) = true := by decide
theorem test_div2 :
    gives (exec (.div2) (given [(0, 0xffff)]))
      (fun t => t.reg 0 = 0 ∧ flags t = (false, true, true, false)) = true := by decide
theorem test_lsr :
    gives (exec (.lsr) (given [(0, 0x8002)]))
      (fun t => t.reg 0 = 0x4001 ∧ flags t = (false, false, false, false)) = true := by decide
theorem test_rol :
    gives (exec (.rol) { given [(0, 0x8000)] with cf := true })
      (fun t => t.reg 0 = 1 ∧ flags t = (false, false, true, false)) = true := by decide
theorem test_ror :
    gives (exec (.ror) (given [(0, 1)]))
      (fun t => t.reg 0 = 0 ∧ flags t = (false, true, true, false)) = true := by decide
theorem test_hib :
    gives (exec (.hib) (given [(0, 0x8012)]))
      (fun t => t.reg 0 = 0x80 ∧ flags t = (true, false, false, false)) = true := by decide
theorem test_lob :
    gives (exec (.lob) (given [(0, 0x1280)]))
      (fun t => t.reg 0 = 0x80 ∧ flags t = (true, false, false, false)) = true := by decide
theorem test_sex :
    gives (exec (.sex) (given [(0, 0x80)]))
      (fun t => t.reg 0 = 0xff80 ∧ flags t = (true, false, false, false)) = true := by decide
theorem test_swap :
    gives (exec (.swap) (given [(0, 0x1234)]))
      (fun t => t.reg 0 = 0x3412 ∧ flags t = (false, false, false, false)) = true := by decide
theorem test_merge :
    gives (exec (.merge) (given [(7, 0x12ab), (8, 0x34cd)]))
      (fun t => t.reg 0 = 0x1234 ∧ flags t = (false, true, true, false)) = true := by decide

/-! ## RAM (44_load_store.md) -/

theorem test_ldb :
    gives (exec (.ldb 1) { given [(1, 0x101)] with ram := ramOf [(0x101, 0xf0)] })
      (fun t => t.reg 0 = 0xf0 ∧ t.lastram = 0x101) = true := by decide
theorem test_ldw :
    gives (exec (.ldw 2) { given [(2, 0x200)] with ram := ramOf [(0x200, 0x34), (0x201, 0x12)] })
      (fun t => t.reg 0 = 0x1234) = true := by decide
theorem test_ldw_odd :
    gives (exec (.ldw 2) { given [(2, 0x201)] with ram := ramOf [(0x200, 0x34), (0x201, 0x12)] })
      (fun t => t.reg 0 = 0x1234) = true := by decide
theorem test_lm :
    gives (exec (.lm 5 0x1000) { given [] with ram := ramOf [(0x1000, 0xcd), (0x1001, 0xab)] })
      (fun t => t.reg 5 = 0xabcd) = true := by decide
theorem test_lms :
    gives (exec (.lms 3 0x10) { given [] with ram := ramOf [(0x20, 0x78), (0x21, 0x56)] })
      (fun t => t.reg 3 = 0x5678) = true := by decide
theorem test_ramb : gives (exec (.ramb) (given [(0, 1)])) (fun t => t.rambr = 1) = true := by decide
theorem test_stb :
    gives (exec (.stb 3) (given [(0, 0x12ab), (3, 0x300)]))
      (fun t => t.ramByte 0x300 = 0xab ∧ t.ramByte 0x301 = 0) = true := by decide
theorem test_stw :
    gives (exec (.stw 1) (given [(0, 0xbeef), (1, 0x400)]))
      (fun t => t.ramByte 0x400 = 0xef ∧ t.ramByte 0x401 = 0xbe) = true := by decide
theorem test_stw_odd :
    gives (exec (.stw 1) { given [(0, 0xbeef), (1, 0x401)] with rambr := 1 })
      (fun t => t.ramByte 0x10401 = 0xef ∧ t.ramByte 0x10400 = 0xbe) = true := by decide
theorem test_sm :
    gives (exec (.sm 7 0x2000) (given [(7, 0x102)]))
      (fun t => t.ramByte 0x2000 = 2 ∧ t.ramByte 0x2001 = 1) = true := by decide
theorem test_sms :
    gives (exec (.sms 2 0xff) (given [(2, 0xa55a)]))
      (fun t => t.ramByte 0x1fe = 0x5a ∧ t.ramByte 0x1ff = 0xa5) = true := by decide
/-- SBK with no RAM access before it in the run goes on, at the free address (notes/assumptions/6.md). -/
theorem test_sbk_before_any_access : ∃ t, exec .sbk (given [(0, 0x1234)]) = .next t ∧ t.reg 15 = 1 := ⟨_, rfl, rfl⟩

theorem test_sbk :
    gives (exec (.sbk) { given [(0, 0x100)] with lastram := 0x20, lastramSet := true })
      (fun t => t.ramByte 0x20 = 0 ∧ t.ramByte 0x21 = 1 ∧ t.lastram = 0x20) = true := by decide

/-! ## ROM (45_rom.md) -/

theorem test_getb :
    gives (exec (.getb) { given [] with rombuf := 0x9c, romStatus := .loaded })
      (fun t => t.reg 0 = 0x9c) = true := by decide
theorem test_getbh :
    gives (exec (.getbh) { given [(0, 0x34)] with rombuf := 0x12, romStatus := .loaded })
      (fun t => t.reg 0 = 0x1234) = true := by decide
theorem test_getbl :
    gives (exec (.getbl) { given [(0, 0xab00)] with rombuf := 0xcd, romStatus := .loaded })
      (fun t => t.reg 0 = 0xabcd) = true := by decide
theorem test_getbs :
    gives (exec (.getbs) { given [] with rombuf := 0xfe, romStatus := .loaded })
      (fun t => t.reg 0 = 0xfffe) = true := by decide
theorem test_getc :
    gives (exec (.getc) { given [] with rombuf := 0x3a, romStatus := .loaded })
      (fun t => t.colr = 0x3a) = true := by decide
theorem test_romb :
    gives (exec (.romb) { given [(0, 2)] with rombuf := 0x55, romStatus := .loaded })
      (fun t => t.rombr = 2 ∧ t.rombuf = 0x55) = true := by decide

/-! ## Control (46_control.md) -/

theorem test_bra : gives (exec (.bra 0xfe) (given [(15, 0x8002)])) (fun t => t.reg 15 = 0x8000) = true := by decide
theorem test_blt : gives (exec (.blt 3) { given [(15, 0x8002)] with vf := true }) (fun t => t.reg 15 = 0x8005) = true := by decide
theorem test_blt_not :
    gives (exec (.blt 3) { given [(15, 0x8002)] with sf := true, vf := true })
      (fun t => t.reg 15 = 0x8003) = true := by decide
theorem test_bge :
    gives (exec (.bge 3) { given [(15, 0x8002)] with sf := true, vf := true })
      (fun t => t.reg 15 = 0x8005) = true := by decide
theorem test_bge_not :
    gives (exec (.bge 3) { given [(15, 0x8002)] with vf := true })
      (fun t => t.reg 15 = 0x8003) = true := by decide
theorem test_bne :
    gives (exec (.bne 3) { given [(15, 0x8002)] with zf := false })
      (fun t => t.reg 15 = 0x8005) = true := by decide
theorem test_bne_not :
    gives (exec (.bne 3) { given [(15, 0x8002)] with zf := true })
      (fun t => t.reg 15 = 0x8003) = true := by decide
theorem test_beq : gives (exec (.beq 3) { given [(15, 0x8002)] with zf := true }) (fun t => t.reg 15 = 0x8005) = true := by decide
theorem test_beq_not :
    gives (exec (.beq 3) { given [(15, 0x8002)] with zf := false })
      (fun t => t.reg 15 = 0x8003) = true := by decide
theorem test_bpl :
    gives (exec (.bpl 3) { given [(15, 0x8002)] with sf := false })
      (fun t => t.reg 15 = 0x8005) = true := by decide
theorem test_bpl_not :
    gives (exec (.bpl 3) { given [(15, 0x8002)] with sf := true })
      (fun t => t.reg 15 = 0x8003) = true := by decide
theorem test_bmi : gives (exec (.bmi 3) { given [(15, 0x8002)] with sf := true }) (fun t => t.reg 15 = 0x8005) = true := by decide
theorem test_bmi_not :
    gives (exec (.bmi 3) { given [(15, 0x8002)] with sf := false })
      (fun t => t.reg 15 = 0x8003) = true := by decide
theorem test_bcc :
    gives (exec (.bcc 3) { given [(15, 0x8002)] with cf := false })
      (fun t => t.reg 15 = 0x8005) = true := by decide
theorem test_bcc_not :
    gives (exec (.bcc 3) { given [(15, 0x8002)] with cf := true })
      (fun t => t.reg 15 = 0x8003) = true := by decide
theorem test_bcs : gives (exec (.bcs 3) { given [(15, 0x8002)] with cf := true }) (fun t => t.reg 15 = 0x8005) = true := by decide
theorem test_bcs_not :
    gives (exec (.bcs 3) { given [(15, 0x8002)] with cf := false })
      (fun t => t.reg 15 = 0x8003) = true := by decide
theorem test_bvc :
    gives (exec (.bvc 3) { given [(15, 0x8002)] with vf := false })
      (fun t => t.reg 15 = 0x8005) = true := by decide
theorem test_bvc_not :
    gives (exec (.bvc 3) { given [(15, 0x8002)] with vf := true })
      (fun t => t.reg 15 = 0x8003) = true := by decide
theorem test_bvs : gives (exec (.bvs 3) { given [(15, 0x8002)] with vf := true }) (fun t => t.reg 15 = 0x8005) = true := by decide
theorem test_bvs_not :
    gives (exec (.bvs 3) { given [(15, 0x8002)] with vf := false })
      (fun t => t.reg 15 = 0x8003) = true := by decide
theorem test_cache :
    gives (exec (.cache) { given [(15, 0x8001)] with cacheFlags := [3] })
      (fun t => t.cbr = 0x8001 ∧ t.cacheFlags = []) = true := by decide
theorem test_jmp : gives (exec (.jmp 9) (given [(9, 0x9000), (15, 0x8011)])) (fun t => t.reg 15 = 0x9000) = true := by decide
theorem test_link : gives (exec (.link 4) (given [(15, 0x8001)])) (fun t => t.reg 11 = 0x8005) = true := by decide
theorem test_ljmp :
    gives (exec (.ljmp 9) { given [(0, 2), (9, 0x8000), (15, 0x9011)] with pbr := 1 })
      (fun t => t.pbr = 2 ∧ t.reg 15 = 0x8000) = true := by decide
theorem test_loop :
    gives (exec (.loop) (given [(12, 2), (13, 0x8005), (15, 0x8011)]))
      (fun t => t.reg 12 = 1 ∧ t.reg 15 = 0x8005 ∧ !t.zf ∧ !t.sf) = true := by decide
theorem test_loop_ends :
    gives (exec (.loop) (given [(12, 1), (13, 0x8005), (15, 0x8011)]))
      (fun t => t.reg 12 = 0 ∧ t.reg 15 = 0x8012 ∧ t.zf) = true := by decide
theorem test_nop :
    gives (exec (.nop) { given [] with sreg := 3, dreg := 3, b := true })
      (fun t => t.sreg = 0 ∧ t.dreg = 0 ∧ !t.b) = true := by decide
theorem test_stop :
    gives (exec (.stop) { given [] with ramBuf := [(0x400, 0xef)], plotBuf := [(5, 7)] })
      (fun t => t.ram = [(0x400, 0xef)] ∧ t.pix = [(5, 7)] ∧ !t.go ∧ t.hostIrqs = 1) = true := by decide

/-! ## Pixels (47_plot.md) -/

theorem test_cmode : gives (exec (.cmode) (given [(0, 0x13)])) (fun t => t.por = 3) = true := by decide
theorem test_color : gives (exec (.color) (given [(0, 0x1234)])) (fun t => t.colr = 0x34) = true := by decide
theorem test_color_locked :
    gives (exec (.color) { given [(0, 0xb7)] with por := 0xc, colr := 0xa0, params := { launchParams with colorDepth := .twoFiftySix } })
      (fun t => t.colr = 0xab) = true := by decide
theorem test_plot :
    gives (exec (.plot) { given [(1, 0x10), (2, 0x20)] with colr := 5 })
      (fun t => t.pixel 0x10 0x20 = 5 ∧ t.reg 1 = 0x11) = true := by decide
theorem test_plot_transparent :
    gives (exec (.plot) { given [(1, 0x10), (2, 0x20)] with por := 1, pix := ramOf [(0x2010, 9)] })
      (fun t => t.pixel 0x10 0x20 = 9 ∧ t.reg 1 = 0x11) = true := by decide
theorem test_rpix :
    gives (exec (.rpix) { given [(1, 0x10), (2, 0x20)] with pix := ramOf [(0x2010, 5)] })
      (fun t => t.reg 0 = 5 ∧ flags t = (false, false, false, false)) = true := by decide

/-! ## Refusals -/

theorem test_fmult_to_r4 : exec .fmult { State.reset with dreg := 4 } = .refused .r4Destination := rfl
theorem test_ldw_hole :
    refusal (exec (.ldw 1) { State.reset with params := { launchParams with ramHoles := [⟨1, 1⟩] } }) = some .unmappedData := by
  decide
theorem test_stb_screen :
    exec (.stb 1) { State.reset with params := { launchParams with screenRam := [⟨0, 1⟩] } } = .refused .screenRam := rfl
theorem test_getb_unmapped : exec .getb { State.reset with romStatus := .unmapped } = .refused .unmappedData := rfl
theorem test_fetch_hole :
    step { State.reset with params := { launchParams with codeHoles := [⟨0, 1⟩] } } = .refused .unmappedFetch := rfl
theorem test_undefined_form : step { State.reset with alt1 := true, pipe := 0x70 } = .refused .undefinedAltForm := rfl

/-! ## Witnesses: states and operands that meet the hypotheses of the statements of Obligations.lean -/

theorem codeOpen_of {s : State} (h : s.params.codeHoles = []) (h' : s.params.codeRam = []) : s.CodeOpen := by
  intro a
  exact ⟨s.code.read (bankAddr s.pbr a), by simp [State.codeRead, h, h', inRegions, ramBehind]⟩

theorem ramOpen_of {s : State} {a : Nat} (h : inRegions s.params.ramHoles a = false ∧ inRegions s.params.screenRam a = false) :
    s.RamOpen a := h

theorem wordOpen_of {s : State} {a : Word}
    (h : (inRegions s.params.ramHoles (s.ramAddr a) = false ∧ inRegions s.params.screenRam (s.ramAddr a) = false) ∧
      inRegions s.params.ramHoles (s.ramAddr (a ^^^ 1)) = false ∧ inRegions s.params.screenRam (s.ramAddr (a ^^^ 1)) = false) :
    s.WordOpen a := h

theorem word_not_open {s : State} {a : Word}
    (h : inRegions s.params.ramHoles (s.ramAddr a) = true ∨ inRegions s.params.screenRam (s.ramAddr a) = true ∨
      inRegions s.params.ramHoles (s.ramAddr (a ^^^ 1)) = true ∨ inRegions s.params.screenRam (s.ramAddr (a ^^^ 1)) = true) :
    ¬ s.WordOpen a := by
  rintro ⟨⟨h1, h2⟩, h3, h4⟩
  simp_all

theorem prefixCleared_given (l : List (Reg × Word)) : PrefixCleared (given l) := by
  have h : ∀ (l : List (Reg × Word)) (s : State), PrefixCleared s →
      PrefixCleared (l.foldl (fun s p => s.setReg p.1 p.2) s) := by
    intro l
    induction l with
    | nil => exact fun s h => h
    | cons p l ih => exact fun s h => ih _ ⟨h.b, h.alt1, h.alt2, h.il, h.ih, h.sreg, h.dreg⟩
  exact h l State.reset ⟨rfl, rfl, rfl, rfl, rfl, rfl, rfl⟩

/-- A state in the middle of a run: b set, a pixel and a store waiting, RAM with a hole at $0100. -/
def midRun : State :=
  { State.reset with
    b := true, sreg := 3, dreg := 3, plotBuf := [(5, 7)], ramBuf := [(0x400, 0xef)], stored := [0x400],
    params := { launchParams with ramHoles := [⟨0x100, 1⟩] } }

theorem witness_ResetIsTheStartOfARun :
    (given [(15, 0xffff)]).go = true ∧ (given [(15, 0xffff)]).pipe = 0x01 ∧ PrefixCleared (given [(15, 0xffff)]) ∧
      (given [(15, 0xffff)]).CodeOpen := ⟨rfl, rfl, prefixCleared_given _, codeOpen_of rfl rfl⟩

theorem midRun_inv : midRun.Inv := by
  refine ⟨⟨?_, ?_, ?_, ?_, ?_⟩, ⟨rfl, rfl, fun _ => rfl⟩, ⟨?_, ?_⟩, ?_⟩
  · exact ⟨.nil, by simp [midRun, State.reset]⟩
  · exact ⟨.nil, by simp [midRun, State.reset]⟩
  · exact ⟨.nil, by simp [midRun, State.reset]⟩
  · exact ⟨.nil, by simp [midRun, State.reset]⟩
  · simp [midRun]
  · simp [midRun, State.reset]
  · intro c hc
    obtain rfl : c = (5, 7) := by simpa [midRun] using hc
    rfl
  · intro c hc
    obtain rfl : c = (0x400, 0xef) := by simpa [midRun] using hc
    simp [midRun]

theorem witness_EveryStepKeepsTheInvariant : midRun.Inv ∧ ∃ t, step midRun = .next t := ⟨midRun_inv, _, rfl⟩

theorem witness_CodeAndRomNeverChange : ∃ t, step midRun = .next t := ⟨_, rfl⟩

theorem witness_DecodeReadsBackEveryCoreEncoding :
    ((Instr.stb 11).isCore = true ∧ (Instr.stb 11).wf = true ∧ altOf (.stb 11) = .one) ∧
      (Instr.inc 14).isCore = true ∧ (Instr.inc 14).wf = true ∧ anyAlt (.inc 14) = true := by decide

theorem witness_DecodedInstructionsEncodeBack :
    decode .one [0x3b, 0x01] = .ok (.stb 11, [0x01]) ∧ decode .three [0xff] = .error .undefinedAltForm := ⟨rfl, rfl⟩

theorem witness_DisassemblyOfAnEncodingIsItsExpansion :
    (Instr.movebLoad 15 11).wf = true ∧ (Instr.moveStoreShort 0 510).wf = true ∧ (Instr.ljmp 8).wf = true := by decide

theorem witness_StepRunsTheDecodedInstruction :
    ∃ (t : State) (bytes rest : List Byte) (i : Instr), midRun.go = true ∧ midRun.fetch = .ok (bytes, t) ∧
      decode midRun.altMode bytes = .ok (i, rest) := ⟨_, _, _, _, rfl, rfl, rfl⟩

theorem witness_FetchTakesTheBytesInFetchOrder :
    midRun.CodeOpen ∧ ({ midRun with pipe := 0xff } : State).CodeOpen ∧ inlineBytes .none 0xff = 2 ∧
      inlineBytes .none 0xa0 = 1 ∧ inlineBytes .one 0x0f = 1 ∧ inlineBytes .none 0xef = 0 :=
  ⟨codeOpen_of rfl rfl, codeOpen_of rfl rfl, rfl, rfl, rfl, rfl⟩

theorem witness_GoIsClearedByStopAlone :
    ({ midRun with go := false } : State).go = false ∧ (∃ t, exec .stop midRun = .next t) ∧ ∃ t, exec .nop midRun = .next t :=
  ⟨rfl, ⟨_, rfl⟩, _, rfl⟩

theorem witness_TheSlotByteRunsBeforeTheTarget :
    let s : State := { midRun with pipe := 0x09, zf := true }
    (∃ t, exec (.jmp 9) s = .next t) ∧ s.go = true ∧ s.CodeOpen ∧ s.pipe = 0x09 ∧ s.codeRead s.pbr (s.reg 15) = .ok 0 ∧ s.zf = true :=
  ⟨⟨_, rfl⟩, rfl, codeOpen_of rfl rfl, rfl, rfl, rfl⟩

theorem witness_FetchOfAStoredByteIsRefused :
    let s : State := { State.reset with params := { launchParams with codeRam := [⟨0, 16, 0x400⟩] }, stored := [0x400] }
    s.go = true ∧ inRegions s.params.codeHoles (bankAddr s.pbr (s.reg 15)) = false ∧
      ramBehind s.params.codeRam (bankAddr s.pbr (s.reg 15)) = some 0x400 ∧ inRegions s.params.screenRam 0x400 = false ∧
      0x400 ∈ s.stored := by decide

theorem witness_PrefixDataLastsToTheNextInstruction :
    ((∃ t, exec (.beq 3) midRun = .next t) ∧ (Instr.beq 3).isBranch = true) ∧
      (∃ t, exec (.toReg 2) midRun = .next t) ∧ (Instr.toReg 2).isBranch = false ∧ (Instr.toReg 2).isPrefix midRun.b = false :=
  ⟨⟨⟨_, rfl⟩, rfl⟩, ⟨_, rfl⟩, rfl, rfl⟩

/-- Every control register does change under one of its writers. -/
theorem witness_ControlRegistersHaveTheirWriters :
    let s := given [(0, 0x0703), (15, 0x8000)]
    gives (exec (.ljmp 9) s) (fun t => t.pbr ≠ s.pbr) = true ∧ gives (exec .ramb s) (fun t => t.rambr ≠ s.rambr) = true ∧
      gives (exec .romb s) (fun t => t.rombr ≠ s.rombr) = true ∧ gives (exec .cmode s) (fun t => t.por ≠ s.por) = true ∧
      gives (exec .color s) (fun t => t.colr ≠ s.colr) = true ∧ gives (exec .cache s) (fun t => t.cbr ≠ s.cbr) = true ∧
      gives (exec .cache { s with cacheFlags := [1] }) (fun t => t.cacheFlags ≠ [1]) = true ∧
      gives (exec (.ldb 0) s) (fun t => t.lastram ≠ s.lastram) = true := by decide

theorem witness_FlagsAreWrittenAndReadOnlyWhereListed :
    ((∃ t, exec (.inc 3) midRun = .next t) ∧ (Instr.inc 3).isCore = true ∧ (Instr.inc 3).writesV midRun.b = false ∧
      (Instr.inc 3).writesC = false) ∧
      (∃ t, exec .swap midRun = .next t) ∧ Instr.swap.writesSZ midRun.b = false ∧
      Instr.rol.isCore = true ∧ Instr.rol.isBranch = false ∧ ({ midRun with zf := true } : State).cf = midRun.cf :=
  ⟨⟨⟨_, rfl⟩, rfl, rfl, rfl⟩, ⟨_, rfl⟩, rfl, rfl, rfl, rfl⟩

theorem witness_OnlyStoresAndPlotChangeMemory :
    (∃ t, exec .ramb midRun = .next t) ∧ Instr.ramb.storesRam = false ∧ Instr.ramb ≠ .plot := ⟨⟨_, rfl⟩, rfl, nofun⟩

theorem witness_AssemblerSpellingsRunAsTheirSequences :
    let s : State := { given [(5, 0x100)] with pipe := 0x13, code := ramOf [(0, 0x3d), (1, 0x45)] }
    (Instr.movebLoad 3 5).wf = true ∧ (Instr.movebLoad 3 5).isCore = false ∧ s.go = true ∧ PrefixCleared s ∧ s.CodeOpen ∧
      s.ReadsNext (encode (.movebLoad 3 5)) ∧ ∃ bytes t, s.fetch = .ok (bytes, t) := by
  refine ⟨by decide, rfl, rfl, ⟨rfl, rfl, rfl, rfl, rfl, rfl, rfl⟩, codeOpen_of rfl rfl, ⟨rfl, fun k h => ?_⟩, _, _, rfl⟩
  match k, h with
  | 0, _ => exact congrArg Except.ok (by decide : _ = (0x3d : Byte))
  | 1, _ => exact congrArg Except.ok (by decide : _ = (0x45 : Byte))

theorem witness_WithToFromNameOrMove : State.reset.b = false ∧ midRun.b = true := ⟨rfl, rfl⟩

theorem witness_PrefixesComposeBeforeAnAdd :
    ({ State.reset with alt1 := true } : State).b = false ∧ State.reset.b = false := ⟨rfl, rfl⟩

theorem witness_IncAndDecStepTheirRegister : countRegOk 0 = true ∧ countRegOk 14 = true ∧ Alt.three ≠ .none := by decide

theorem witness_FmultGivesTheHighWord : midRun.dreg ≠ 4 ∧ ({ midRun with dreg := 4 } : State).dreg = 4 := by decide

theorem witness_LmultGivesBothWords : State.reset.dreg ≠ 4 ∧ ({ State.reset with dreg := 4 } : State).dreg = 4 := by decide

theorem witness_LogicInstructionsAreBitwise :
    (1 : Reg) ≠ 0 ∧ (15 : Reg) ≠ 0 ∧ (1 : Nibble) ≠ 0 ∧ (15 : Nibble) ≠ 0 ∧ Alt.one ≠ .none := by decide

theorem witness_RotationsUndoEachOther :
    let s : State := { midRun with sreg := 14, dreg := 14 }
    (14 : Reg) ≠ 15 ∧ s.sreg = 14 ∧ s.dreg = 14 := by decide

/-- With a hole at $0100: words at the top of RAM and at $0103 are open, the byte at $0101 is, the word at $0101 is not. -/
theorem witness_LoadsReadRam :
    midRun.WordOpen 0xffff ∧ midRun.WordOpen 0x103 ∧ midRun.RamOpen (midRun.ramAddr 0x101) ∧ ¬ midRun.WordOpen 0x101 ∧
      midRun.WordOpen (midRun.reg 0) ∧ midRun.WordOpen ((0xff : Byte).zeroExtend 16 * 2) := by
  exact ⟨wordOpen_of (by decide), wordOpen_of (by decide), ramOpen_of (by decide), word_not_open (by decide),
    wordOpen_of (by decide), wordOpen_of (by decide)⟩

theorem witness_StoresWriteRam :
    midRun.WordOpen (midRun.reg 11) ∧ midRun.WordOpen 0x1fe ∧ midRun.WordOpen ((0 : Byte).zeroExtend 16 * 2) ∧
      midRun.RamOpen (midRun.ramAddr (midRun.reg 0)) :=
  ⟨wordOpen_of (by decide), wordOpen_of (by decide), wordOpen_of (by decide), ramOpen_of (by decide)⟩

/-- Both cases: a run that has made a RAM access, and one that has not. -/
theorem witness_SbkStoresToTheLastAddress :
    (let s : State := { midRun with lastram := 0x1ff, lastramSet := true }
     s.lastramSet = true ∧ s.WordOpen s.lastram) ∧
      State.reset.lastramSet = false ∧ State.reset.WordOpen Config.launchLastram :=
  ⟨⟨rfl, wordOpen_of (by decide)⟩, rfl, ⟨rfl, rfl⟩, rfl, rfl⟩

theorem witness_AWordStoredComesBack : midRun.WordOpen 0x102 ∧ midRun.WordOpen 0xfffe ∧ midRun.WordOpen 0x103 :=
  ⟨wordOpen_of (by decide), wordOpen_of (by decide), wordOpen_of (by decide)⟩

/-- RAM with a hole at $0100 and the screen at $01FE. -/
def closedRam : State :=
  { given [(1, 0x100), (2, 0x101)] with params := { launchParams with ramHoles := [⟨0x100, 1⟩], screenRam := [⟨0x1fe, 1⟩] } }

theorem witness_ClosedRamIsRefused :
    let s : State := { closedRam with lastram := 0x1ff, lastramSet := true }
    ¬ s.RamOpen (s.ramAddr (s.reg 1)) ∧ ¬ s.WordOpen (s.reg 2) ∧ ¬ s.WordOpen 0x1ff ∧
      ¬ s.WordOpen ((0xff : Byte).zeroExtend 16 * 2) ∧ s.lastramSet = true ∧ ¬ s.WordOpen s.lastram :=
  ⟨fun h => absurd h.1 (by decide), word_not_open (by decide), word_not_open (by decide), word_not_open (by decide), rfl,
    word_not_open (by decide)⟩

/-- No RAM at all: the word at an address that nothing names is not open either. -/
theorem witness_ClosedRamIsRefused_free :
    let s : State := { State.reset with params := { launchParams with ramHoles := [⟨0, 0x1000000⟩] } }
    s.lastramSet = false ∧ ¬ s.WordOpen Config.launchLastram := by
  refine ⟨rfl, fun h => ?_⟩
  have hl := Config.launchLastram.isLt
  have hc : inRegions [⟨0, 0x1000000⟩] (0 * 65536 + Config.launchLastram.toNat) = false := h.1.1
  simp only [inRegions, inRegion, List.any_cons, List.any_nil, Bool.or_false, Bool.and_eq_false_iff, decide_eq_false_iff_not] at hc
  omega

theorem witness_RamMovesOfClosedRamAreRefused :
    closedRam.CodeOpen ∧ addressRegOk 1 = true ∧ addressRegOk 2 = true ∧ (510 : BitVec 9).getLsbD 0 = false ∧
      ¬ closedRam.WordOpen ((510 : BitVec 9).zeroExtend 16) ∧ ¬ closedRam.WordOpen 0x1ff ∧
      ¬ closedRam.RamOpen (closedRam.ramAddr (closedRam.reg 1)) ∧ ¬ closedRam.WordOpen (closedRam.reg 2) ∧ closedRam.b = false :=
  ⟨codeOpen_of rfl rfl, rfl, rfl, rfl, word_not_open (by decide), word_not_open (by decide),
    fun h => absurd h.1 (by decide), word_not_open (by decide), rfl⟩

theorem witness_GetbFamilyReadsTheRomBuffer : ({ midRun with romStatus := .loaded } : State).romStatus = .loaded := rfl

theorem witness_UnsetAndUnmappedRomBuffers :
    midRun.romStatus = .unset ∧ ({ midRun with romStatus := .unmapped } : State).romStatus = .unmapped := ⟨rfl, rfl⟩

theorem witness_RomBytesComeFromTheBankOfTheWrite :
    let s : State := { midRun with params := { launchParams with romHoles := [⟨0x8000, 1⟩] } }
    inRegions s.params.romHoles (bankAddr s.rombr 0x7fff) = false ∧ inRegions s.params.romHoles (bankAddr s.rombr 0x8001) = false ∧
      inRegions s.params.romHoles (bankAddr s.rombr 0x8000) = true := by decide

theorem witness_ConditionalBranchesTestTheirFlag :
    let s : State := { midRun with pipe := 0x0f, alt1 := true, alt2 := true }
    isBranchByte s.altMode s.pipe = true ∧ ∃ bytes t, s.fetch = .ok (bytes, t) := ⟨rfl, _, _, rfl⟩

theorem witness_JmpAndLoopWriteTheProgramCounter :
    jumpRegOk 8 = true ∧ jumpRegOk 13 = true ∧ (given [(12, 0)]).reg 12 ≠ 1 ∧ (given [(12, 1)]).reg 12 = 1 := by decide

theorem witness_LinkSavesTheReturnAddress :
    let s : State := { given [(15, 0x8001)] with pipe := 0x94, code := ramOf [(0x8001, 0xff), (0x8003, 0x90)] }
    s.go = true ∧ PrefixCleared s ∧ s.CodeOpen ∧ s.ReadsNext [0x94, 0xff, 0x00, 0x90] := by
  refine ⟨rfl, ⟨rfl, rfl, rfl, rfl, rfl, rfl, rfl⟩, codeOpen_of rfl rfl, ⟨rfl, fun k h => ?_⟩⟩
  match k, h with
  | 0, _ => exact congrArg Except.ok (by decide : _ = (0xff : Byte))
  | 1, _ => exact congrArg Except.ok (by decide : _ = (0x00 : Byte))
  | 2, _ => exact congrArg Except.ok (by decide : _ = (0x90 : Byte))

/-- A state of each row of R311's table that gives a value, and one for GETC. -/
theorem witness_ColorAndGetcSetTheColour :
    let p256 : Params := { launchParams with colorDepth := .twoFiftySix }
    (((0 : Nibble).getLsbD 2 = false ∧ (0 : Nibble).getLsbD 3 = false) ∧ launchParams.colorDepth = .sixteen) ∧
      ((8 : Nibble).getLsbD 3 = true ∧ p256.colorDepth = .twoFiftySix) ∧ ((4 : Nibble).getLsbD 2 = true ∧ launchParams.colorDepth = .sixteen) ∧
      ({ midRun with romStatus := .loaded } : State).romStatus = .loaded := ⟨⟨⟨rfl, rfl⟩, rfl⟩, ⟨rfl, rfl⟩, ⟨rfl, rfl⟩, rfl⟩

/-- A state for each clause of PLOT's statement: the two depths, a transparent and an opaque colour, dithering off. -/
theorem witness_PlotWritesOnePixel :
    let q : State := { midRun with params := { launchParams with colorDepth := .twoFiftySix }, por := 9, colr := 0x10 }
    midRun.params.colorDepth = .sixteen ∧ (0x10 : Byte) ≠ (midRun.reg 1).extractLsb' 0 8 ∧ q.params.colorDepth = .twoFiftySix ∧
      (q.por.getLsbD 0 = true ∧ if q.por.getLsbD 3 then q.colr.toNat % 16 = 0 else q.colr = 0) ∧
      ({ q with por := 0 } : State).por.getLsbD 0 = false ∧ ({ q with por := 0 } : State).por.getLsbD 1 = false := by decide

/-- A state for each clause: 16 colours, and 256 colours with a transparent colour, an opaque one and transparency off. -/
theorem witness_RpixReturnsWhatPlotDrew :
    let q : State := { midRun with params := { launchParams with colorDepth := .twoFiftySix }, por := 9, colr := 0x10 }
    midRun.params.colorDepth = .sixteen ∧ q.params.colorDepth = .twoFiftySix ∧
      (q.por.getLsbD 0 = true ∧ if q.por.getLsbD 3 then q.colr.toNat % 16 = 0 else q.colr = 0) ∧
      (¬ (if ({ q with por := 1 } : State).por.getLsbD 3 then q.colr.toNat % 16 = 0 else q.colr = 0) ∧
        ({ q with por := 1 } : State).por.getLsbD 1 = false) ∧ ({ q with por := 0 } : State).por.getLsbD 0 = false := by decide

theorem witness_RegisterMoves : midRun.CodeOpen := codeOpen_of rfl rfl

theorem witness_RamMovesLoad :
    State.reset.CodeOpen ∧ addressRegOk 0 = true ∧ addressRegOk 11 = true ∧ (510 : BitVec 9).getLsbD 0 = false ∧
      State.reset.WordOpen ((510 : BitVec 9).zeroExtend 16) ∧ State.reset.WordOpen 0xffff ∧
      State.reset.RamOpen (State.reset.ramAddr (State.reset.reg 11)) ∧ State.reset.WordOpen (State.reset.reg 11) ∧ State.reset.b = false :=
  ⟨codeOpen_of rfl rfl, rfl, rfl, rfl, wordOpen_of (by decide), wordOpen_of (by decide), ramOpen_of (by decide), wordOpen_of (by decide), rfl⟩

theorem witness_RamMovesStore :
    midRun.CodeOpen ∧ addressRegOk 11 = true ∧ (0 : BitVec 9).getLsbD 0 = false ∧ midRun.WordOpen ((0 : BitVec 9).zeroExtend 16) ∧
      midRun.WordOpen 0x102 ∧ midRun.RamOpen (midRun.ramAddr (midRun.reg 11)) ∧ midRun.WordOpen (midRun.reg 11) ∧
      ({ midRun with b := false } : State).b = false :=
  ⟨codeOpen_of rfl rfl, rfl, rfl, wordOpen_of (by decide), wordOpen_of (by decide), ramOpen_of (by decide), wordOpen_of (by decide), rfl⟩

end Sys2Proof.Tests
end

section
/-!
PROOF. The family of 10_state.md: who clears GO (R27) and who writes and reads the status flags (R26). Both are read off the
last operation of an instruction: one rule per such operation here, then one table over the instructions for each statement.
-/

namespace Sys2Proof.Machine

/-! ## GO and the host's IRQs (10_state.md R27; 60_exceptions.md R333) -/

/-- GO stays and the host gets no IRQ. -/
structure GoKept (s t : State) : Prop where
  go : t.go = s.go
  hostIrqs : t.hostIrqs = s.hostIrqs

theorem GoKept.trans {s t u : State} (h : GoKept s t) (k : GoKept t u) : GoKept s u :=
  ⟨k.go.trans h.go, k.hostIrqs.trans h.hostIrqs⟩

theorem SystemKept.goKept {s t : State} (h : SystemKept s t) : GoKept s t := ⟨h.go, h.hostIrqs⟩

theorem FormTaken.goKept {s t : State} {k : Nat} {branch : Bool} {bytes : List Byte} (h : FormTaken s k branch bytes t) :
    GoKept s t := by
  rw [h.state]
  exact ⟨rfl, rfl⟩

/-- If the instruction completes, GO stays and the host gets no IRQ. -/
def KeepsGo (s : State) (o : Result) : Prop := ∀ t, o = .next t → GoKept s t

theorem keepsGo_refused (s : State) (r : Refusal) : KeepsGo s (.refused r) := by
  rintro _ ⟨⟩

theorem keepsGo_next {s t : State} (h : GoKept s t) : KeepsGo s (.next t) := by
  rintro _ ⟨⟩
  exact h

theorem keepsGo_complete {s b : State} (jumped : Bool) (h : GoKept s b) : KeepsGo s (complete jumped b) := by
  cases jumped
  · exact keepsGo_next ⟨h.go, h.hostIrqs⟩
  · exact keepsGo_next h

theorem keepsGo_finish {s b : State} (h : GoKept s b) : KeepsGo s (finish b) := keepsGo_complete _ ⟨h.go, h.hostIrqs⟩

theorem keepsGo_finishReg {s b : State} {n : Reg} {v : Word} (h : GoKept s b) : KeepsGo s (finishReg n v b) := by
  obtain ⟨t, ht, w, _⟩ := finishReg_spec n v b
  rw [ht]
  exact keepsGo_next (h.trans w.rest.system.goKept)

theorem keepsGo_branchIf (cond : Bool) (d : Byte) (s : State) : KeepsGo s (branchIf cond d s) := by
  obtain ⟨t, ht, _, _, _, _, _, _, _, r⟩ := branchIf_spec cond d s
  rw [ht]
  exact keepsGo_next r.system.goKept

theorem keepsGo_loadWordTo (n : Reg) (a : Word) (s : State) : KeepsGo s (loadWordTo n a s) := by
  unfold loadWordTo
  split
  · exact keepsGo_refused _ _
  · exact keepsGo_finishReg ⟨rfl, rfl⟩

theorem keepsGo_execLdb (n : Reg) (s : State) : KeepsGo s (execLdb n s) := by
  unfold execLdb
  split
  · exact keepsGo_refused _ _
  · exact keepsGo_finishReg ⟨rfl, rfl⟩

theorem keepsGo_storeWordAt (a v : Word) (s : State) : KeepsGo s (storeWordAt a v s) := by
  unfold storeWordAt
  split
  · exact keepsGo_refused _ _
  · next h => rw [storeWord_ok h]; exact keepsGo_finish ⟨rfl, rfl⟩

theorem keepsGo_execStb (n : Reg) (s : State) : KeepsGo s (execStb n s) := by
  unfold execStb
  split
  · exact keepsGo_refused _ _
  · next h => rw [storeByte_ok h]; exact keepsGo_finish ⟨rfl, rfl⟩

theorem keepsGo_execSbk (s : State) : KeepsGo s (execSbk s) := by
  unfold execSbk
  split
  · exact keepsGo_refused _ _
  · next h => rw [storeWord_ok h]; exact keepsGo_finish ⟨rfl, rfl⟩

theorem keepsGo_getTo (f : Byte → Word → Word) (s : State) : KeepsGo s (getTo f s) := by
  unfold getTo
  split
  · exact keepsGo_refused _ _
  · next h => rw [readRomBuffer_ok h]; exact keepsGo_finishReg ⟨rfl, rfl⟩

theorem keepsGo_execGetc (s : State) : KeepsGo s (execGetc s) := by
  unfold execGetc
  split
  · exact keepsGo_refused _ _
  · next h =>
    rw [readRomBuffer_ok h]
    split <;> exact keepsGo_finish ⟨rfl, rfl⟩

theorem keepsGo_execCache (s : State) : KeepsGo s (execCache s) := by
  unfold execCache
  split <;> exact keepsGo_finish ⟨rfl, rfl⟩

theorem keepsGo_execLoop (s : State) : KeepsGo s (execLoop s) := by
  unfold execLoop
  exact keepsGo_complete _ (by constructor <;> split <;> simp)

theorem keepsGo_execPlot (s : State) : KeepsGo s (execPlot s) := by
  unfold execPlot
  exact keepsGo_finishReg (by constructor <;> split <;> simp)

theorem keepsGo_execFmult (s : State) : KeepsGo s (execFmult s) := by
  unfold execFmult
  split
  · exact keepsGo_refused _ _
  · exact keepsGo_finishReg ⟨rfl, rfl⟩

theorem keepsGo_execLmult (s : State) : KeepsGo s (execLmult s) := by
  unfold execLmult
  split
  · exact keepsGo_finish ⟨rfl, rfl⟩
  · exact keepsGo_finishReg ⟨by simp, by simp⟩

theorem keepsGo_execTo (n : Reg) (s : State) : KeepsGo s (execTo n s) := by
  unfold execTo
  split
  · exact keepsGo_finishReg ⟨rfl, rfl⟩
  · exact keepsGo_complete _ ⟨rfl, rfl⟩

theorem keepsGo_execFrom (n : Reg) (s : State) : KeepsGo s (execFrom n s) := by
  unfold execFrom
  split
  · exact keepsGo_finishReg ⟨rfl, rfl⟩
  · exact keepsGo_complete _ ⟨rfl, rfl⟩

/-- Every core instruction but STOP keeps GO, by what it ends in. -/
theorem keepsGo_exec_core {i : Instr} (hc : i.isCore = true) (hs : i ≠ .stop) (s : State) : KeepsGo s (exec i s) := by
  cases i with
  | stop => exact absurd rfl hs
  | bra | blt | bge | bne | beq | bpl | bmi | bcc | bcs | bvc | bvs => exact keepsGo_branchIf _ _ s
  | alt1 | alt2 | alt3 | withReg => exact keepsGo_complete _ ⟨rfl, rfl⟩
  | toReg n => exact keepsGo_execTo n s
  | fromReg n => exact keepsGo_execFrom n s
  | nop | cmode | ramb | romb | cmpR => exact keepsGo_finish ⟨rfl, rfl⟩
  | color => exact keepsGo_finish ⟨by simp, by simp⟩
  | cache => exact keepsGo_execCache s
  | loop => exact keepsGo_execLoop s
  | plot => exact keepsGo_execPlot s
  | fmult => exact keepsGo_execFmult s
  | lmult => exact keepsGo_execLmult s
  | ldw | lm | lms => exact keepsGo_loadWordTo _ _ s
  | ldb n => exact keepsGo_execLdb n s
  | stw | sm | sms => exact keepsGo_storeWordAt _ _ s
  | stb n => exact keepsGo_execStb n s
  | sbk => exact keepsGo_execSbk s
  | getb => exact (keepsGo_getTo _ s : KeepsGo s (execGetb s))
  | getbh => exact (keepsGo_getTo _ s : KeepsGo s (execGetbh s))
  | getbl => exact (keepsGo_getTo _ s : KeepsGo s (execGetbl s))
  | getbs => exact (keepsGo_getTo _ s : KeepsGo s (execGetbs s))
  | getc => exact keepsGo_execGetc s
  | lsr | rol | ror | asr | div2 | rpix | swap | notW | addR | adcR | addI | adcI | subR | sbcR | subI | merge | andR | bicR
  | andI | bicI | orR | xorR | orI | xorI | multR | umultR | multI | umultI | link | sex | jmp | ljmp | lob | hib | ibt | iwt
  | inc | dec => exact keepsGo_finishReg ⟨rfl, rfl⟩
  | _ => cases hc

/-- An assembler spelling stands for core instructions, none of them STOP. -/
theorem core_of_mem_expand {i j : Instr} (h : i.isCore = false) (hj : j ∈ expand i) : j.isCore = true ∧ j ≠ .stop := by
  cases i with
  | lea | moveRR | moveI8 | moveI16 | moveLoadShort | moveLoad | moveStoreShort | moveStore | movesRR | movebLoad0 | movebLoad
  | movebStore0 | movebStore | movewLoad0 | movewLoad | movewStore0 | movewStore =>
    simp only [expand, List.mem_cons, List.not_mem_nil, or_false] at hj
    rcases hj with rfl | rfl | rfl <;> exact ⟨rfl, nofun⟩
  | _ => cases h

/-- A sequence without STOP keeps GO: its fetches and its meanings do. -/
theorem keepsGo_runForms {is : List Instr} (h : ∀ j ∈ is, j.isCore = true ∧ j ≠ .stop) (s : State) :
    KeepsGo s (runForms is s) := by
  cases is with
  | nil => exact keepsGo_next ⟨rfl, rfl⟩
  | cons i js =>
    exact fun t => runForms_induction (R := GoKept) (fun _ _ _ _ hk hf => (takeForm_ok hk hf).goKept)
      (fun _ _ _ => GoKept.trans) (fun _ _ _ hq => keepsGo_exec_core hq.1 hq.2 _ _) i js h s t

theorem keepsGo_exec {i : Instr} (hs : i ≠ .stop) (s : State) : KeepsGo s (exec i s) := by
  cases hc : i.isCore
  · rw [exec_spelling hc]
    exact keepsGo_runForms (fun _ => core_of_mem_expand hc) s
  · exact keepsGo_exec_core hc hs s

/-- STOP clears GO and sends one IRQ. -/
theorem exec_stop {s t : State} (h : exec .stop s = .next t) : t.go = false ∧ t.hostIrqs = s.hostIrqs + 1 := by
  obtain ⟨u, hu, w, _⟩ := finish_spec { s.drainPlot.drainRam with go := false, hostIrqs := s.hostIrqs + 1 }
  cases hu.symm.trans h
  exact ⟨w.rest.system.go, w.rest.system.hostIrqs⟩

/-- Settles O11: every instruction but STOP keeps GO and the IRQ count, by the operation it ends in; a spelling by the core
instructions of its sequence. -/
theorem goIsClearedByStopAlone : Obligations.GoIsClearedByStopAlone := by
  refine ⟨fun s h => by simp [step, h], fun i s t h => ?_⟩
  by_cases hi : i = .stop
  · subst hi
    simpa using exec_stop h
  · obtain ⟨hgo, hirqs⟩ := keepsGo_exec hi s t h
    simp [hi, hgo, hirqs]

/-! ## The status flags (10_state.md R26)

Both parts of the statement are one fact about two runs of an instruction, from a state and from the same state with other
flags: what stays is read off two runs that start from one state. -/

/-- The status flags an instruction writes; the rule lists s and z together. -/
structure FlagSet where
  v : Bool
  c : Bool
  sz : Bool

/-- What writes no flag. -/
abbrev noFlags : FlagSet := ⟨false, false, false⟩

/-- The flags of `SetSZ`, and of a byte result. -/
abbrev flagsOfSZ : FlagSet := ⟨false, false, true⟩

/-- The flags of a shift or a 16 by 16 product. -/
abbrev flagsOfSZC : FlagSet := ⟨false, true, true⟩

/-- The flags of MOVES. -/
abbrev flagsOfSZV : FlagSet := ⟨true, false, true⟩

/-- The flags of the adder, and of MERGE. -/
abbrev allFlags : FlagSet := ⟨true, true, true⟩

/-- The flags the rule lists an instruction as writing, while b is as given. -/
def flagsWritten (b : Bool) (i : Instr) : FlagSet := ⟨i.writesV b, i.writesC, i.writesSZ b⟩

/-- One flag `before` an instruction and `after` it, and after a second run of it from other flags: if written, it is the same
after both; if not, it stays. -/
def FlagDecided (written before after second : Bool) : Prop := if written then second = after else after = before

theorem FlagDecided.same {written before after second : Bool} (h : FlagDecided written before after second)
    (hw : written = true) : second = after := by
  subst hw
  exact h

theorem FlagDecided.kept {written before after second : Bool} (h : FlagDecided written before after second)
    (hw : written = false) : after = before := by
  subst hw
  exact h

/-- `t` and `u` are reached in two runs of one instruction, `t` in the run from `s`: they are alike in all but the flags, and each
flag is decided as the set `w` of flags written says. -/
structure FlagsDecided (w : FlagSet) (s t u : State) : Prop where
  alike : u = t.withFlagsOf u
  overflow : FlagDecided w.v s.vf t.vf u.vf
  carry : FlagDecided w.c s.cf t.cf u.cf
  sign : FlagDecided w.sz s.sf t.sf u.sf
  zero : FlagDecided w.sz s.zf t.zf u.zf

theorem FlagsDecided.withFlagsOf_eq {w : FlagSet} {s t u : State} (h : FlagsDecided w s t u) : u.withFlagsOf t = t := by
  rw [h.alike]
  rfl

/-- The outcomes of two runs of one instruction, the first from `s`: both complete, in states of which `FlagsDecided` holds, or
both stop for the same reason. -/
def RunsAlike (w : FlagSet) (s : State) (o o' : Result) : Prop :=
  match o with
  | .next t => ∃ u, o' = .next u ∧ FlagsDecided w s t u
  | .fault r => o' = .fault r
  | .refused r => o' = .refused r

/-! ### What reads no flag -/

section
variable (s f : State)

@[simp] theorem State.withFlagsOf_params : (s.withFlagsOf f).params = s.params := rfl
@[simp] theorem State.withFlagsOf_b : (s.withFlagsOf f).b = s.b := rfl
@[simp] theorem State.withFlagsOf_dreg : (s.withFlagsOf f).dreg = s.dreg := rfl
@[simp] theorem State.withFlagsOf_por : (s.withFlagsOf f).por = s.por := rfl
@[simp] theorem State.withFlagsOf_romStatus : (s.withFlagsOf f).romStatus = s.romStatus := rfl
@[simp] theorem State.withFlagsOf_reg (n : Reg) : (s.withFlagsOf f).reg n = s.reg n := rfl
@[simp] theorem State.withFlagsOf_src : (s.withFlagsOf f).src = s.src := rfl
@[simp] theorem State.withFlagsOf_ramAddr (a : Word) : (s.withFlagsOf f).ramAddr a = s.ramAddr a := rfl
@[simp] theorem State.withFlagsOf_sbkAddr : (s.withFlagsOf f).sbkAddr = s.sbkAddr := rfl
@[simp] theorem State.withFlagsOf_ramCheck (a : Nat) : (s.withFlagsOf f).ramCheck a = s.ramCheck a := rfl
@[simp] theorem State.withFlagsOf_loadByte (a : Word) : (s.withFlagsOf f).loadByte a = s.loadByte a := rfl
@[simp] theorem State.withFlagsOf_loadWord (a : Word) : (s.withFlagsOf f).loadWord a = s.loadWord a := rfl
@[simp] theorem State.withFlagsOf_hiNybbleLock : (s.withFlagsOf f).hiNybbleLock = s.hiNybbleLock := rfl
@[simp] theorem State.withFlagsOf_hiNybbleBit : (s.withFlagsOf f).hiNybbleBit = s.hiNybbleBit := rfl

end

/-! ### Operations that neither read nor write a flag -/

/-- An operation that neither reads nor writes a flag. -/
def FlagBlind (g : State → State) : Prop := ∀ b f : State, g (b.withFlagsOf f) = (g b).withFlagsOf f

theorem FlagBlind.flagsKept {g : State → State} (h : FlagBlind g) (b : State) : FlagsKept b (g b) := by
  have hb : g b = (g b).withFlagsOf b := h b b
  constructor <;> rw [hb] <;> rfl

theorem flagBlind_advance : FlagBlind State.advance := fun _ _ => rfl

theorem flagBlind_clearPrefix : FlagBlind State.clearPrefix := fun _ _ => rfl

theorem flagBlind_noteRam (a : Word) : FlagBlind (State.noteRam · a) := fun _ _ => rfl

theorem flagBlind_issueStore (cells : List Host.Cell) : FlagBlind (State.issueStore · cells) := fun _ _ => rfl

/-- A choice that no flag decides. -/
theorem flagBlind_ite {p : State → Prop} [DecidablePred p] {g k : State → State} (hp : ∀ b f, p (b.withFlagsOf f) = p b)
    (hg : FlagBlind g) (hk : FlagBlind k) : FlagBlind fun b => if p b then g b else k b := by
  intro b f
  by_cases h : p b
  · simpa only [hp, if_pos h] using hg b f
  · simpa only [hp, if_neg h] using hk b f

theorem flagBlind_romLoad : FlagBlind State.romLoad :=
  flagBlind_ite (p := fun b => inRegions b.params.romHoles b.romAddr) (fun _ _ => rfl) (fun _ _ => rfl) fun _ _ => rfl

theorem flagBlind_writeReg (n : Reg) (v : Word) : FlagBlind (State.writeReg · n v) :=
  flagBlind_ite (p := fun _ => n = 14) (fun _ _ => rfl) (fun b f => flagBlind_romLoad (b.setReg n v) f) fun _ _ => rfl

theorem flagBlind_setColour (k : Byte) : FlagBlind (State.setColour · k) := by
  intro b f
  simp only [State.setColour, State.withFlagsOf_params, State.withFlagsOf_hiNybbleLock, State.withFlagsOf_hiNybbleBit]
  split <;> rfl

/-- CACHE's update of the cache base. -/
theorem flagBlind_cacheBase : FlagBlind fun b => if b.cbr = b.pc then b else { b with cbr := b.pc, cacheFlags := [] } :=
  flagBlind_ite (fun _ _ => rfl) (fun _ _ => rfl) fun _ _ => rfl

/-- PLOT's write of its pixel. -/
theorem flagBlind_plotPixel :
    FlagBlind fun b => (if b.isTransparent then b else b.pixelWrite b.plotX b.plotY b.plotColour).drew b.plotDraws :=
  fun b f => congrArg (State.drew · b.plotDraws)
    (flagBlind_ite (p := fun b => b.isTransparent) (g := id) (k := fun b => b.pixelWrite b.plotX b.plotY b.plotColour)
      (fun _ _ => rfl) (fun _ _ => rfl) (fun _ _ => rfl) b f)

/-- LOOP's jump. -/
theorem flagBlind_loopJump (r v : Word) : FlagBlind fun b => if r != 0 then b.writeReg 15 v else b :=
  flagBlind_ite (fun _ _ => rfl) (flagBlind_writeReg 15 v) fun _ _ => rfl

section
variable {w : FlagSet} {s b c : State}

/-- An operation that neither reads nor writes a flag keeps two runs together. -/
theorem FlagsDecided.map (h : FlagsDecided w s b c) {g : State → State} (hg : FlagBlind g) :
    FlagsDecided w s (g b) (g c) := by
  have hb := hg.flagsKept b
  have hc := hg.flagsKept c
  have ha : g c = (g b).withFlagsOf c := (congrArg g h.alike).trans (hg b c)
  constructor
  · rw [ha]
    rfl
  · rw [hb.overflow, hc.overflow]
    exact h.overflow
  · rw [hb.carry, hc.carry]
    exact h.carry
  · rw [hb.sign, hc.sign]
    exact h.sign
  · rw [hb.zero, hc.zero]
    exact h.zero

theorem runsAlike_complete (jumped : Bool) (h : FlagsDecided w s b c) :
    RunsAlike w s (complete jumped b) (complete jumped c) := by
  cases jumped
  · exact ⟨_, rfl, h.map flagBlind_advance⟩
  · exact ⟨_, rfl, h⟩

theorem runsAlike_finish (h : FlagsDecided w s b c) : RunsAlike w s (finish b) (finish c) :=
  runsAlike_complete _ (h.map flagBlind_clearPrefix)

theorem runsAlike_finishReg {n : Reg} {v : Word} (h : FlagsDecided w s b c) :
    RunsAlike w s (finishReg n v b) (finishReg n v c) :=
  runsAlike_complete _ ((h.map (flagBlind_writeReg n v)).map flagBlind_clearPrefix)

theorem runsAlike_refused (r : Refusal) : RunsAlike w s (.refused r) (.refused r) := rfl

end

/-! ### What each flag computation writes, and the ends that follow it -/

section
variable (s f : State)

/-- Nothing is written yet. -/
theorem flagsDecided_start : FlagsDecided noFlags s s (s.withFlagsOf f) := ⟨rfl, rfl, rfl, rfl, rfl⟩

theorem flagsDecided_setSZ (r : Word) : FlagsDecided flagsOfSZ s (s.setSZ r) ((s.withFlagsOf f).setSZ r) :=
  ⟨rfl, rfl, rfl, rfl, rfl⟩

theorem flagsDecided_setByteSZ (r : Byte) : FlagsDecided flagsOfSZ s (s.setByteSZ r) ((s.withFlagsOf f).setByteSZ r) :=
  ⟨rfl, rfl, rfl, rfl, rfl⟩

theorem flagsDecided_setSZC (r : Word) (c : Bool) :
    FlagsDecided flagsOfSZC s (s.setSZC r c) ((s.withFlagsOf f).setSZC r c) := ⟨rfl, rfl, rfl, rfl, rfl⟩

theorem flagsDecided_setAdd (x y : Word) (c : Bool) :
    FlagsDecided allFlags s (s.setAdd x y c) ((s.withFlagsOf f).setAdd x y c) := ⟨rfl, rfl, rfl, rfl, rfl⟩

theorem flagsDecided_setSub (x y : Word) (c : Bool) :
    FlagsDecided allFlags s (s.setSub x y c) ((s.withFlagsOf f).setSub x y c) := ⟨rfl, rfl, rfl, rfl, rfl⟩

theorem flagsDecided_setMerge (r : Word) : FlagsDecided allFlags s (s.setMerge r) ((s.withFlagsOf f).setMerge r) :=
  ⟨rfl, rfl, rfl, rfl, rfl⟩

theorem flagsDecided_setMoves (r : Word) : FlagsDecided flagsOfSZV s (s.setMoves r) ((s.withFlagsOf f).setMoves r) :=
  ⟨rfl, rfl, rfl, rfl, rfl⟩

theorem runsAlike_addTo (y : Word) {c c' : Bool} (h : c' = c) :
    RunsAlike allFlags s (addTo y c s) (addTo y c' (s.withFlagsOf f)) := by
  subst h
  exact runsAlike_finishReg (flagsDecided_setAdd s f _ _ _)

theorem runsAlike_subTo (y : Word) {c c' : Bool} (h : c' = c) :
    RunsAlike allFlags s (subTo y c s) (subTo y c' (s.withFlagsOf f)) := by
  subst h
  exact runsAlike_finishReg (flagsDecided_setSub s f _ _ _)

theorem runsAlike_shiftTo {r r' : Word} (out : Bool) (h : r' = r) :
    RunsAlike flagsOfSZC s (shiftTo r out s) (shiftTo r' out (s.withFlagsOf f)) := by
  subst h
  exact runsAlike_finishReg (flagsDecided_setSZC s f _ _)

/-! ### Instructions that can be refused, or that have two cases -/

theorem runsAlike_loadWordTo (n : Reg) (a : Word) :
    RunsAlike noFlags s (loadWordTo n a s) (loadWordTo n a (s.withFlagsOf f)) := by
  unfold loadWordTo
  rw [State.withFlagsOf_loadWord]
  cases s.loadWord a with
  | error r => exact runsAlike_refused r
  | ok v => exact runsAlike_finishReg ((flagsDecided_start s f).map (flagBlind_noteRam a))

theorem runsAlike_execLdb (n : Reg) : RunsAlike noFlags s (execLdb n s) (execLdb n (s.withFlagsOf f)) := by
  unfold execLdb
  rw [State.withFlagsOf_reg, State.withFlagsOf_loadByte]
  cases s.loadByte (s.reg n) with
  | error r => exact runsAlike_refused r
  | ok v => exact runsAlike_finishReg ((flagsDecided_start s f).map (flagBlind_noteRam _))

theorem noteRam_withFlagsOf (a : Word) : (s.withFlagsOf f).noteRam a = (s.noteRam a).withFlagsOf f := rfl

/-- Whether a store is refused does not depend on the flags, and neither does what it stores. -/
theorem storeWord_withFlagsOf (a v : Word) :
    (s.withFlagsOf f).storeWord a v = (s.storeWord a v).map (·.withFlagsOf f) := by
  simp only [State.storeWord, State.withFlagsOf_ramCheck, State.withFlagsOf_ramAddr]
  split <;> rfl

/-- See `storeWord_withFlagsOf`. -/
theorem storeByte_withFlagsOf (a : Word) (v : Byte) :
    (s.withFlagsOf f).storeByte a v = (s.storeByte a v).map (·.withFlagsOf f) := by
  simp only [State.storeByte, State.withFlagsOf_ramCheck, State.withFlagsOf_ramAddr]
  split <;> rfl

/-- See `storeWord_withFlagsOf`. -/
theorem readRomBuffer_withFlagsOf :
    (s.withFlagsOf f).readRomBuffer = s.readRomBuffer.map fun p => (p.1, p.2.withFlagsOf f) := by
  rw [readRomBuffer_eq, readRomBuffer_eq, State.withFlagsOf_romStatus]
  cases s.romStatus <;> rfl

theorem runsAlike_storeWordAt (a v : Word) :
    RunsAlike noFlags s (storeWordAt a v s) (storeWordAt a v (s.withFlagsOf f)) := by
  unfold storeWordAt
  rw [noteRam_withFlagsOf, storeWord_withFlagsOf]
  cases h : (s.noteRam a).storeWord a v with
  | error r => exact runsAlike_refused r
  | ok t =>
    cases storeWord_ok h
    exact runsAlike_finish (((flagsDecided_start s f).map (flagBlind_noteRam a)).map (flagBlind_issueStore _))

theorem runsAlike_execStb (n : Reg) : RunsAlike noFlags s (execStb n s) (execStb n (s.withFlagsOf f)) := by
  unfold execStb
  rw [State.withFlagsOf_reg, State.withFlagsOf_src, noteRam_withFlagsOf, storeByte_withFlagsOf]
  cases h : (s.noteRam (s.reg n)).storeByte (s.reg n) (lowByte s.src) with
  | error r => exact runsAlike_refused r
  | ok t =>
    cases storeByte_ok h
    exact runsAlike_finish (((flagsDecided_start s f).map (flagBlind_noteRam _)).map (flagBlind_issueStore _))

theorem runsAlike_execSbk : RunsAlike noFlags s (execSbk s) (execSbk (s.withFlagsOf f)) := by
  unfold execSbk
  rw [State.withFlagsOf_sbkAddr, State.withFlagsOf_src, storeWord_withFlagsOf]
  cases h : s.storeWord s.sbkAddr s.src with
  | error r => exact runsAlike_refused r
  | ok t =>
    cases storeWord_ok h
    exact runsAlike_finish ((flagsDecided_start s f).map (flagBlind_issueStore _))

theorem runsAlike_getTo (g : Byte → Word → Word) :
    RunsAlike noFlags s (getTo g s) (getTo g (s.withFlagsOf f)) := by
  unfold getTo
  rw [readRomBuffer_withFlagsOf]
  cases h : s.readRomBuffer with
  | error r => exact runsAlike_refused r
  | ok p =>
    obtain ⟨v, t⟩ := p
    cases readRomBuffer_ok h
    exact runsAlike_finishReg ⟨rfl, rfl, rfl, rfl, rfl⟩

theorem runsAlike_execGetc : RunsAlike noFlags s (execGetc s) (execGetc (s.withFlagsOf f)) := by
  unfold execGetc
  rw [readRomBuffer_withFlagsOf, State.withFlagsOf_por]
  cases h : s.readRomBuffer with
  | error r => exact runsAlike_refused r
  | ok p =>
    obtain ⟨v, t⟩ := p
    cases readRomBuffer_ok h
    show RunsAlike _ _ (if _ then _ else _) (if _ then _ else _)
    split <;> exact runsAlike_finish ⟨rfl, rfl, rfl, rfl, rfl⟩

theorem runsAlike_execFmult : RunsAlike flagsOfSZC s (execFmult s) (execFmult (s.withFlagsOf f)) := by
  unfold execFmult
  rw [State.withFlagsOf_dreg]
  split
  · exact runsAlike_refused _
  · exact runsAlike_finishReg (flagsDecided_setSZC s f _ _)

/-- With DReg = r4 the flags are free values, the same in both runs: they are drawn by their number alone. -/
theorem runsAlike_execLmult : RunsAlike flagsOfSZC s (execLmult s) (execLmult (s.withFlagsOf f)) := by
  unfold execLmult
  rw [State.withFlagsOf_dreg]
  split
  · exact runsAlike_finish ⟨rfl, rfl, rfl, rfl, rfl⟩
  · exact runsAlike_finishReg ((flagsDecided_setSZC s f _ _).map (flagBlind_writeReg 4 _))

theorem runsAlike_execLoop : RunsAlike flagsOfSZ s (execLoop s) (execLoop (s.withFlagsOf f)) :=
  have h := (flagsDecided_setSZ s f (s.reg 12 - 1)).map (flagBlind_writeReg 12 (s.reg 12 - 1))
  runsAlike_complete _ ((h.map (flagBlind_loopJump (s.reg 12 - 1) (s.reg 13))).map flagBlind_clearPrefix)

/-- TO writes no flag, whether it moves or names DReg. -/
theorem runsAlike_execTo (n : Reg) : RunsAlike noFlags s (execTo n s) (execTo n (s.withFlagsOf f)) := by
  unfold execTo
  rw [State.withFlagsOf_b]
  split
  · exact runsAlike_finishReg (flagsDecided_start s f)
  · exact runsAlike_complete _ ⟨rfl, rfl, rfl, rfl, rfl⟩

/-- FROM writes s, z and v where it moves and none where it names SReg. -/
theorem runsAlike_execFrom (n : Reg) :
    RunsAlike ⟨s.b, false, s.b⟩ s (execFrom n s) (execFrom n (s.withFlagsOf f)) := by
  unfold execFrom
  rw [State.withFlagsOf_b]
  cases s.b
  · exact runsAlike_complete _ ⟨rfl, rfl, rfl, rfl, rfl⟩
  · exact runsAlike_finishReg (flagsDecided_setMoves s f _)

/-! ### The table -/

/-- Two runs of a core instruction that is no branch, from states that differ in the flags alone, and not in c if it is one that
reads c: the flags it is listed as writing come out the same, and no other changes. -/
theorem runsAlike_exec {i : Instr} (hc : i.isCore = true) (hb : i.isBranch = false) (hr : i.readsC = true → f.cf = s.cf) :
    RunsAlike (flagsWritten s.b i) s (exec i s) (exec i (s.withFlagsOf f)) := by
  have start := flagsDecided_start s f
  cases i with
  | bra | blt | bge | bne | beq | bpl | bmi | bcc | bcs | bvc | bvs => cases hb
  | alt1 | alt2 | alt3 | withReg => exact runsAlike_complete _ ⟨rfl, rfl, rfl, rfl, rfl⟩
  | toReg n => exact runsAlike_execTo s f n
  | fromReg n => exact runsAlike_execFrom s f n
  | nop => exact runsAlike_finish start
  | stop | cmode | ramb | romb => exact runsAlike_finish ⟨rfl, rfl, rfl, rfl, rfl⟩
  | cache => exact runsAlike_finish (start.map flagBlind_cacheBase)
  | color => exact runsAlike_finish (start.map (flagBlind_setColour _))
  | plot => exact runsAlike_finishReg (start.map flagBlind_plotPixel)
  | rpix => exact runsAlike_finishReg ⟨rfl, rfl, rfl, rfl, rfl⟩
  | loop => exact runsAlike_execLoop s f
  | swap | jmp | link | ibt | iwt => exact runsAlike_finishReg start
  | ljmp => exact runsAlike_finishReg ⟨rfl, rfl, rfl, rfl, rfl⟩
  | ldw | lm | lms => exact runsAlike_loadWordTo s f _ _
  | ldb n => exact runsAlike_execLdb s f n
  | stw | sm | sms => exact runsAlike_storeWordAt s f _ _
  | stb n => exact runsAlike_execStb s f n
  | sbk => exact runsAlike_execSbk s f
  | getb => exact (runsAlike_getTo s f _ : RunsAlike _ s (execGetb s) (execGetb _))
  | getbh => exact (runsAlike_getTo s f _ : RunsAlike _ s (execGetbh s) (execGetbh _))
  | getbl => exact (runsAlike_getTo s f _ : RunsAlike _ s (execGetbl s) (execGetbl _))
  | getbs => exact (runsAlike_getTo s f _ : RunsAlike _ s (execGetbs s) (execGetbs _))
  | getc => exact runsAlike_execGetc s f
  | addR | addI => exact runsAlike_addTo s f _ rfl
  | adcR | adcI => exact runsAlike_addTo s f _ (hr rfl)
  | subR | subI => exact runsAlike_subTo s f _ rfl
  | sbcR => exact runsAlike_subTo s f _ (hr rfl)
  | cmpR => exact runsAlike_finish (flagsDecided_setSub s f _ _ _)
  | inc | dec | multR | umultR | multI | umultI | andR | bicR | andI | bicI | orR | xorR | orI | xorI | notW | sex =>
    exact runsAlike_finishReg (flagsDecided_setSZ s f _)
  | hib | lob => exact runsAlike_finishReg (flagsDecided_setByteSZ s f _)
  | asr | div2 | lsr => exact runsAlike_shiftTo s f _ rfl
  | rol => exact runsAlike_shiftTo s f _ (congrArg (rolResult s.src) (hr rfl))
  | ror => exact runsAlike_shiftTo s f _ (congrArg (rorResult s.src) (hr rfl))
  | merge => exact runsAlike_finishReg (flagsDecided_setMerge s f _)
  | fmult => exact runsAlike_execFmult s f
  | lmult => exact runsAlike_execLmult s f
  | _ => cases hc

end

/-- A branch is `branchIf` on some condition. -/
theorem exec_branch {i : Instr} (h : i.isBranch = true) (s : State) : ∃ cond d, exec i s = branchIf cond d s := by
  cases i with
  | bra d | blt d | bge d | bne d | beq d | bpl d | bmi d | bcc d | bcs d | bvc d | bvs d => exact ⟨_, d, rfl⟩
  | _ => cases h

/-- A flag that the instruction is not listed as writing stays. -/
theorem flagsKept_where_not_written {i : Instr} {s t : State} (hc : i.isCore = true) (h : exec i s = .next t) :
    (i.writesV s.b = false → t.vf = s.vf) ∧ (i.writesC = false → t.cf = s.cf) ∧
      (i.writesSZ s.b = false → t.sf = s.sf ∧ t.zf = s.zf) := by
  cases hb : i.isBranch
  · have r := runsAlike_exec s s hc hb fun _ => rfl
    rw [h] at r
    obtain ⟨u, _, d⟩ := r
    exact ⟨d.overflow.kept, d.carry.kept, fun hw => ⟨d.sign.kept hw, d.zero.kept hw⟩⟩
  · obtain ⟨cond, d, e⟩ := exec_branch hb s
    obtain ⟨u, hu, _, _, _, _, _, k, _⟩ := branchIf_spec cond d s
    cases (e.symm.trans h).symm.trans hu
    exact ⟨fun _ => k.overflow, fun _ => k.carry, fun _ => ⟨k.sign, k.zero⟩⟩

/-- LSR shifts a 0 into bit 15, so s is 0 (42_logic_shift.md R187). -/
theorem exec_lsr_sign {s t : State} (h : exec .lsr s = .next t) : t.sf = false := by
  obtain ⟨u, hu, _, k⟩ := finishDst_setSZC (s.src >>> 1) (s.src.getLsbD 0) s
  cases h.symm.trans hu
  simp [k.sign]

/-- Settles O16: what an instruction leaves, from two runs that start from one state; what it reads, from two that start from
states with different flags. -/
theorem flagsAreWrittenAndReadOnlyWhereListed : Obligations.FlagsAreWrittenAndReadOnlyWhereListed := by
  refine ⟨fun i s t hc h => ?_, fun i s f hc hb hr => ?_⟩
  · obtain ⟨hv, hca, hsz⟩ := flagsKept_where_not_written hc h
    refine ⟨hv, hca, hsz, ?_⟩
    rintro rfl
    exact exec_lsr_sign h
  · have r := runsAlike_exec s f hc hb hr
    cases h : exec i s with
    | next t =>
      rw [h] at r
      obtain ⟨u, hu, d⟩ := r
      exact ⟨u, hu, d.withFlagsOf_eq, d.overflow.same, d.carry.same,
        fun hw => ⟨d.sign.same hw, d.zero.same hw⟩⟩
    | fault e | refused e =>
      rw [h] at r
      exact r

end Sys2Proof.Machine
end

section
/-!
PROOF. The family of 40_prefix.md: the ALT prefixes (R130 to R132). What a prefix leaves is `completePrefix_spec`, what a branch
leaves is `branchIf_spec`; here are the bytes they are decoded from and the statement made of them.
-/

namespace Sys2Proof.Machine

/-! ## The bytes of the ALT prefixes (30_encoding.md R108, R111) -/

/-- An ALT prefix byte is the same prefix whatever ALT mode is in force: the second prefix of a pair is read like the first. -/
theorem decode_altPrefix (alt : Alt) (rest : List Byte) :
    decode alt (0x3d :: rest) = .ok (.alt1, rest) ∧ decode alt (0x3e :: rest) = .ok (.alt2, rest) ∧
      decode alt (0x3f :: rest) = .ok (.alt3, rest) :=
  ⟨rfl, rfl, rfl⟩

/-- The examples of R130, R131 and R132: a byte of rows 5 and 6 read after ALT1, after ALT2 and after ALT3. -/
theorem decode_after_altPrefix (rest : List Byte) :
    decode (altMode true false) (0x50 :: rest) = .ok (.adcR 0, rest) ∧
      decode (altMode false true) (0x53 :: rest) = .ok (.addI 3, rest) ∧
      decode (altMode true true) (0x61 :: rest) = .ok (.cmpR 1, rest) :=
  ⟨rfl, rfl, rfl⟩

/-! ## What a branch leaves (46_control.md R280) -/

/-- A branch leaves all prefix data, whether it is taken or not. -/
theorem exec_branch_prefixKept {i : Instr} {s t : State} (hb : i.isBranch = true) (h : exec i s = .next t) : PrefixKept s t := by
  obtain ⟨cond, d, e⟩ := exec_branch hb s
  obtain ⟨u, hu, _, _, _, _, _, _, k, _⟩ := branchIf_spec cond d s
  cases (e.symm.trans h).symm.trans hu
  exact k

/-- Settles O20: the decoder's rows, the rule of the branches, and the end of a prefix at each of the three flag settings. -/
theorem altPrefixesSetTheirFlagsAlone : Obligations.AltPrefixesSetTheirFlagsAlone := by
  refine ⟨decode_altPrefix, decode_after_altPrefix, fun i s t hb h => ?_, fun s => ⟨?alt1, ?alt2, ?alt3⟩⟩
  · have k := exec_branch_prefixKept hb h
    exact ⟨k.alt1, k.alt2⟩
  case alt1 => exact completePrefix_spec (b := { s with alt1 := true }) rfl
  case alt2 => exact completePrefix_spec (b := { s with alt2 := true }) rfl
  case alt3 => exact completePrefix_spec (b := { s with alt1 := true, alt2 := true }) rfl

end Sys2Proof.Machine
end

section
/-!
PROOF. The family of 41_arithmetic.md: CMP (R154), INC and DEC (R155, R157), the byte products (R159, R162) and FMULT (R156).
The decoder's part of each statement goes through the two fields of an opcode byte; the other part joins the end of the
meaning (Laws/Ops.lean) to what its value is as a number (Laws/Values.lean).
-/

namespace Sys2Proof

/-! ## The fields of an opcode byte built by `byteOf` (30_encoding.md R101 to R103) -/

theorem byteOf_toNat {h l : Nat} (hh : h < 16) (hl : l < 16) : (byteOf h l).toNat = 16 * h + l := by
  rw [byteOf, BitVec.toNat_ofNat]
  omega

theorem highNibble_byteOf {h l : Nat} (hh : h < 16) (hl : l < 16) : highNibble (byteOf h l) = ⟨h, hh⟩ := by
  simp only [highNibble, byteOf_toNat hh hl, Fin.mk.injEq]
  omega

theorem lowReg_byteOf {h : Nat} (hh : h < 16) (n : Reg) : lowReg (byteOf h n) = n := by
  simp only [lowReg, byteOf_toNat hh n.isLt, Fin.ext_iff]
  omega

theorem lowImm_byteOf {h : Nat} (hh : h < 16) (k : Nibble) : lowImm (byteOf h k.toNat) = k := by
  apply BitVec.eq_of_toNat_eq
  rw [lowImm, byteOf_toNat hh k.isLt, BitVec.toNat_ofNat]
  omega

/-! ## Whole rows of the opcode map (R108, R109) -/

/-- Row `$6n`, whatever the low nibble `l` of the byte. -/
theorem shape_row6 (alt : Alt) {l : Nat} (hl : l < 16) :
    shape alt (byteOf 6 l) = fourForms alt (.subR (lowReg (byteOf 6 l))) (.sbcR (lowReg (byteOf 6 l)))
      (.subI (lowImm (byteOf 6 l))) (.cmpR (lowReg (byteOf 6 l))) := by
  simp only [shape, highNibble_byteOf (h := 6) (by decide) hl]
  rfl

/-- Row `$8n`, whatever the low nibble `l` of the byte. -/
theorem shape_row8 (alt : Alt) {l : Nat} (hl : l < 16) :
    shape alt (byteOf 8 l) = fourForms alt (.multR (lowReg (byteOf 8 l))) (.umultR (lowReg (byteOf 8 l)))
      (.multI (lowImm (byteOf 8 l))) (.umultI (lowImm (byteOf 8 l))) := by
  simp only [shape, highNibble_byteOf (h := 8) (by decide) hl]
  rfl

theorem shape_rowD (alt : Alt) (n : Reg) : shape alt (byteOf 13 n) = shapeRowD alt n := by
  simp only [shape, highNibble_byteOf (h := 13) (by decide) n.isLt, lowReg_byteOf (h := 13) (by decide)]
  rfl

theorem shape_rowE (alt : Alt) (n : Reg) : shape alt (byteOf 14 n) = shapeRowE alt n := by
  simp only [shape, highNibble_byteOf (h := 14) (by decide) n.isLt, lowReg_byteOf (h := 14) (by decide)]
  rfl

theorem decode_cmpR (n : Reg) (rest : List Byte) : decode .three (byteOf 6 n :: rest) = .ok (.cmpR n, rest) := by
  rw [decode, shape_row6 _ n.isLt, lowReg_byteOf (by decide)]
  rfl

/-- R159 and R162: the ALT mode chooses the signed or the unsigned product, and the register or the immediate. -/
theorem decode_byteProducts (n : Reg) (k : Nibble) (rest : List Byte) :
    decode .none (byteOf 8 n :: rest) = .ok (.multR n, rest) ∧
      decode .one (byteOf 8 n :: rest) = .ok (.umultR n, rest) ∧
      decode .two (byteOf 8 k.toNat :: rest) = .ok (.multI k, rest) ∧
      decode .three (byteOf 8 k.toNat :: rest) = .ok (.umultI k, rest) := by
  simp only [decode, shape_row8 _ n.isLt, shape_row8 _ k.isLt, lowReg_byteOf (h := 8) (by decide),
    lowImm_byteOf (h := 8) (by decide)]
  exact ⟨rfl, rfl, rfl, rfl⟩

/-- A register that INC and DEC can name is not r15: the low nibble 15 of their rows is GETC and GETB. -/
theorem ne_of_countRegOk {n : Reg} (h : countRegOk n = true) : n ≠ 15 := by
  rintro rfl
  cases h

theorem shapeRowD_of_ne (alt : Alt) {n : Reg} (h : n ≠ 15) : shapeRowD alt n = .plain (.inc n) := by
  unfold shapeRowD
  split
  · exact absurd rfl h
  · rfl

theorem shapeRowE_of_ne (alt : Alt) {n : Reg} (h : n ≠ 15) : shapeRowE alt n = onlyPlain alt (.dec n) := by
  unfold shapeRowE
  split
  · exact absurd rfl h
  · rfl

/-- No ALT mode changes INC (R157). -/
theorem decode_inc {n : Reg} (h : countRegOk n = true) (alt : Alt) (rest : List Byte) :
    decode alt (byteOf 13 n :: rest) = .ok (.inc n, rest) := by
  rw [decode, shape_rowD, shapeRowD_of_ne alt (ne_of_countRegOk h)]
  rfl

/-- DEC has a form only while neither ALT flag is set (R155, R111). -/
theorem decode_dec {n : Reg} (h : countRegOk n = true) (alt : Alt) (rest : List Byte) :
    decode alt (byteOf 14 n :: rest) = (onlyPlain alt (.dec n)).complete rest := by
  rw [decode, shape_rowE, shapeRowE_of_ne alt (ne_of_countRegOk h)]

theorem onlyPlain_of_ne {alt : Alt} (h : alt ≠ .none) (i : Instr) : onlyPlain alt i = .undefined := by
  cases alt with
  | none => exact absurd rfl h
  | one | two | three => rfl

end Sys2Proof

namespace Sys2Proof.Machine

/-! ## The flags of a difference (41_arithmetic.md R151, R154) -/

/-- The zero flag of a difference says whether its operands are equal. -/
theorem FlagsOfSum.zero_iff_eq {carry : Prop} {i : Int} {x y : Word} {t : State} (f : FlagsOfSum carry i (x - y) t) :
    t.zf = true ↔ x = y := by
  rw [f.zero, decide_eq_true_iff, sub_eq_zero]

/-- The sign of a difference, put right where it overflows, says whether its operands are in signed order. -/
theorem FlagsOfSum.sign_xor_overflow_iff_lt {carry : Prop} {x y : Word} {t : State}
    (f : FlagsOfSum carry (x.toInt - y.toInt) (x - y) t) : (t.sf ^^ t.vf) = true ↔ x.toInt < y.toInt := by
  have hv : t.vf = decide (x.toInt - y.toInt < -32768 ∨ 32767 < x.toInt - y.toInt) := by
    rw [Bool.eq_iff_iff, f.overflow, decide_eq_true_iff]
  have hr : (x - y).toNat = (65536 - y.toNat + x.toNat) % 65536 := BitVec.toNat_sub x y
  have hx := x.isLt
  have hy := y.isLt
  rw [f.sign, hv, word_bit15, hr, bne_iff_ne, ne_eq, decide_eq_decide, word_toInt, word_toInt]
  split_ifs <;> omega

/-- CMP ends without a result, with the flags of SReg - Rn (R154). -/
theorem execCmpR_spec (n : Reg) (s : State) :
    ∃ t, exec (.cmpR n) s = .next t ∧ WroteNoReg s t ∧
      FlagsOfSum ((s.reg n).toNat ≤ s.src.toNat) (s.src.toInt - (s.reg n).toInt) (s.src - s.reg n) t := by
  obtain ⟨t, h, w, f⟩ := finish_spec (s.setSub s.src (s.reg n) true)
  have hr : adderResult s.src (~~~ s.reg n) true = s.src - s.reg n := by
    simpa [carryIn] using adderResult_sub s.src (s.reg n) true
  refine ⟨t, h, w.of_withFlagsOf (f := s), ?sign, ?zero, ?carry, ?overflow⟩
  case sign => rw [← hr, ← msb_eq_bit15]; exact f.sign
  case zero => rw [← hr]; exact f.zero
  case carry => rw [f.carry]; simpa [carryIn] using subCarry_iff s.src (s.reg n) true
  case overflow => rw [f.overflow]; simpa [carryIn] using subOverflow_iff s.src (s.reg n) true

/-- Settles O25: the decoder's row, the end of CMP, and the order read off the flags of a difference. -/
theorem cmpComparesAndStoresNothing : Obligations.CmpComparesAndStoresNothing := by
  refine ⟨decode_cmpR, fun s n => ?_⟩
  obtain ⟨t, h, w, f⟩ := execCmpR_spec n s
  exact ⟨t, h, w, f, f.zero_iff_eq, f.sign_xor_overflow_iff_lt⟩

/-! ## Products (R156, R159, R162) -/

/-- The low byte of an immediate operand is the immediate, so its top bit is 0. -/
theorem lowByte_immOperand_toNat (k : Nibble) : (lowByte (immOperand k)).toNat = k.toNat := by
  have := k.isLt
  rw [lowByte_toNat, immOperand, zext4, BitVec.toNat_setWidth]
  omega

theorem lowByte_immOperand_toInt (k : Nibble) : (lowByte (immOperand k)).toInt = (k.toNat : Int) := by
  have := k.isLt
  rw [BitVec.toInt_eq_toNat_of_lt (by rw [lowByte_immOperand_toNat]; omega), lowByte_immOperand_toNat]

/-- Settles O28: each of the four is `SetSZ` and a write of DReg, and no product leaves 16 bits. -/
theorem byteProductsAreExact : Obligations.ByteProductsAreExact := by
  refine ⟨decode_byteProducts, fun s n k => ⟨?multR, ?multI, ?umultR, ?umultI⟩⟩
  case multR => exact ⟨_, signedByteProduct_toInt s.src (s.reg n), finishDst_setSZ _ s⟩
  case multI =>
    refine ⟨signedByteProduct s.src (immOperand k), ?_, finishDst_setSZ _ s⟩
    rw [signedByteProduct_toInt, lowByte_immOperand_toInt]
  case umultR => exact ⟨_, unsignedByteProduct_toNat s.src (s.reg n), finishDst_setSZ _ s⟩
  case umultI =>
    refine ⟨unsignedByteProduct s.src (immOperand k), ?_, finishDst_setSZ _ s⟩
    rw [unsignedByteProduct_toNat, lowByte_immOperand_toNat]

/-- FMULT with DReg not r4 (R156). -/
theorem execFmult_of_ne {s : State} (h : s.dreg ≠ 4) :
    YieldsSZC (productHigh s.src (s.reg 6)) (productCarry s.src (s.reg 6)) s (execFmult s) := by
  rw [execFmult, if_neg h]
  exact finishDst_setSZC _ _ s

/-- The spec refuses r4 as FMULT's destination (R156). -/
theorem execFmult_r4 {s : State} (h : s.dreg = 4) : execFmult s = .refused .r4Destination := if_pos h

/-- Settles O29: the high word of the product is its quotient by 65536, the carry the bit below; DReg = r4 stops first. -/
theorem fmultGivesTheHighWord : Obligations.FmultGivesTheHighWord := by
  refine ⟨fun rest => rfl, fun s => ⟨fun h => ?_, fun h => execFmult_r4 h⟩⟩
  refine ⟨productHigh s.src (s.reg 6), productHigh_toInt _ _, ?_⟩
  rw [← productCarry_eq]
  exact execFmult_of_ne h

/-! ## INC and DEC (R155, R157) -/

/-- Settles O27: the decoder's rows, and the end of INC and DEC at the register named. -/
theorem incAndDecStepTheirRegister : Obligations.IncAndDecStepTheirRegister := by
  refine ⟨fun n alt rest hn => ⟨decode_inc hn alt rest, decode_dec hn .none rest, fun ha => ?_⟩, rfl, rfl, fun s n _ => ?_⟩
  · rw [decode_dec hn, onlyPlain_of_ne ha]
    rfl
  · exact ⟨finishReg_setSZ n (s.reg n + 1) s, finishReg_setSZ n (s.reg n - 1) s⟩

end Sys2Proof.Machine
end

section
/-!
PROOF. The family of 42_logic_shift.md: the logic instructions (R181, R183, R189, R190, R195), the shifts (R182, R184, R187,
R191, R192) and the byte instructions (R185, R186, R193, R194). Every meaning here ends in one write of DReg; what is left to
say is which number the value written is.
-/

namespace Sys2Proof

/-! ## Rows `$7n` and `$Cn` of the opcode map (30_encoding.md R108, R109) -/

/-- The low nibble of a byte read as an immediate is its register number read as four bits. -/
theorem lowImm_byteOf_reg {h : Nat} (hh : h < 16) (n : Reg) : lowImm (byteOf h n) = BitVec.ofFin n :=
  lowImm_byteOf hh (BitVec.ofFin n)

theorem shapeRow7_of_ne (alt : Alt) {n : Reg} (h : n ≠ 0) (k : Nibble) :
    shapeRow7 alt n k = fourForms alt (.andR n) (.bicR n) (.andI k) (.bicI k) := by
  unfold shapeRow7
  split
  · exact absurd rfl h
  · rfl

theorem shapeRowC_of_ne (alt : Alt) {n : Reg} (h : n ≠ 0) (k : Nibble) :
    shapeRowC alt n k = fourForms alt (.orR n) (.xorR n) (.orI k) (.xorI k) := by
  unfold shapeRowC
  split
  · exact absurd rfl h
  · rfl

theorem shape_row7 (alt : Alt) (n : Reg) : shape alt (byteOf 7 n) = shapeRow7 alt n (.ofFin n) := by
  simp only [shape, highNibble_byteOf (h := 7) (by decide) n.isLt, lowReg_byteOf (h := 7) (by decide),
    lowImm_byteOf_reg (h := 7) (by decide)]
  rfl

theorem shape_rowC (alt : Alt) (n : Reg) : shape alt (byteOf 12 n) = shapeRowC alt n (.ofFin n) := by
  simp only [shape, highNibble_byteOf (h := 12) (by decide) n.isLt, lowReg_byteOf (h := 12) (by decide),
    lowImm_byteOf_reg (h := 12) (by decide)]
  rfl

/-- Row `$7n` but for `$70`: under ALT2 and ALT3 the nibble that names a register is the immediate itself (R181, R183). -/
theorem decode_row7 {n : Reg} (h : n ≠ 0) (alt : Alt) (rest : List Byte) :
    decode alt (byteOf 7 n :: rest) =
      (fourForms alt (.andR n) (.bicR n) (.andI (.ofFin n)) (.bicI (.ofFin n))).complete rest := by
  rw [decode, shape_row7, shapeRow7_of_ne alt h]

/-- Row `$Cn` but for `$C0` (R190, R195). -/
theorem decode_rowC {n : Reg} (h : n ≠ 0) (alt : Alt) (rest : List Byte) :
    decode alt (byteOf 12 n :: rest) =
      (fourForms alt (.orR n) (.xorR n) (.orI (.ofFin n)) (.xorI (.ofFin n))).complete rest := by
  rw [decode, shape_rowC, shapeRowC_of_ne alt h]

/-- R111: operand 0 of rows `$7n` and `$Cn` encodes MERGE and HIB, which no ALT prefix has a form of. -/
theorem decode_operandZero_of_ne {alt : Alt} (h : alt ≠ .none) (rest : List Byte) :
    decode alt (0x70 :: rest) = .error .undefinedAltForm ∧ decode alt (0xc0 :: rest) = .error .undefinedAltForm :=
  ⟨congrArg (Shape.complete · rest) (onlyPlain_of_ne h .merge), congrArg (Shape.complete · rest) (onlyPlain_of_ne h .hib)⟩

end Sys2Proof

namespace Sys2Proof.Machine

/-! ## Logic (42_logic_shift.md R181, R183, R189, R190, R195) -/

/-- A logic result goes to DReg with s and z (R180). -/
theorem logicTo_spec (r : Word) (s : State) : YieldsSZ r s (logicTo r s) := finishDst_setSZ r s

/-- Settles O31: the two rows of the decoder and the bytes outside them; each meaning is `SetSZ` and a write of DReg. -/
theorem logicInstructionsAreBitwise : Obligations.LogicInstructionsAreBitwise := by
  refine ⟨fun n k rest hn hk => ?rows, fun rest => ⟨rfl, rfl, rfl, fun alt ha => decode_operandZero_of_ne ha rest⟩,
    fun s n k => ?results⟩
  case rows =>
    have hk : k.toFin ≠ 0 := fun e => hk (BitVec.eq_of_toFin_eq e)
    exact ⟨decode_row7 hn .none rest, decode_row7 hk .two rest, decode_row7 hn .one rest, decode_row7 hk .three rest,
      decode_rowC hn .none rest, decode_rowC hk .two rest, decode_rowC hn .one rest, decode_rowC hk .three rest⟩
  case results =>
    exact ⟨logicTo_spec _ s, logicTo_spec _ s, logicTo_spec _ s, logicTo_spec _ s, logicTo_spec _ s, logicTo_spec _ s,
      logicTo_spec _ s, logicTo_spec _ s, logicTo_spec _ s⟩

/-! ## Shifts (R182, R184, R187, R191, R192) -/

/-- -1 is the word with every bit set, the one input on which DIV2 and ASR differ (R184). -/
theorem word_toInt_eq_neg_one_iff (a : Word) : a.toInt = -1 ↔ a = 0xFFFF := by
  rw [← BitVec.toInt_inj]
  rfl

/-- DIV2 rounds down as ASR does, but for -1, which it takes to 0 (R184). -/
theorem div2Result_toInt (a : Word) :
    (if a = 0xFFFF then 0 else asrResult a : Word).toInt = if a.toInt = -1 then 0 else a.toInt / 2 := by
  simp only [word_toInt_eq_neg_one_iff]
  split_ifs
  · rfl
  · exact asrResult_toInt a

/-- A shift's result goes to DReg with s, z and the bit shifted out. -/
theorem shiftTo_spec (r : Word) (out : Bool) (s : State) : YieldsSZC r out s (shiftTo r out s) := finishDst_setSZC r out s

/-- Settles O32: what each shift writes, as a number, and `SetSZ` with the bit shifted out. -/
theorem shiftsHalveAndDouble : Obligations.ShiftsHalveAndDouble := by
  refine ⟨fun rest => ⟨rfl, rfl, rfl, rfl, rfl⟩, fun s => ⟨?asr, ?div2, ?lsr, ?rol, ?ror⟩⟩
  case asr => exact ⟨_, asrResult_toInt s.src, shiftTo_spec _ _ s⟩
  case div2 => exact ⟨_, div2Result_toInt s.src, shiftTo_spec _ _ s⟩
  case lsr =>
    refine ⟨s.src >>> 1, ?_, ?_, shiftTo_spec _ _ s⟩
    · rw [BitVec.toNat_ushiftRight, Nat.shiftRight_eq_div_pow, pow_one]
    · simp
  case rol =>
    refine ⟨_, rolResult_toNat s.src s.cf, ?_⟩
    rw [← msb_eq_bit15]
    exact shiftTo_spec _ _ s
  case ror => exact ⟨_, rorResult_toNat s.src s.cf, shiftTo_spec _ _ s⟩

/-! ## Bytes (R185, R186, R193, R194) -/

theorem zext8_toNat (b : Byte) : (zext8 b).toNat = b.toNat := BitVec.toNat_setWidth_of_le (by decide)

theorem zext8_bit7 (b : Byte) : (zext8 b).getLsbD 7 = b.msb := by
  simp [zext8, BitVec.msb_eq_getLsbD_last]

theorem zext8_eq_zero_iff (b : Byte) : zext8 b = 0 ↔ b = 0 := by
  rw [← BitVec.toNat_inj, ← BitVec.toNat_inj, zext8_toNat]
  rfl

/-- The word HIB and LOB write is 0 exactly when its low byte is. -/
theorem zext8_eq_zero_iff_toNat_mod (b : Byte) : zext8 b = 0 ↔ (zext8 b).toNat % 256 = 0 := by
  rw [zext8_eq_zero_iff, zext8_toNat, Nat.mod_eq_of_lt b.isLt, ← BitVec.toNat_inj]
  rfl

/-- A byte written to DReg after its own flags, as HIB and LOB do: s is bit 7 of the word written, z is its own. -/
theorem finishDst_setByteSZ (b : Byte) (s : State) :
    ∃ t, finishDst (zext8 b) (s.setByteSZ b) = .next t ∧ WroteReg s.dreg (zext8 b) s t ∧
      t.sf = (zext8 b).getLsbD 7 ∧ t.zf = decide (zext8 b = 0) ∧ t.cf = s.cf ∧ t.vf = s.vf := by
  obtain ⟨t, h, w, f⟩ := finishReg_spec s.dreg (zext8 b) (s.setByteSZ b)
  refine ⟨t, h, w.of_withFlagsOf (f := s), ?sign, ?zero, f.carry, f.overflow⟩
  case sign => exact f.sign.trans (zext8_bit7 b).symm
  case zero => exact f.zero.trans (decide_eq_decide.2 (zext8_eq_zero_iff b).symm)

/-- A sign-extended byte is the same signed number (R193). -/
theorem sext8_toInt (b : Byte) : (sext8 b).toInt = b.toInt := BitVec.toInt_signExtend_of_le (by decide)

/-- Settles O34: the value each of the four writes, as a number; HIB and LOB set the flags of the byte, SWAP sets none. -/
theorem byteInstructionsAndTheirFlags : Obligations.ByteInstructionsAndTheirFlags := by
  refine ⟨fun rest => ⟨rfl, rfl, rfl, rfl⟩, fun s => ⟨?hib, ?lob, ?sex, ?swap⟩⟩
  case hib =>
    obtain ⟨t, h, w, sign, zero, kept⟩ := finishDst_setByteSZ (highByte s.src) s
    exact ⟨_, t, (zext8_toNat _).trans (highByte_toNat _), h, w, sign,
      zero.trans (decide_eq_decide.2 (zext8_eq_zero_iff_toNat_mod _)), kept⟩
  case lob =>
    obtain ⟨t, effect⟩ := finishDst_setByteSZ (lowByte s.src) s
    exact ⟨_, t, (zext8_toNat _).trans (lowByte_toNat _), effect⟩
  case sex => exact ⟨_, sext8_toInt (lowByte s.src), logicTo_spec _ s⟩
  case swap =>
    refine ⟨wordOf (lowByte s.src) (highByte s.src), ?_, finishReg_spec _ _ s⟩
    rw [wordOf_toNat, lowByte_toNat, highByte_toNat]

end Sys2Proof.Machine
end

section
/-!
PROOF. The family of 43_immediate_move.md: the immediate loads IBT and IWT (R210, R211), LEA (R212) and the immediate forms of
MOVE (R213). Every meaning here ends in one `WriteReg` of the register named; a spelling is the one core instruction that it
is assembled to.
-/

namespace Sys2Proof

/-! ## Rows `$An` and `$Fn` of the opcode map (30_encoding.md R108, R109) -/

theorem shape_rowA (alt : Alt) (n : Reg) : shape alt (byteOf 10 n) = shapeRowA alt n := by
  simp only [shape, highNibble_byteOf (h := 10) (by decide) n.isLt, lowReg_byteOf (h := 10) (by decide)]
  rfl

theorem shape_rowF (alt : Alt) (n : Reg) : shape alt (byteOf 15 n) = shapeRowF alt n := by
  simp only [shape, highNibble_byteOf (h := 15) (by decide) n.isLt, lowReg_byteOf (h := 15) (by decide)]

theorem decode_ibt (n : Reg) (k : Byte) (rest : List Byte) :
    decode .none (byteOf 10 n :: k :: rest) = .ok (.ibt n k, rest) := by
  rw [decode, shape_rowA]
  rfl

/-- The low byte stands first (R106, R211). -/
theorem decode_iwt (n : Reg) (lo hi : Byte) (rest : List Byte) :
    decode .none (byteOf 15 n :: lo :: hi :: rest) = .ok (.iwt n (wordOf hi lo), rest) := by
  rw [decode, shape_rowF]
  rfl

/-! ## The bytes of LEA (R212) -/

theorem encode_iwt (n : Reg) (w : Word) : encode (.iwt n w) = [byteOf 15 n, lowByte w, highByte w] := rfl

theorem encode_lea_eq_iwt (n : Reg) (a : BitVec 24) : encode (.lea n a) = encode (.iwt n (a.extractLsb' 0 16)) := rfl

theorem lowByte_extractWord (a : BitVec 24) : lowByte (a.extractLsb' 0 16) = a.extractLsb' 0 8 :=
  BitVec.extractLsb'_extractLsb'_of_le (by decide)

theorem highByte_extractWord (a : BitVec 24) : highByte (a.extractLsb' 0 16) = a.extractLsb' 8 8 :=
  BitVec.extractLsb'_extractLsb'_of_le (by decide)

theorem encode_lea (n : Reg) (a : BitVec 24) :
    encode (.lea n a) = [byteOf 15 n, a.extractLsb' 0 8, a.extractLsb' 8 8] := by
  rw [encode_lea_eq_iwt, encode_iwt, lowByte_extractWord, highByte_extractWord]

end Sys2Proof

namespace Sys2Proof.Machine

/-! ## The meanings -/

/-- R210: one write of the byte sign-extended. -/
theorem exec_ibt_spec (n : Reg) (k : Byte) (s : State) : YieldsPlain n (k.signExtend 16) s (exec (.ibt n k) s) :=
  finishReg_spec n (sext8 k) s

/-- R211: one write of the whole word. -/
theorem exec_iwt_spec (n : Reg) (w : Word) (s : State) : YieldsPlain n w s (exec (.iwt n w) s) := finishReg_spec n w s

theorem exec_lea_eq_iwt (n : Reg) (a : BitVec 24) (s : State) :
    exec (.lea n a) s = exec (.iwt n (a.extractLsb' 0 16)) s := exec_spelling rfl s

theorem exec_moveI8_eq_ibt (n : Reg) (k : Byte) (s : State) : exec (.moveI8 n k) s = exec (.ibt n k) s :=
  exec_spelling rfl s

theorem exec_moveI16_eq_iwt (n : Reg) (w : Word) (s : State) : exec (.moveI16 n w) s = exec (.iwt n w) s :=
  exec_spelling rfl s

/-- Settles O36: the two rows of the decoder, LEA's bytes as IWT's, and each spelling run as its core instruction. -/
theorem immediatesReachTheirRegister : Obligations.ImmediatesReachTheirRegister := by
  refine ⟨fun n k lo hi rest => ⟨decode_ibt n k rest, decode_iwt n lo hi rest⟩, encode_lea, fun s n k w a => ?meanings⟩
  case meanings =>
    rw [exec_moveI8_eq_ibt, exec_moveI16_eq_iwt, exec_lea_eq_iwt, BitVec.truncate_eq_setWidth,
      BitVec.setWidth_eq_extractLsb' (by decide)]
    exact ⟨exec_ibt_spec n k s, exec_ibt_spec n k s, exec_iwt_spec n w s, exec_iwt_spec n w s, exec_iwt_spec n _ s⟩

end Sys2Proof.Machine
end

section
/-!
PROOF. The family of 45_rom.md: the four GETx (R261 to R264). Each ends in one `WriteReg` of a word made of the ROM buffer's byte
and SReg; the filled buffer enters here, the words below hold for every byte.
-/

namespace Sys2Proof.Machine

/-! ## The words written, as numbers (R262, R263) -/

/-- GETBH's word: the byte on top, SReg's low byte kept. -/
theorem wordOf_lowByte_toNat (b : Byte) (w : Word) : (wordOf b (lowByte w)).toNat = b.toNat * 256 + w.toNat % 256 := by
  rw [wordOf_toNat, lowByte_toNat]

/-- GETBL's word: SReg's high byte kept, the byte below it. -/
theorem wordOf_highByte_toNat (b : Byte) (w : Word) : (wordOf (highByte w) b).toNat = w.toNat / 256 * 256 + b.toNat := by
  rw [wordOf_toNat, highByte_toNat]

/-! ## The meanings, with the buffer filled -/

section
variable {s : State} (loaded : s.romStatus = .loaded)
include loaded

/-- R261: the byte zero-extended. -/
theorem exec_getb_loaded : YieldsPlain s.dreg (zext8 s.rombuf) { s with romPending := false } (exec .getb s) :=
  getTo_loaded loaded fun v _ => zext8 v

/-- R262: the byte above SReg's low byte. -/
theorem exec_getbh_loaded :
    YieldsPlain s.dreg (wordOf s.rombuf (lowByte s.src)) { s with romPending := false } (exec .getbh s) :=
  getTo_loaded loaded fun v a => wordOf v (lowByte a)

/-- R263: the byte below SReg's high byte. -/
theorem exec_getbl_loaded :
    YieldsPlain s.dreg (wordOf (highByte s.src) s.rombuf) { s with romPending := false } (exec .getbl s) :=
  getTo_loaded loaded fun v a => wordOf (highByte a) v

/-- R264: the byte sign-extended. -/
theorem exec_getbs_loaded : YieldsPlain s.dreg (sext8 s.rombuf) { s with romPending := false } (exec .getbs s) :=
  getTo_loaded loaded fun v _ => sext8 v

end

/-- Settles O43: the four forms of `$ef`, and what each GETx writes from a filled buffer, as a number. -/
theorem getbFamilyReadsTheRomBuffer : Obligations.GetbFamilyReadsTheRomBuffer := by
  refine ⟨fun rest => ⟨rfl, rfl, rfl, rfl⟩, fun s loaded => ⟨?getb, ?getbh, ?getbl, ?getbs⟩⟩
  case getb => exact ⟨_, zext8_toNat s.rombuf, exec_getb_loaded loaded⟩
  case getbh => exact ⟨_, wordOf_lowByte_toNat s.rombuf s.src, exec_getbh_loaded loaded⟩
  case getbl => exact ⟨_, wordOf_highByte_toNat s.rombuf s.src, exec_getbl_loaded loaded⟩
  case getbs => exact ⟨_, sext8_toInt s.rombuf, exec_getbs_loaded loaded⟩

end Sys2Proof.Machine
end

section
/-!
PROOF. The family of 46_control.md: the conditional branches (R280 to R287, R289, R290), NOP and STOP (R298, R299), JMP and LOOP
(R294, R297). What each meaning ends in is said by Laws/Ops.lean; here are the decoder's rows, the fetch of a branch, what an
empty buffer means for a read, and the two cases of LOOP.
-/

namespace Sys2Proof

/-! ## Rows `$0n` and `$9n` of the opcode map (30_encoding.md R108 to R111) -/

/-- Row `$0n`: no ALT mode changes a branch. -/
theorem decode_conditionalBranch (alt : Alt) (d : Byte) (rest : List Byte) :
    decode alt (0x0c :: d :: rest) = .ok (.bcc d, rest) ∧ decode alt (0x0d :: d :: rest) = .ok (.bcs d, rest) ∧
      decode alt (0x09 :: d :: rest) = .ok (.beq d, rest) ∧ decode alt (0x07 :: d :: rest) = .ok (.bge d, rest) ∧
      decode alt (0x06 :: d :: rest) = .ok (.blt d, rest) ∧ decode alt (0x0b :: d :: rest) = .ok (.bmi d, rest) ∧
      decode alt (0x0a :: d :: rest) = .ok (.bpl d, rest) ∧ decode alt (0x0e :: d :: rest) = .ok (.bvc d, rest) ∧
      decode alt (0x0f :: d :: rest) = .ok (.bvs d, rest) :=
  ⟨rfl, rfl, rfl, rfl, rfl, rfl, rfl, rfl, rfl⟩

theorem shape_row9 (alt : Alt) (n : Reg) : shape alt (byteOf 9 n) = shapeRow9 alt n (.ofFin n) := by
  simp only [shape, highNibble_byteOf (h := 9) (by decide) n.isLt, lowReg_byteOf (h := 9) (by decide),
    lowImm_byteOf_reg (h := 9) (by decide)]
  rfl

/-- The registers JMP and LJMP can name are six columns of row `$9n` (R115). -/
theorem shapeRow9_of_jumpRegOk (alt : Alt) {n : Reg} (h : jumpRegOk n = true) (k : Nibble) :
    shapeRow9 alt n k = plainOrAlt1 alt (.jmp n) (.ljmp n) := by
  obtain ⟨v, hv⟩ := n
  obtain ⟨low, high⟩ : 8 ≤ v ∧ v ≤ 13 := by simpa [jumpRegOk] using h
  interval_cases v <;> rfl

theorem decode_jmp {n : Reg} (h : jumpRegOk n = true) (rest : List Byte) :
    decode .none (byteOf 9 n :: rest) = .ok (.jmp n, rest) := by
  rw [decode, shape_row9, shapeRow9_of_jumpRegOk _ h]
  rfl

end Sys2Proof

namespace Sys2Proof.Machine

/-! ## The conditional branches (46_control.md R280) -/

/-- A form's fetch leaves r15 behind its in-line bytes. -/
theorem FormTaken.pc_eq {s t : State} {k : Nat} {branch : Bool} {bytes : List Byte} (h : FormTaken s k branch bytes t) :
    t.reg 15 = s.reg 15 + BitVec.ofNat 16 k := by
  rw [h.state]
  exact (State.reg_setReg s 15 15 _).trans (if_pos rfl)

/-- The fetch of a branch takes its offset byte and no other. -/
theorem fetch_branch {s t : State} {bytes : List Byte} (hb : isBranchByte s.altMode s.pipe = true)
    (h : s.fetch = .ok (bytes, t)) : ∃ d, bytes = [s.pipe, d] ∧ FormTaken s 1 true [d] t := by
  obtain ⟨rest, rfl, taken⟩ := fetch_ok h
  rw [inlineBytes_branch hb, hb] at taken
  obtain ⟨d, rfl⟩ := List.length_eq_one_iff.1 taken.length
  exact ⟨d, rfl, taken⟩

/-- Settles O46: the decoder's row, the fetch of a form with one in-line byte, and the rule of the branches at each condition. -/
theorem conditionalBranchesTestTheirFlag : Obligations.ConditionalBranchesTestTheirFlag := by
  refine ⟨decode_conditionalBranch, fun s t bytes hb h => ?fetch, fun s d => ?meanings⟩
  case fetch =>
    obtain ⟨d, hbytes, taken⟩ := fetch_branch hb h
    have offset : s.codeRead s.pbr (s.reg 15) = .ok d := by simpa using taken.reads 0 (by simp)
    exact ⟨taken.pc_eq, taken.next, d, hbytes, offset⟩
  case meanings =>
    exact ⟨branchIf_spec (!s.cf) d s, branchIf_spec s.cf d s, branchIf_spec s.zf d s, branchIf_spec (!(s.sf ^^ s.vf)) d s,
      branchIf_spec (s.sf ^^ s.vf) d s, branchIf_spec s.sf d s, branchIf_spec (!s.sf) d s, branchIf_spec (!s.vf) d s,
      branchIf_spec s.vf d s⟩

/-! ## NOP and STOP (R298, R299) -/

/-- With no store pending, RAM holds what a load sees (20_memory.md R84, R85). -/
theorem read_ram_of_ramBuf_nil {s : State} (h : s.ramBuf = []) (a : Nat) : Memory.read s.ram a = s.ramByte a := by
  rw [State.ramByte, h, readThrough_nil]

/-- With no plot pending, the pixel space holds the pixels (R88). -/
theorem read_pix_of_plotBuf_nil {s : State} (h : s.plotBuf = []) (x y : Byte) :
    Memory.read s.pix (pixelAddr x y) = s.pixel x y := by
  rw [State.pixel, h, readThrough_nil]

theorem step_stopped {s : State} (h : s.go = false) : step s = .fault .stopped := by
  simp [step, h]

/-- Settles O51: both instructions end in `finish`, STOP's with the two buffers written out; a buffer that is empty hides
nothing from a read, and with GO clear there is no step. -/
theorem nopAndStop : Obligations.NopAndStop := by
  refine ⟨fun rest => ⟨rfl, rfl⟩, fun s => ⟨finish_spec s, ?stop⟩⟩
  case stop =>
    obtain ⟨t, ht, w, f⟩ := finish_spec { s.drainPlot.drainRam with go := false, hostIrqs := s.hostIrqs + 1 }
    obtain ⟨regs, cleared, rest⟩ := w
    have noStore : t.ramBuf = [] := rest.ram.pending
    have noPlot : t.plotBuf = [] := rest.pixels.pending
    have ramOut : ∀ a, Memory.read t.ram a = s.ramByte a := fun a =>
      calc Memory.read t.ram a = t.ramByte a := read_ram_of_ramBuf_nil noStore a
        _ = s.drainPlot.drainRam.ramByte a := rest.ram.bytes a
        _ = s.ramByte a := drainRam_ramByte s.drainPlot a
    have pixelsOut : ∀ x y, Memory.read t.pix (pixelAddr x y) = s.pixel x y := fun x y =>
      calc Memory.read t.pix (pixelAddr x y) = t.pixel x y := read_pix_of_plotBuf_nil noPlot x y
        _ = s.drainPlot.pixel x y := rest.pixels.pixels x y
        _ = s.pixel x y := drainPlot_pixel s x y
    exact ⟨t, ht, regs.others, regs.rombuf, regs.romStatus, regs.romPending, cleared, rest,
      ⟨f.zero, f.carry, f.sign, f.overflow⟩, noStore, noPlot, ramOut, pixelsOut, step_stopped rest.system.go⟩

/-! ## JMP and LOOP (R294, R297) -/

/-- LOOP around: the jump to r13 is the end of a write of r15, after the count. -/
theorem execLoop_of_ne {s : State} (h : s.reg 12 ≠ 1) :
    execLoop s = finishReg 15 (s.reg 13) ((s.setSZ (s.reg 12 - 1)).setReg 12 (s.reg 12 - 1)) := by
  have hr : (s.reg 12 - 1 != 0) = true := bne_iff_ne.2 (sub_ne_zero.2 h)
  simp only [execLoop, hr]
  rfl

/-- The last time through LOOP there is the count alone. -/
theorem execLoop_of_eq {s : State} (h : s.reg 12 = 1) : execLoop s = finishReg 12 0 (s.setSZ 0) := by
  simp only [execLoop, h]
  rfl

/-- Settles O48: the decoder's rows, and JMP and each case of LOOP as the end of one more register write. -/
theorem jmpAndLoopWriteTheProgramCounter : Obligations.JmpAndLoopWriteTheProgramCounter := by
  refine ⟨fun n rest => ⟨fun hn => decode_jmp hn rest, rfl⟩, fun s n => ⟨finishReg_spec 15 (s.reg n) s, ?loop⟩⟩
  case loop =>
    show ∃ t, execLoop s = .next t ∧ _
    by_cases h : s.reg 12 = 1
    · obtain ⟨t, ht, w, f⟩ := finishReg_setSZ 12 0 s
      have count : s.reg 12 - 1 = 0 := sub_eq_zero.2 h
      rw [execLoop_of_eq h, count]
      exact ⟨t, ht, f, fun hne => absurd h hne, fun _ => w⟩
    · obtain ⟨t, ht, w, f⟩ := finishReg_spec 15 (s.reg 13) ((s.setSZ (s.reg 12 - 1)).setReg 12 (s.reg 12 - 1))
      rw [execLoop_of_ne h]
      exact ⟨t, ht, ⟨f.sign.trans (msb_eq_bit15 _), f.zero, f.carry, f.overflow⟩, fun _ => w.of_withFlagsOf (f := s),
        fun he => absurd he h⟩

end Sys2Proof.Machine
end

section
/-!
PROOF. The family of 30_encoding.md: the decoder reads back what the encoder writes and nothing else (R101 to R112), the blanks
of the opcode map (R111), and the bytes of every instruction read back as its core instructions (R109, R114). Each fact is said
once per row of the opcode map; a whole byte is its two nibbles.
-/

namespace Sys2Proof

/-! ## Rows of the opcode map (R108, R109) -/

theorem shape_row1 (alt : Alt) (n : Reg) : shape alt (byteOf 1 n) = .plain (.toReg n) := by
  simp only [shape, highNibble_byteOf (h := 1) (by decide) n.isLt, lowReg_byteOf (h := 1) (by decide)]
  rfl

theorem shape_row2 (alt : Alt) (n : Reg) : shape alt (byteOf 2 n) = .plain (.withReg n) := by
  simp only [shape, highNibble_byteOf (h := 2) (by decide) n.isLt, lowReg_byteOf (h := 2) (by decide)]
  rfl

theorem shape_row3 (alt : Alt) (n : Reg) : shape alt (byteOf 3 n) = shapeRow3 alt n := by
  simp only [shape, highNibble_byteOf (h := 3) (by decide) n.isLt, lowReg_byteOf (h := 3) (by decide)]
  rfl

theorem shape_row4 (alt : Alt) (n : Reg) : shape alt (byteOf 4 n) = shapeRow4 alt n := by
  simp only [shape, highNibble_byteOf (h := 4) (by decide) n.isLt, lowReg_byteOf (h := 4) (by decide)]
  rfl

theorem shape_row0 (alt : Alt) (n : Fin 16) : shape alt (byteOf 0 n) = shapeRow0 alt n := by
  simp only [shape, highNibble_byteOf (h := 0) (by decide) n.isLt, lowReg_byteOf (h := 0) (by decide)]
  rfl

/-- Row `$5n`: the nibble that names a register is the immediate itself. -/
theorem shape_row5 (alt : Alt) (n : Reg) :
    shape alt (byteOf 5 n) = fourForms alt (.addR n) (.adcR n) (.addI (.ofFin n)) (.adcI (.ofFin n)) := by
  simp only [shape, highNibble_byteOf (h := 5) (by decide) n.isLt, lowReg_byteOf (h := 5) (by decide),
    lowImm_byteOf_reg (h := 5) (by decide)]
  rfl

/-- Row `$6n` by its register; see `shape_row6`. -/
theorem shape_row6_reg (alt : Alt) (n : Reg) :
    shape alt (byteOf 6 n) = fourForms alt (.subR n) (.sbcR n) (.subI (.ofFin n)) (.cmpR n) := by
  rw [shape_row6 _ n.isLt, lowReg_byteOf (by decide), lowImm_byteOf_reg (by decide)]

/-- Row `$8n` by its register; see `shape_row8`. -/
theorem shape_row8_reg (alt : Alt) (n : Reg) :
    shape alt (byteOf 8 n) = fourForms alt (.multR n) (.umultR n) (.multI (.ofFin n)) (.umultI (.ofFin n)) := by
  rw [shape_row8 _ n.isLt, lowReg_byteOf (by decide), lowImm_byteOf_reg (by decide)]

theorem shape_rowB (alt : Alt) (n : Reg) : shape alt (byteOf 11 n) = .plain (.fromReg n) := by
  simp only [shape, highNibble_byteOf (h := 11) (by decide) n.isLt, lowReg_byteOf (h := 11) (by decide)]
  rfl

/-- The address registers are the first twelve columns of row `$3n` (R115). -/
theorem shapeRow3_of_addressRegOk (alt : Alt) {n : Reg} (h : addressRegOk n = true) :
    shapeRow3 alt n = plainOrAlt1 alt (.stw n) (.stb n) := by
  unfold shapeRow3
  split
  case h_1 | h_2 | h_3 | h_4 => cases h
  case h_5 => rfl

/-- The address registers are the first twelve columns of row `$4n` (R115). -/
theorem shapeRow4_of_addressRegOk (alt : Alt) {n : Reg} (h : addressRegOk n = true) :
    shapeRow4 alt n = plainOrAlt1 alt (.ldw n) (.ldb n) := by
  unfold shapeRow4
  split
  case h_1 | h_2 | h_3 | h_4 => cases h
  case h_5 => rfl

/-- LINK's operands are columns 1 to 4 of row `$9n` (R103). -/
theorem shapeRow9_of_linkOk (alt : Alt) {k : Nibble} (h : linkOk k = true) :
    shapeRow9 alt k.toFin k = onlyPlain alt (.link k) := by
  obtain ⟨⟨v, hv⟩⟩ := k
  obtain ⟨low, high⟩ : 1 ≤ v ∧ v ≤ 4 := by simpa [linkOk] using h
  interval_cases v <;> rfl

/-! ## Reading back an encoding -/

theorem reg_ne_zero_of_logicOperandOk {n : Reg} (h : logicOperandOk n.val = true) : n ≠ 0 := by
  rintro rfl
  cases h

theorem imm_ne_zero_of_logicOperandOk {k : Nibble} (h : logicOperandOk k.toNat = true) : k.toFin ≠ 0 :=
  reg_ne_zero_of_logicOperandOk h

/-- A form with two in-line bytes reads the word whose bytes they are, low byte first (R106). -/
theorem complete_inline16 (f : Word → Instr) (w : Word) (rest : List Byte) :
    (Shape.inline16 f).complete (lowByte w :: highByte w :: rest) = .ok (f w, rest) := by
  rw [Shape.complete, wordOf_bytes]

/-- A core instruction is read back from its bytes under its own ALT mode. -/
theorem decode_encodeBody_own {i : Instr} (hc : i.isCore = true) (hw : i.wf = true) (rest : List Byte) :
    decode (altOf i) (encodeBody i ++ rest) = .ok (i, rest) := by
  cases i with
  | stop | nop | cache | lsr | rol | bra | blt | bge | bne | beq | bpl | bmi | bcc | bcs | bvc | bvs | loop | alt1 | alt2 | alt3
  | plot | rpix | swap | color | cmode | notW | merge | sbk | sex | asr | div2 | ror | lob | fmult | lmult | hib | getc | ramb
  | romb | getb | getbh | getbl | getbs => rfl
  | toReg n => exact congrArg (Shape.complete · rest) (shape_row1 _ n)
  | withReg n => exact congrArg (Shape.complete · rest) (shape_row2 _ n)
  | fromReg n => exact congrArg (Shape.complete · rest) (shape_rowB _ n)
  | stw n | stb n =>
    exact congrArg (Shape.complete · rest) ((shape_row3 _ n).trans (shapeRow3_of_addressRegOk _ hw))
  | ldw n | ldb n =>
    exact congrArg (Shape.complete · rest) ((shape_row4 _ n).trans (shapeRow4_of_addressRegOk _ hw))
  | addR n | adcR n => exact congrArg (Shape.complete · rest) (shape_row5 _ n)
  | addI k | adcI k => exact congrArg (Shape.complete · rest) (shape_row5 _ k.toFin)
  | subR n | sbcR n | cmpR n => exact congrArg (Shape.complete · rest) (shape_row6_reg _ n)
  | subI k => exact congrArg (Shape.complete · rest) (shape_row6_reg _ k.toFin)
  | andR n | bicR n => exact decode_row7 (reg_ne_zero_of_logicOperandOk hw) _ rest
  | andI k | bicI k => exact decode_row7 (imm_ne_zero_of_logicOperandOk hw) _ rest
  | multR n | umultR n => exact congrArg (Shape.complete · rest) (shape_row8_reg _ n)
  | multI k | umultI k => exact congrArg (Shape.complete · rest) (shape_row8_reg _ k.toFin)
  | link k => exact congrArg (Shape.complete · rest) ((shape_row9 _ k.toFin).trans (shapeRow9_of_linkOk _ hw))
  | jmp n | ljmp n =>
    exact congrArg (Shape.complete · rest) ((shape_row9 _ n).trans (shapeRow9_of_jumpRegOk _ hw _))
  | ibt n k | lms n k | sms n k => exact congrArg (Shape.complete · (k :: rest)) (shape_rowA _ n)
  | orR n | xorR n => exact decode_rowC (reg_ne_zero_of_logicOperandOk hw) _ rest
  | orI k | xorI k => exact decode_rowC (imm_ne_zero_of_logicOperandOk hw) _ rest
  | inc n => exact decode_inc hw _ rest
  | dec n => exact decode_dec hw _ rest
  | iwt n w | lm n w | sm n w =>
    exact (congrArg (Shape.complete · _) (shape_rowF _ n)).trans (complete_inline16 _ w rest)
  | _ => cases hc

/-- An instruction that is read under every ALT mode is read back under any (R107, R111). -/
theorem decode_encodeBody_any {i : Instr} (ha : anyAlt i = true) (hw : i.wf = true) (alt : Alt) (rest : List Byte) :
    decode alt (encodeBody i ++ rest) = .ok (i, rest) := by
  cases i with
  | bra | blt | bge | bne | beq | bpl | bmi | bcc | bcs | bvc | bvs | alt1 | alt2 | alt3 => rfl
  | toReg n => exact congrArg (Shape.complete · rest) (shape_row1 _ n)
  | withReg n => exact congrArg (Shape.complete · rest) (shape_row2 _ n)
  | fromReg n => exact congrArg (Shape.complete · rest) (shape_rowB _ n)
  | inc n => exact decode_inc hw _ rest
  | _ => cases ha

/-- Settles O4: under its own ALT mode an instruction is read back row by row; the prefixes, the branches and INC under any. -/
theorem decodeReadsBackEveryCoreEncoding : Obligations.DecodeReadsBackEveryCoreEncoding := by
  rintro i alt rest hc hw (rfl | ha)
  · exact decode_encodeBody_own hc hw rest
  · exact decode_encodeBody_any ha hw alt rest

/-! ## Encoding back what was read -/

/-- A well-formed core instruction of an ALT mode. -/
structure Instr.ReadUnder (alt : Alt) (i : Instr) : Prop where
  core : i.isCore = true
  wf : i.wf = true
  mode : altOf i = alt ∨ anyAlt i = true

theorem decode_encodeBody {alt : Alt} {i : Instr} (h : i.ReadUnder alt) (rest : List Byte) :
    decode alt (encodeBody i ++ rest) = .ok (i, rest) :=
  decodeReadsBackEveryCoreEncoding i alt rest h.core h.wf h.mode

/-- The instruction is one of the ALT mode, and these are its bytes. -/
def EncodesAs (alt : Alt) (bytes : List Byte) (i : Instr) : Prop := i.ReadUnder alt ∧ encodeBody i = bytes

/-- Every instruction a shape can give encodes to the opcode byte and the in-line bytes it was made of. -/
def Shape.EncodesBack (alt : Alt) (op : Byte) : Shape → Prop
  | .plain i => EncodesAs alt [op] i
  | .offset f | .inline8 f => ∀ d, EncodesAs alt [op, d] (f d)
  | .inline16 f => ∀ w, EncodesAs alt [op, lowByte w, highByte w] (f w)
  | .undefined => True

section
variable {alt : Alt} {op : Byte} {i i0 i1 i2 i3 : Instr}

theorem encodesAs_own (hc : i.isCore = true) (hw : i.wf = true) (ha : altOf i = alt) (hb : encodeBody i = [op]) :
    EncodesAs alt [op] i := ⟨⟨hc, hw, .inl ha⟩, hb⟩

theorem encodesAs_any {bytes : List Byte} (hc : i.isCore = true) (hw : i.wf = true) (ha : anyAlt i = true)
    (hb : encodeBody i = bytes) : EncodesAs alt bytes i := ⟨⟨hc, hw, .inr ha⟩, hb⟩

theorem onlyPlain_encodesBack (h : EncodesAs .none [op] i) : (onlyPlain alt i).EncodesBack alt op := by
  cases alt with
  | none => exact h
  | one | two | three => trivial

theorem plainOrAlt1_encodesBack (h0 : EncodesAs .none [op] i0) (h1 : EncodesAs .one [op] i1) :
    (plainOrAlt1 alt i0 i1).EncodesBack alt op := by
  cases alt with
  | none => exact h0
  | one => exact h1
  | two | three => trivial

theorem fourForms_encodesBack (h0 : EncodesAs .none [op] i0) (h1 : EncodesAs .one [op] i1) (h2 : EncodesAs .two [op] i2)
    (h3 : EncodesAs .three [op] i3) : (fourForms alt i0 i1 i2 i3).EncodesBack alt op := by
  cases alt with
  | none => exact h0
  | one => exact h1
  | two => exact h2
  | three => exact h3

end

theorem shapeRow0_encodesBack (alt : Alt) (n : Fin 16) : (shapeRow0 alt n).EncodesBack alt (byteOf 0 n) := by
  unfold shapeRow0
  split
  case h_1 | h_2 | h_3 | h_4 | h_5 => exact onlyPlain_encodesBack (encodesAs_own rfl rfl rfl rfl)
  case h_16 =>
    obtain rfl : n = 15 := by simp only [imp_false, Fin.ext_iff] at *; omega
    exact fun d => encodesAs_any rfl rfl rfl rfl
  all_goals exact fun d => encodesAs_any rfl rfl rfl rfl

theorem shapeRow3_encodesBack (alt : Alt) (n : Reg) : (shapeRow3 alt n).EncodesBack alt (byteOf 3 n) := by
  unfold shapeRow3
  split
  case h_1 => exact onlyPlain_encodesBack (encodesAs_own rfl rfl rfl rfl)
  case h_2 | h_3 | h_4 => exact encodesAs_any rfl rfl rfl rfl
  case h_5 =>
    have hn : addressRegOk n = true := by
      simp only [addressRegOk, decide_eq_true_iff, imp_false, Fin.ext_iff] at *; omega
    exact plainOrAlt1_encodesBack (encodesAs_own rfl hn rfl rfl) (encodesAs_own rfl hn rfl rfl)

theorem shapeRow4_encodesBack (alt : Alt) (n : Reg) : (shapeRow4 alt n).EncodesBack alt (byteOf 4 n) := by
  unfold shapeRow4
  split
  case h_1 | h_3 => exact plainOrAlt1_encodesBack (encodesAs_own rfl rfl rfl rfl) (encodesAs_own rfl rfl rfl rfl)
  case h_2 | h_4 => exact onlyPlain_encodesBack (encodesAs_own rfl rfl rfl rfl)
  case h_5 =>
    have hn : addressRegOk n = true := by
      simp only [addressRegOk, decide_eq_true_iff, imp_false, Fin.ext_iff] at *; omega
    exact plainOrAlt1_encodesBack (encodesAs_own rfl hn rfl rfl) (encodesAs_own rfl hn rfl rfl)

theorem logicOperandOk_of_ne_zero {n : Reg} (h : n ≠ 0) : logicOperandOk n.val = true :=
  decide_eq_true fun e => h (Fin.ext e)

theorem shapeRow7_encodesBack (alt : Alt) (n : Reg) : (shapeRow7 alt n (.ofFin n)).EncodesBack alt (byteOf 7 n) := by
  unfold shapeRow7
  split
  case h_1 => exact onlyPlain_encodesBack (encodesAs_own rfl rfl rfl rfl)
  case h_2 h =>
    have hn := logicOperandOk_of_ne_zero h
    exact fourForms_encodesBack (encodesAs_own rfl hn rfl rfl) (encodesAs_own rfl hn rfl rfl)
      (encodesAs_own rfl hn rfl rfl) (encodesAs_own rfl hn rfl rfl)

theorem shapeRow9_encodesBack (alt : Alt) (n : Reg) : (shapeRow9 alt n (.ofFin n)).EncodesBack alt (byteOf 9 n) := by
  unfold shapeRow9
  split
  case h_7 | h_9 | h_10 | h_11 | h_12 | h_13 | h_14 =>
    exact plainOrAlt1_encodesBack (encodesAs_own rfl rfl rfl rfl) (encodesAs_own rfl rfl rfl rfl)
  case h_16 =>
    obtain rfl : n = 15 := by simp only [imp_false, Fin.ext_iff] at *; omega
    exact plainOrAlt1_encodesBack (encodesAs_own rfl rfl rfl rfl) (encodesAs_own rfl rfl rfl rfl)
  all_goals exact onlyPlain_encodesBack (encodesAs_own rfl rfl rfl rfl)

theorem shapeRowA_encodesBack (alt : Alt) (n : Reg) : (shapeRowA alt n).EncodesBack alt (byteOf 10 n) := by
  cases alt with
  | none | one | two => exact fun k => ⟨⟨rfl, rfl, .inl rfl⟩, rfl⟩
  | three => trivial

theorem shapeRowC_encodesBack (alt : Alt) (n : Reg) : (shapeRowC alt n (.ofFin n)).EncodesBack alt (byteOf 12 n) := by
  unfold shapeRowC
  split
  case h_1 => exact onlyPlain_encodesBack (encodesAs_own rfl rfl rfl rfl)
  case h_2 h =>
    have hn := logicOperandOk_of_ne_zero h
    exact fourForms_encodesBack (encodesAs_own rfl hn rfl rfl) (encodesAs_own rfl hn rfl rfl)
      (encodesAs_own rfl hn rfl rfl) (encodesAs_own rfl hn rfl rfl)

theorem countRegOk_of_ne {n : Reg} (h : n ≠ 15) : countRegOk n = true := by
  simp only [countRegOk, decide_eq_true_iff, ne_eq, Fin.ext_iff] at *; omega

theorem shapeRowD_encodesBack (alt : Alt) (n : Reg) : (shapeRowD alt n).EncodesBack alt (byteOf 13 n) := by
  unfold shapeRowD
  split
  case h_1 =>
    cases alt with
    | none | two | three => exact encodesAs_own rfl rfl rfl rfl
    | one => trivial
  case h_2 h => exact encodesAs_any rfl (countRegOk_of_ne h) rfl rfl

theorem shapeRowE_encodesBack (alt : Alt) (n : Reg) : (shapeRowE alt n).EncodesBack alt (byteOf 14 n) := by
  unfold shapeRowE
  split
  case h_1 =>
    exact fourForms_encodesBack (encodesAs_own rfl rfl rfl rfl) (encodesAs_own rfl rfl rfl rfl)
      (encodesAs_own rfl rfl rfl rfl) (encodesAs_own rfl rfl rfl rfl)
  case h_2 h => exact onlyPlain_encodesBack (encodesAs_own rfl (countRegOk_of_ne h) rfl rfl)

theorem shapeRowF_encodesBack (alt : Alt) (n : Reg) : (shapeRowF alt n).EncodesBack alt (byteOf 15 n) := by
  cases alt with
  | none | one | two => exact fun w => ⟨⟨rfl, rfl, .inl rfl⟩, rfl⟩
  | three => trivial

/-- An opcode byte is its two nibbles. -/
theorem byteOf_nibbles (op : Byte) : byteOf (highNibble op) (lowReg op) = op := by
  apply BitVec.eq_of_toNat_eq
  rw [byteOf_toNat (highNibble op).isLt (lowReg op).isLt]
  simp only [highNibble, lowReg]
  omega

/-- The opcode map, row by row: whatever it gives encodes back to the byte. -/
theorem shape_byteOf_encodesBack (alt : Alt) {h : Nat} (hh : h < 16) (n : Reg) :
    (shape alt (byteOf h n)).EncodesBack alt (byteOf h n) := by
  interval_cases h
  · exact shape_row0 alt n ▸ shapeRow0_encodesBack alt n
  · exact shape_row1 alt n ▸ encodesAs_any rfl rfl rfl rfl
  · exact shape_row2 alt n ▸ encodesAs_any rfl rfl rfl rfl
  · exact shape_row3 alt n ▸ shapeRow3_encodesBack alt n
  · exact shape_row4 alt n ▸ shapeRow4_encodesBack alt n
  · exact shape_row5 alt n ▸ fourForms_encodesBack (encodesAs_own rfl rfl rfl rfl) (encodesAs_own rfl rfl rfl rfl)
      (encodesAs_own rfl rfl rfl rfl) (encodesAs_own rfl rfl rfl rfl)
  · exact shape_row6_reg alt n ▸ fourForms_encodesBack (encodesAs_own rfl rfl rfl rfl) (encodesAs_own rfl rfl rfl rfl)
      (encodesAs_own rfl rfl rfl rfl) (encodesAs_own rfl rfl rfl rfl)
  · exact shape_row7 alt n ▸ shapeRow7_encodesBack alt n
  · exact shape_row8_reg alt n ▸ fourForms_encodesBack (encodesAs_own rfl rfl rfl rfl) (encodesAs_own rfl rfl rfl rfl)
      (encodesAs_own rfl rfl rfl rfl) (encodesAs_own rfl rfl rfl rfl)
  · exact shape_row9 alt n ▸ shapeRow9_encodesBack alt n
  · exact shape_rowA alt n ▸ shapeRowA_encodesBack alt n
  · exact shape_rowB alt n ▸ encodesAs_any rfl rfl rfl rfl
  · exact shape_rowC alt n ▸ shapeRowC_encodesBack alt n
  · exact shape_rowD alt n ▸ shapeRowD_encodesBack alt n
  · exact shape_rowE alt n ▸ shapeRowE_encodesBack alt n
  · exact shape_rowF alt n ▸ shapeRowF_encodesBack alt n

theorem shape_encodesBack (alt : Alt) (op : Byte) : (shape alt op).EncodesBack alt op := by
  rw [← byteOf_nibbles op]
  exact shape_byteOf_encodesBack alt (highNibble op).isLt _

/-- A completed shape is its instruction's bytes and those after them. -/
theorem Shape.EncodesBack.complete {alt : Alt} {op : Byte} {sh : Shape} (h : sh.EncodesBack alt op) {bs rest : List Byte}
    {i : Instr} (hc : sh.complete bs = .ok (i, rest)) : i.ReadUnder alt ∧ op :: bs = encodeBody i ++ rest := by
  unfold Shape.complete at hc
  split at hc <;> cases hc
  case h_2 => exact ⟨h.1, by rw [h.2]; rfl⟩
  case h_3 f d => exact ⟨(h d).1, by rw [(h d).2]; rfl⟩
  case h_4 f k => exact ⟨(h k).1, by rw [(h k).2]; rfl⟩
  case h_5 f lo hi =>
    obtain ⟨hr, he⟩ := h (wordOf hi lo)
    exact ⟨hr, by rw [he, lowByte_wordOf, highByte_wordOf]; rfl⟩

/-- Settles O5: every row of the opcode map gives instructions that encode back to the row's byte, and no row another's. -/
theorem decodedInstructionsEncodeBack : Obligations.DecodedInstructionsEncodeBack := by
  intro alt bs rest i h
  cases bs with
  | nil => cases h
  | cons op bs =>
    obtain ⟨hr, he⟩ := (shape_encodesBack alt op).complete h
    exact ⟨hr.core, hr.wf, hr.mode, he⟩

/-! ## A byte stream read instruction by instruction -/

/-- The instructions are read one after the other from an ALT mode, each under the mode the ones before it leave. -/
def ReadInTurn : Alt → List Instr → Prop
  | _, [] => True
  | alt, i :: is => i.ReadUnder alt ∧ ReadInTurn (altAfter alt i) is

theorem disassemble_cons {alt : Alt} {i : Instr} {bs rest : List Byte} (h : decode alt bs = .ok (i, rest)) {is : List Instr}
    {fuel : Nat} (hr : disassemble fuel (altAfter alt i) rest = .ok is) : disassemble (fuel + 1) alt bs = .ok (i :: is) := by
  cases bs with
  | nil => cases h
  | cons op bs => simp only [disassemble, h, hr]

/-- Instructions read in turn are read back from their bytes. -/
theorem disassemble_flatMap_encodeBody {alt : Alt} {is : List Instr} (h : ReadInTurn alt is) :
    disassemble is.length alt (is.flatMap encodeBody) = .ok is := by
  induction is generalizing alt with
  | nil => rfl
  | cons i is ih => exact disassemble_cons (decode_encodeBody h.1 _) (ih h.2)

/-- The prefix that puts an ALT mode in force (R107, R109). -/
def altPrefix : Alt → List Instr
  | .none => []
  | .one => [.alt1]
  | .two => [.alt2]
  | .three => [.alt3]

/-- A core instruction stands behind the prefix of its ALT mode. -/
theorem expand_core {i : Instr} (h : i.isCore = true) : expand i = altPrefix (altOf i) ++ [i] := by
  cases i with
  | lea | moveRR | moveI8 | moveI16 | moveLoadShort | moveLoad | moveStoreShort | moveStore | movesRR | movebLoad0 | movebLoad
  | movebStore0 | movebStore | movewLoad0 | movewLoad | movewStore0 | movewStore => cases h
  | _ => rfl

theorem readInTurn_expand_core {i : Instr} (hc : i.isCore = true) (hw : i.wf = true) : ReadInTurn .none (expand i) := by
  rw [expand_core hc]
  have hi : ∀ alt, altOf i = alt → i.ReadUnder alt := fun alt h => ⟨hc, hw, .inl h⟩
  cases ha : altOf i with
  | none => exact ⟨hi _ ha, trivial⟩
  | one | two | three => exact ⟨⟨rfl, rfl, .inl rfl⟩, hi _ ha, trivial⟩

/-- The sequence of an assembler spelling is read in turn: its prefixes leave the ALT mode of the instruction behind them. -/
theorem readInTurn_expand_spelling {i : Instr} (hc : i.isCore = false) (hw : i.wf = true) : ReadInTurn .none (expand i) := by
  cases i with
  | lea | moveI8 | moveI16 => exact ⟨⟨rfl, rfl, .inl rfl⟩, trivial⟩
  | moveRR | movesRR | moveLoadShort | moveLoad | moveStoreShort | moveStore =>
    exact ⟨⟨rfl, rfl, .inl rfl⟩, ⟨rfl, rfl, .inl rfl⟩, trivial⟩
  | movewLoad0 | movewStore0 => exact ⟨⟨rfl, hw, .inl rfl⟩, trivial⟩
  | movebLoad0 | movebStore0 => exact ⟨⟨rfl, rfl, .inl rfl⟩, ⟨rfl, hw, .inl rfl⟩, trivial⟩
  | movewLoad | movewStore =>
    obtain ⟨_, hw⟩ := (Bool.and_eq_true _ _).mp hw
    exact ⟨⟨rfl, rfl, .inl rfl⟩, ⟨rfl, hw, .inl rfl⟩, trivial⟩
  | movebLoad | movebStore =>
    obtain ⟨_, hw⟩ := (Bool.and_eq_true _ _).mp hw
    exact ⟨⟨rfl, rfl, .inl rfl⟩, ⟨rfl, rfl, .inl rfl⟩, ⟨rfl, hw, .inl rfl⟩, trivial⟩
  | _ => cases hc

theorem readInTurn_expand {i : Instr} (hw : i.wf = true) : ReadInTurn .none (expand i) := by
  cases hc : i.isCore
  · exact readInTurn_expand_spelling hc hw
  · exact readInTurn_expand_core hc hw

/-- Settles O6: the core instructions of an expansion are read in turn from ALT mode 0. -/
theorem disassemblyOfAnEncodingIsItsExpansion : Obligations.DisassemblyOfAnEncodingIsItsExpansion :=
  fun _ hw => disassemble_flatMap_encodeBody (readInTurn_expand hw)

/-! ## The blanks of the tables (R109, R111) -/

theorem onlyPlain_undefined_iff {alt : Alt} {i : Instr} : onlyPlain alt i = .undefined ↔ alt ≠ .none := by
  cases alt <;> simp [onlyPlain]

theorem plainOrAlt1_undefined_iff {alt : Alt} {i j : Instr} :
    plainOrAlt1 alt i j = .undefined ↔ alt ≠ .none ∧ alt ≠ .one := by
  cases alt <;> simp [plainOrAlt1]

theorem fourForms_ne_undefined {alt : Alt} {i0 i1 i2 i3 : Instr} : fourForms alt i0 i1 i2 i3 ≠ .undefined := by
  cases alt <;> simp [fourForms]

theorem decode_undefined_iff {alt : Alt} {op : Byte} {rest : List Byte} :
    decode alt (op :: rest) = .error .undefinedAltForm ↔ shape alt op = .undefined := by
  rw [decode]
  constructor
  · intro h
    unfold Shape.complete at h
    split at h <;> cases h
    assumption
  · intro h
    rw [h]
    rfl

section
variable (alt : Alt) (n : Fin 16) (k : Nibble)

theorem shapeRow0_undefined_iff : shapeRow0 alt n = .undefined ↔ alt ≠ .none ∧ n.val ≤ 4 := by
  unfold shapeRow0
  split
  case h_1 | h_2 | h_3 | h_4 | h_5 => simp [onlyPlain_undefined_iff]
  case h_16 =>
    have : ¬ n.val ≤ 4 := by simp only [imp_false, Fin.ext_iff] at *; omega
    simp [this]
  all_goals simp

theorem shapeRow3_undefined_iff :
    shapeRow3 alt n = .undefined ↔ alt ≠ .none ∧ (n.val = 12 ∨ alt ≠ .one ∧ n.val ≤ 11) := by
  unfold shapeRow3
  split
  case h_1 => simp [onlyPlain_undefined_iff]
  case h_2 | h_3 | h_4 => simp
  case h_5 =>
    have : n.val ≠ 12 ∧ n.val ≤ 11 := by simp only [imp_false, Fin.ext_iff] at *; omega
    simp [plainOrAlt1_undefined_iff, this]

theorem shapeRow4_undefined_iff :
    shapeRow4 alt n = .undefined ↔ alt ≠ .none ∧ (n.val = 13 ∨ n.val = 15 ∨ alt ≠ .one) := by
  unfold shapeRow4
  split
  case h_1 | h_3 => simp [plainOrAlt1_undefined_iff]
  case h_2 | h_4 => simp [onlyPlain_undefined_iff]
  case h_5 =>
    have : n.val ≠ 13 ∧ n.val ≠ 15 := by simp only [imp_false, Fin.ext_iff] at *; omega
    simp [plainOrAlt1_undefined_iff, this]

theorem shapeRow7_undefined_iff : shapeRow7 alt n k = .undefined ↔ alt ≠ .none ∧ n = 0 := by
  unfold shapeRow7
  split
  · simp [onlyPlain_undefined_iff]
  · simp_all [fourForms_ne_undefined]

theorem shapeRow9_undefined_iff :
    shapeRow9 alt n k = .undefined ↔ alt ≠ .none ∧ (n.val ≤ 5 ∨ n.val = 7 ∨ n.val = 14 ∨ alt ≠ .one) := by
  unfold shapeRow9
  split
  case h_7 | h_9 | h_10 | h_11 | h_12 | h_13 | h_14 => simp [plainOrAlt1_undefined_iff]
  case h_16 =>
    obtain rfl : n = 15 := by simp only [imp_false, Fin.ext_iff] at *; omega
    simp [plainOrAlt1_undefined_iff]
  all_goals simp [onlyPlain_undefined_iff]

theorem shapeRowA_undefined_iff : shapeRowA alt n = .undefined ↔ alt = .three := by
  cases alt <;> simp [shapeRowA]

theorem shapeRowC_undefined_iff : shapeRowC alt n k = .undefined ↔ alt ≠ .none ∧ n = 0 := by
  unfold shapeRowC
  split
  · simp [onlyPlain_undefined_iff]
  · simp_all [fourForms_ne_undefined]

theorem shapeRowD_undefined_iff : shapeRowD alt n = .undefined ↔ alt = .one ∧ n = 15 := by
  unfold shapeRowD
  split
  · cases alt <;> simp
  · simp_all

theorem shapeRowE_undefined_iff : shapeRowE alt n = .undefined ↔ alt ≠ .none ∧ n ≠ 15 := by
  unfold shapeRowE
  split
  · simp [fourForms_ne_undefined]
  · simp_all [onlyPlain_undefined_iff]

theorem shapeRowF_undefined_iff : shapeRowF alt n = .undefined ↔ alt = .three := by
  cases alt <;> simp [shapeRowF]

end

/-- Settles O7: the blanks of each row of the opcode map, at the row's sixteen bytes. -/
theorem undefinedFormsAreTheBlanksOfTheTable : Obligations.UndefinedFormsAreTheBlanksOfTheTable := by
  intro alt op rest
  obtain ⟨h, hh, n, hn, hop⟩ : ∃ h, h < 16 ∧ ∃ n : Reg, n.val < 16 ∧ op = byteOf h n :=
    ⟨_, (highNibble op).isLt, lowReg op, (lowReg op).isLt, (byteOf_nibbles op).symm⟩
  have hv : op.toNat = 16 * h + n.val := by rw [hop, byteOf_toNat hh hn]
  rw [decode_undefined_iff, hv, hop]
  clear hop hv op
  interval_cases h
  · rw [shape_row0, shapeRow0_undefined_iff]; grind
  · rw [shape_row1]; grind
  · rw [shape_row2]; grind
  · rw [shape_row3, shapeRow3_undefined_iff]; grind
  · rw [shape_row4, shapeRow4_undefined_iff]; grind
  · rw [shape_row5]; grind [fourForms_ne_undefined]
  · rw [shape_row6_reg]; grind [fourForms_ne_undefined]
  · rw [shape_row7, shapeRow7_undefined_iff]; grind
  · rw [shape_row8_reg]; grind [fourForms_ne_undefined]
  · rw [shape_row9, shapeRow9_undefined_iff]; grind
  · rw [shape_rowA, shapeRowA_undefined_iff]; grind
  · rw [shape_rowB]; grind
  · rw [shape_rowC, shapeRowC_undefined_iff]; grind
  · rw [shape_rowD, shapeRowD_undefined_iff]; grind
  · rw [shape_rowE, shapeRowE_undefined_iff]; grind
  · rw [shape_rowF, shapeRowF_undefined_iff]; grind

/-- Settles O8: the thirteen samples, one row of the map each. -/
theorem sampleWordsDecode : Obligations.SampleWordsDecode :=
  ⟨rfl, rfl, rfl, rfl, rfl, rfl, rfl, rfl, rfl, rfl, rfl, rfl, rfl⟩

end Sys2Proof
end

section
/-!
PROOF. What an instruction is made of (00_scope.md R8), said once: every meaning is a row of state updates, each of a kind the
instruction may make, and all but the branches and the prefixes end by clearing the prefix data. What only some instructions do,
and what every step keeps, is then read off one update at a time.
-/

namespace Sys2Proof

/-- An instruction that writes a register outside r0 to r15, the flags and the prefix data, or a pixel. -/
def Instr.writesSystem : Instr → Bool
  | .plot | .color | .getc | .cmode | .ramb | .romb | .cache | .ljmp _ | .stop => true
  | _ => false

/-- What a spelling's instructions may do, the spelling may. -/
structure Instr.Within (j i : Instr) : Prop where
  core : j.isCore = true
  notes : (!j.notesRam || i.notesRam) = true
  stores : (!j.storesRam || i.storesRam) = true
  noSystem : j.writesSystem = false

end Sys2Proof

namespace Sys2Proof.Machine

/-! ## The updates an instruction is made of -/

/-- `s` with the prefix data of `p` (10_state.md R28 to R30). -/
def State.withPrefixOf (s p : State) : State :=
  { s with b := p.b, alt1 := p.alt1, alt2 := p.alt2, il := p.il, ih := p.ih, sreg := p.sreg, dreg := p.dreg }

/-- One update of the state that the instruction may make; a spelling also takes the bytes of its later instructions. -/
inductive Update (i : Instr) : State → State → Prop
  | flags (s f : State) : Update i s (s.withFlagsOf f)
  | setReg (s : State) (n : Reg) (v : Word) : Update i s (s.setReg n v)
  | romLoad (s : State) : Update i s s.romLoad
  | romRead (s : State) : Update i s { s with romPending := false }
  | drew (s : State) (k : Nat) : Update i s (s.drew k)
  | prefixData (s p : State) : Update i s (s.withPrefixOf p)
  | drainRam (s : State) : Update i s s.drainRam
  | drainPlot (s : State) : Update i s s.drainPlot
  | noteRam (s : State) (a : Word) (h : i.notesRam = true) : Update i s (s.noteRam a)
  | issueStore (s : State) (cells : List Host.Cell) (h : i.storesRam = true) : Update i s (s.issueStore cells)
  | pixelWrite (s : State) (x y c : Byte) (h : i = .plot) (fits : pixelFits s.params.colorDepth c) :
      Update i s (s.pixelWrite x y c)
  | colour (s : State) (c : Byte) (h : i = .color ∨ i = .getc) : Update i s { s with colr := c }
  | plotOptions (s : State) (p : Nibble) (h : i = .cmode) : Update i s { s with por := p }
  | ramBank (s : State) (b : Byte) (h : i = .ramb) : Update i s { s with rambr := b }
  | romBank (s : State) (b : Byte) (h : i = .romb) : Update i s { s with rombr := b }
  | codeBank (s : State) (b : Byte) (h : ∃ n, i = .ljmp n) : Update i s { s with pbr := b }
  | cacheBase (s : State) (w : Word) (l : List Nat) (h : i = .cache ∨ ∃ n, i = .ljmp n) :
      Update i s { s with cbr := w, cacheFlags := l }
  | stopped (s : State) (h : i = .stop) : Update i s { s with go := false, hostIrqs := s.hostIrqs + 1 }
  | formTaken (s t : State) (k : Nat) (bytes : List Byte) (h : i.isCore = false) (f : FormTaken s k false bytes t) : Update i s t

/-- Updates one after the other. -/
abbrev Updates (i : Instr) : State → State → Prop := Relation.ReflTransGen (Update i)

/-- What no update changes stays. -/
theorem Updates.kept {i : Instr} {α : Type} {f : State → α} (hf : ∀ b c, Update i b c → f c = f b) {s t : State}
    (h : Updates i s t) : f t = f s := by
  induction h with
  | refl => rfl
  | tail _ hu ih => exact (hf _ _ hu).trans ih

/-- What every update keeps holds in the end. -/
theorem Updates.holds {i : Instr} {P : State → Prop} (hP : ∀ b c, Update i b c → P b → P c) {s t : State}
    (h : Updates i s t) (hs : P s) : P t := by
  induction h with
  | refl => exact hs
  | tail _ hu ih => exact hP _ _ hu ih

section
variable {i : Instr} {s b : State}

/-- A state that differs in the flags alone. -/
theorem updates_of_flags (h : s.withFlagsOf b = b) : Updates i s b := .single (h ▸ .flags s b)

theorem Updates.writeReg (h : Updates i s b) (n : Reg) (v : Word) : Updates i s (b.writeReg n v) := by
  unfold State.writeReg
  split
  · exact (h.tail (.setReg b n v)).tail (.romLoad _)
  · exact h.tail (.setReg b n v)

theorem Updates.complete (h : Updates i s b) (jumped : Bool) : Updates i s (if jumped then b else b.advance) := by
  cases jumped
  · exact h.tail (.setReg b 15 _)
  · exact h

theorem Updates.clearPrefix (h : Updates i s b) : Updates i s b.clearPrefix := h.tail (.prefixData b b.clearPrefix)

end

/-! ## How an instruction ends (10_state.md R23, R31) -/

/-- The outcome of an instruction that is neither a branch nor a prefix: a refusal, or updates that end in `finish` or in a
register write. -/
inductive Ends (i : Instr) (s : State) : Result → Prop
  | refused (r : Refusal) : Ends i s (.refused r)
  | finish {b : State} (h : Updates i s b) : Ends i s (finish b)
  | finishReg {b : State} (h : Updates i s b) (n : Reg) (v : Word) : Ends i s (finishReg n v b)

theorem Ends.updates {i : Instr} {s t : State} {o : Result} (h : Ends i s o) (ho : o = .next t) : Updates i s t := by
  cases h with
  | refused => cases ho
  | finish h => cases ho; exact h.clearPrefix.complete false
  | finishReg h n v => cases ho; exact (h.writeReg n v).clearPrefix.complete (isPc n)

theorem Ends.prefixCleared {i : Instr} {s t : State} {o : Result} (h : Ends i s o) (ho : o = .next t) : PrefixCleared t := by
  cases h with
  | refused => cases ho
  | @finish b h =>
    obtain ⟨u, hu, w, _⟩ := finish_spec b
    cases hu.symm.trans ho
    exact w.prefixData
  | @finishReg b h n v =>
    obtain ⟨u, hu, w, _⟩ := finishReg_spec n v b
    cases hu.symm.trans ho
    exact w.prefixData

section
variable {i : Instr} (s : State)

theorem ends_loadWordTo (hi : i.notesRam = true) (n : Reg) (a : Word) : Ends i s (loadWordTo n a s) := by
  unfold loadWordTo
  split
  · exact .refused _
  · exact .finishReg (.single (.noteRam s a hi)) _ _

theorem ends_execLdb (hi : i.notesRam = true) (n : Reg) : Ends i s (execLdb n s) := by
  unfold execLdb
  split
  · exact .refused _
  · exact .finishReg (.single (.noteRam s _ hi)) _ _

theorem ends_storeWordAt (hi : i.notesRam = true) (hs : i.storesRam = true) (a v : Word) : Ends i s (storeWordAt a v s) := by
  unfold storeWordAt
  split
  · exact .refused _
  · next h => rw [storeWord_ok h]; exact .finish ((Relation.ReflTransGen.single (.noteRam s a hi)).tail (.issueStore _ _ hs))

theorem ends_execStb (hi : i.notesRam = true) (hs : i.storesRam = true) (n : Reg) : Ends i s (execStb n s) := by
  unfold execStb
  split
  · exact .refused _
  · next h => rw [storeByte_ok h]; exact .finish ((Relation.ReflTransGen.single (.noteRam s _ hi)).tail (.issueStore _ _ hs))

theorem ends_execSbk (hs : i.storesRam = true) : Ends i s (execSbk s) := by
  unfold execSbk
  split
  · exact .refused _
  · next h => rw [storeWord_ok h]; exact .finish (.single (.issueStore s _ hs))

theorem ends_getTo (f : Byte → Word → Word) : Ends i s (getTo f s) := by
  unfold getTo
  split
  · exact .refused _
  · next h => rw [readRomBuffer_ok h]; exact .finishReg (.single (.romRead s)) _ _

end

section
variable (s : State)

theorem ends_execGetc : Ends .getc s (execGetc s) := by
  unfold execGetc
  split
  · exact .refused _
  next h =>
    rw [readRomBuffer_ok h]
    have read : Updates .getc s { s with romPending := false } := .single (.romRead s)
    split
    · exact .finish ((read.tail (.colour _ _ (.inr rfl))).tail (.drew _ 1))
    · exact .finish (read.tail (.colour _ _ (.inr rfl)))

/-- COLR is the only register the colour function writes, and it may draw a free value. -/
theorem updates_setColour (k : Byte) : Updates .color s (s.setColour k) := by
  have single : ∀ c, Updates .color s { s with colr := c } := fun c => .single (.colour s c (.inl rfl))
  unfold State.setColour
  split
  case h_5 | h_7 => exact (single _).tail (.drew _ 1)
  all_goals exact single _

theorem ends_execCache : Ends .cache s (execCache s) := by
  unfold execCache
  split
  · exact .finish .refl
  · exact .finish (.single (.cacheBase s _ _ (.inl rfl)))

theorem ends_execLjmp (n : Reg) : Ends (.ljmp n) s (execLjmp n s) := by
  have bank : Updates (.ljmp n) s { s with pbr := lowByte s.src } := .single (.codeBank s _ ⟨n, rfl⟩)
  exact .finishReg ((bank.tail (.cacheBase _ (Config.freeWord s.draws) [] (.inr ⟨n, rfl⟩))).tail (.drew _ 1)) 15 _

/-- LOOP ends in its second register write if it jumps, and in its first if it does not. -/
theorem ends_execLoop : Ends .loop s (execLoop s) := by
  have count : Updates .loop s (s.setSZ (s.reg 12 - 1)) := updates_of_flags rfl
  by_cases h : s.reg 12 = 1
  · rw [execLoop_of_eq h]
    exact .finishReg (updates_of_flags rfl) _ _
  · rw [execLoop_of_ne h]
    exact .finishReg (count.tail (.setReg _ 12 _)) _ _

/-- A nybble is a colour of the 16-colour mode. -/
theorem pixelFits_sixteen (n : Nibble) : pixelFits .sixteen (nybbles 0 n) := by
  apply BitVec.eq_of_toNat_eq
  have hn := n.isLt
  have high : (0 : Nibble).toNat = 0 := rfl
  simp only [colourOf, BitVec.truncate_eq_setWidth, BitVec.toNat_setWidth, lowNybble_toNat, nybbles_toNat, high]
  omega

/-- The colour PLOT writes is as wide as the mode (47_plot.md R312). -/
theorem plotColour_fits : pixelFits s.params.colorDepth s.plotColour := by
  unfold State.plotColour
  cases s.params.colorDepth with
  | sixteen => exact pixelFits_sixteen _
  | twoFiftySix => rfl

theorem ends_execPlot : Ends .plot s (execPlot s) := by
  unfold execPlot
  split
  · exact .finishReg (.single (.drew s _)) _ _
  · have pixel : Updates .plot s (s.pixelWrite s.plotX s.plotY s.plotColour) :=
      .single (.pixelWrite s _ _ _ rfl (plotColour_fits s))
    exact .finishReg (pixel.tail (.drew _ _)) _ _

theorem ends_execFmult : Ends .fmult s (execFmult s) := by
  unfold execFmult
  split
  · exact .refused _
  · exact .finishReg (updates_of_flags rfl) _ _

theorem ends_execLmult : Ends .lmult s (execLmult s) := by
  unfold execLmult
  split
  · have flags : Updates .lmult s { s with
      sf := Config.freeFlag s.draws, cf := Config.freeFlag (s.draws + 1), zf := Config.freeFlag (s.draws + 2) } :=
      updates_of_flags rfl
    exact .finish ((flags.tail (.setReg _ 4 _)).tail (.drew _ 3))
  · have flags : Updates .lmult s (s.setSZC (productHigh s.src (s.reg 6)) (productCarry s.src (s.reg 6))) :=
      updates_of_flags rfl
    exact .finishReg (flags.writeReg 4 _) _ _

theorem ends_execRpix : Ends .rpix s (execRpix s) :=
  .finishReg ((Relation.ReflTransGen.single (.drainPlot s)).tail (.flags _ (s.drainPlot.setSZ _))) _ _

theorem ends_execRamb : Ends .ramb s (execRamb s) :=
  .finish ((Relation.ReflTransGen.single (.drainRam s)).tail (.ramBank _ _ rfl))

theorem ends_execStop : Ends .stop s (execStop s) :=
  .finish (((Relation.ReflTransGen.single (.drainPlot s)).tail (.drainRam _)).tail (.stopped _ rfl))

theorem ends_execTo {i : Instr} (h : s.b = true) (n : Reg) : Ends i s (execTo n s) := by
  rw [execTo, if_pos h]
  exact .finishReg .refl _ _

theorem ends_execFrom {i : Instr} (h : s.b = true) (n : Reg) : Ends i s (execFrom n s) := by
  rw [execFrom, if_pos h]
  exact .finishReg (updates_of_flags rfl) _ _

end

/-- The table: how each core instruction that is neither a branch nor a prefix ends. -/
theorem ends_exec {i : Instr} {s : State} (hc : i.isCore = true) (hb : i.isBranch = false) (hp : i.isPrefix s.b = false) :
    Ends i s (exec i s) := by
  cases i with
  | bra | blt | bge | bne | beq | bpl | bmi | bcc | bcs | bvc | bvs => cases hb
  | alt1 | alt2 | alt3 | withReg => cases hp
  | toReg n => exact ends_execTo s (by simpa [Instr.isPrefix] using hp) n
  | fromReg n => exact ends_execFrom s (by simpa [Instr.isPrefix] using hp) n
  | nop | cmpR => exact .finish (updates_of_flags rfl)
  | stop => exact ends_execStop s
  | cache => exact ends_execCache s
  | color => exact .finish (updates_setColour s _)
  | cmode => exact .finish (.single (.plotOptions s _ rfl))
  | ramb => exact ends_execRamb s
  | romb => exact .finish (.single (.romBank s _ rfl))
  | plot => exact ends_execPlot s
  | rpix => exact ends_execRpix s
  | loop => exact ends_execLoop s
  | ljmp n => exact ends_execLjmp s n
  | fmult => exact ends_execFmult s
  | lmult => exact ends_execLmult s
  | ldw | lm | lms => exact ends_loadWordTo s rfl _ _
  | ldb n => exact ends_execLdb s rfl n
  | stw | sm | sms => exact ends_storeWordAt s rfl rfl _ _
  | stb n => exact ends_execStb s rfl rfl n
  | sbk => exact ends_execSbk s rfl
  | getb => exact (ends_getTo s _ : Ends _ s (execGetb s))
  | getbh => exact (ends_getTo s _ : Ends _ s (execGetbh s))
  | getbl => exact (ends_getTo s _ : Ends _ s (execGetbl s))
  | getbs => exact (ends_getTo s _ : Ends _ s (execGetbs s))
  | getc => exact ends_execGetc s
  | lsr | rol | ror | asr | div2 | swap | notW | addR | adcR | addI | adcI | subR | sbcR | subI | merge | andR | bicR | andI
  | bicI | orR | xorR | orI | xorI | multR | umultR | multI | umultI | link | sex | jmp | lob | hib | ibt | iwt | inc | dec =>
    exact .finishReg (updates_of_flags rfl) _ _
  | _ => cases hc

/-! ## Prefixes and branches -/

/-- A prefix changes the prefix data alone; it sets no in-line flag, and b only with both selectors alike (40_prefix.md). -/
theorem exec_prefix {i : Instr} {s : State} (h : i.isPrefix s.b = true) :
    ∃ p : State, exec i s = complete false (s.withPrefixOf p) ∧ p.il = s.il ∧ p.ih = s.ih ∧
      ((s.b = true → s.sreg = s.dreg) → p.b = true → p.sreg = p.dreg) := by
  cases i with
  | alt1 => exact ⟨{ s with alt1 := true }, rfl, rfl, rfl, id⟩
  | alt2 => exact ⟨{ s with alt2 := true }, rfl, rfl, rfl, id⟩
  | alt3 => exact ⟨{ s with alt1 := true, alt2 := true }, rfl, rfl, rfl, id⟩
  | withReg n => exact ⟨{ s with sreg := n, dreg := n, b := true }, rfl, rfl, rfl, fun _ _ => rfl⟩
  | toReg n =>
    have hb : s.b = false := by simpa [Instr.isPrefix] using h
    refine ⟨{ s with dreg := n }, ?_, rfl, rfl, fun _ e => absurd (hb.symm.trans e) nofun⟩
    show execTo n s = _
    rw [execTo, if_neg (by simp [hb])]
    rfl
  | fromReg n =>
    have hb : s.b = false := by simpa [Instr.isPrefix] using h
    refine ⟨{ s with sreg := n }, ?_, rfl, rfl, fun _ e => absurd (hb.symm.trans e) nofun⟩
    show execFrom n s = _
    rw [execFrom, if_neg (by simp [hb])]
    rfl
  | _ => cases h

theorem updates_branchIf {i : Instr} {cond : Bool} {d : Byte} {s t : State} (h : branchIf cond d s = .next t) :
    Updates i s t := by
  cases h
  refine Updates.complete ?_ cond
  split
  · exact Updates.writeReg .refl 15 _
  · exact .refl

/-- A core instruction is made of the updates it may make. -/
theorem exec_updates_core {i : Instr} {s t : State} (hc : i.isCore = true) (h : exec i s = .next t) : Updates i s t := by
  by_cases hb : i.isBranch = true
  · obtain ⟨cond, d, e⟩ := exec_branch hb s
    exact updates_branchIf (e.symm.trans h)
  by_cases hp : i.isPrefix s.b = true
  · obtain ⟨p, e, _⟩ := exec_prefix hp
    cases e.symm.trans h
    exact Updates.complete (.single (.prefixData s p)) false
  · exact (ends_exec hc (by simpa using hb) (by simpa using hp)).updates h

/-! ## Assembler spellings -/

theorem within_of_mem_expand {i j : Instr} (h : i.isCore = false) (hj : j ∈ expand i) : j.Within i := by
  cases i with
  | lea | moveRR | moveI8 | moveI16 | moveLoadShort | moveLoad | moveStoreShort | moveStore | movesRR | movebLoad0 | movebLoad
  | movebStore0 | movebStore | movewLoad0 | movewLoad | movewStore0 | movewStore =>
    simp only [expand, List.mem_cons, List.not_mem_nil, or_false] at hj
    rcases hj with rfl | rfl | rfl <;> exact ⟨rfl, rfl, rfl, rfl⟩
  | _ => cases h

theorem Update.of_within {i j : Instr} {s t : State} (w : j.Within i) (h : Update j s t) : Update i s t := by
  obtain ⟨core, notes, stores, noSystem⟩ := w
  cases h with
  | flags f => exact .flags s f
  | setReg n v => exact .setReg s n v
  | romLoad => exact .romLoad s
  | romRead => exact .romRead s
  | drew k => exact .drew s k
  | prefixData p => exact .prefixData s p
  | drainRam => exact .drainRam s
  | drainPlot => exact .drainPlot s
  | noteRam a h => exact .noteRam s a (by simpa [h] using notes)
  | issueStore cells h => exact .issueStore s cells (by simpa [h] using stores)
  | formTaken _ _ _ h => exact absurd (h.symm.trans core) nofun
  | pixelWrite _ _ _ h | plotOptions _ h | ramBank _ h | romBank _ h | stopped h => subst h; cases noSystem
  | colour _ h => obtain rfl | rfl := h <;> cases noSystem
  | codeBank _ h => obtain ⟨n, rfl⟩ := h; cases noSystem
  | cacheBase _ _ h => obtain rfl | ⟨n, rfl⟩ := h <;> cases noSystem

/-- Every instruction is made of the updates it may make; a spelling by those of its sequence and the fetches between. -/
theorem exec_updates {i : Instr} {s t : State} (h : exec i s = .next t) : Updates i s t := by
  cases hc : i.isCore
  · rw [exec_spelling hc] at h
    have within : ∀ j ∈ expand i, j.Within i := fun j hj => within_of_mem_expand hc hj
    match hl : expand i, h, within with
    | [], h, _ => cases h; exact .refl
    | j :: js, h, within =>
      refine runForms_induction (Q := (Instr.Within · i)) (fun _ k bytes u hk hf => ?_) (fun _ _ _ => .trans)
        (fun j _ _ w hj => ?_) j js within s t h
      · exact .single (.formTaken _ u k bytes hc (takeForm_ok hk hf))
      · exact Relation.ReflTransGen.mono (fun _ _ => Update.of_within w) _ _ (exec_updates_core w.core hj)
  · exact exec_updates_core hc h

end Sys2Proof.Machine
end

section
/-!
PROOF. What only some instructions do and what every step keeps (10_state.md, 20_memory.md sections 1, 5 and 6, 40_prefix.md),
read off the updates an instruction is made of; the prefix data off the way it ends.
-/

namespace Sys2Proof.Machine

/-! ## What no update of an instruction changes -/

section
variable {i : Instr} {s t : State}

theorem Update.code_eq (h : Update i s t) : t.code = s.code := by
  cases h with
  | romLoad => simp
  | formTaken _ _ _ _ f => rw [f.state]; rfl
  | _ => rfl

theorem Update.rom_eq (h : Update i s t) : t.rom = s.rom := by
  cases h with
  | romLoad => simp
  | formTaken _ _ _ _ f => rw [f.state]; rfl
  | _ => rfl

theorem Update.params_eq (h : Update i s t) : t.params = s.params := by
  cases h with
  | romLoad => simp
  | formTaken _ _ _ _ f => rw [f.state]; rfl
  | _ => rfl

/-- Only a fetch fills the pipe, and a core instruction takes none. -/
theorem Update.pipe_eq (hc : i.isCore = true) (h : Update i s t) : t.pipe = s.pipe := by
  cases h with
  | romLoad => simp
  | formTaken _ _ _ h => exact absurd (h.symm.trans hc) nofun
  | _ => rfl

theorem Update.pbr_eq (hi : ∀ n, i ≠ .ljmp n) (h : Update i s t) : t.pbr = s.pbr := by
  cases h with
  | romLoad => simp
  | formTaken _ _ _ _ f => rw [f.state]; rfl
  | codeBank _ h => exact absurd h.choose_spec (hi _)
  | _ => rfl

theorem Update.rambr_eq (hi : i ≠ .ramb) (h : Update i s t) : t.rambr = s.rambr := by
  cases h with
  | romLoad => simp
  | formTaken _ _ _ _ f => rw [f.state]; rfl
  | ramBank _ h => exact absurd h hi
  | _ => rfl

theorem Update.rombr_eq (hi : i ≠ .romb) (h : Update i s t) : t.rombr = s.rombr := by
  cases h with
  | romLoad => simp
  | formTaken _ _ _ _ f => rw [f.state]; rfl
  | romBank _ h => exact absurd h hi
  | _ => rfl

theorem Update.por_eq (hi : i ≠ .cmode) (h : Update i s t) : t.por = s.por := by
  cases h with
  | romLoad => simp
  | formTaken _ _ _ _ f => rw [f.state]; rfl
  | plotOptions _ h => exact absurd h hi
  | _ => rfl

theorem Update.colr_eq (hi : ¬ (i = .color ∨ i = .getc)) (h : Update i s t) : t.colr = s.colr := by
  cases h with
  | romLoad => simp
  | formTaken _ _ _ _ f => rw [f.state]; rfl
  | colour _ h => exact absurd h hi
  | _ => rfl

theorem Update.cache_eq (hi : ¬ (i = .cache ∨ ∃ n, i = .ljmp n)) (h : Update i s t) :
    (t.cbr, t.cacheFlags) = (s.cbr, s.cacheFlags) := by
  cases h with
  | romLoad => simp
  | formTaken _ _ _ _ f => rw [f.state]; rfl
  | cacheBase _ _ h => exact absurd h hi
  | _ => rfl

theorem Update.lastram_eq (hi : ¬ i.notesRam = true) (h : Update i s t) : t.lastram = s.lastram := by
  cases h with
  | romLoad => simp
  | formTaken _ _ _ _ f => rw [f.state]; rfl
  | noteRam _ h => exact absurd h hi
  | _ => rfl

theorem Update.stored_eq (hi : i.storesRam = false) (h : Update i s t) : t.stored = s.stored := by
  cases h with
  | romLoad => simp
  | formTaken _ _ _ _ f => rw [f.state]; rfl
  | issueStore _ h => exact absurd (h.symm.trans hi) nofun
  | _ => rfl

/-- A drain of the write buffer changes no byte a load sees, so only a store does. -/
theorem Update.ramByte_eq (hi : i.storesRam = false) (h : Update i s t) : t.ramByte = s.ramByte := by
  cases h with
  | romLoad => funext a; simp [State.ramByte]
  | formTaken _ _ _ _ f => rw [f.state]; rfl
  | issueStore _ h => exact absurd (h.symm.trans hi) nofun
  | drainRam => funext a; exact drainRam_ramByte s a
  | _ => rfl

/-- A drain of the plot buffer changes no pixel, so only PLOT does. -/
theorem Update.pixel_eq (hi : i ≠ .plot) (h : Update i s t) : t.pixel = s.pixel := by
  cases h with
  | romLoad => funext x y; simp [State.pixel]
  | formTaken _ _ _ _ f => rw [f.state]; rfl
  | pixelWrite _ _ _ h => exact absurd h hi
  | drainPlot => funext x y; exact drainPlot_pixel s x y
  | _ => rfl

end

/-- Settles O15: each register is written by one kind of update, and only its writers make that kind. -/
theorem controlRegistersHaveTheirWriters : Obligations.ControlRegistersHaveTheirWriters := by
  intro i s t h
  have u := exec_updates h
  refine ⟨fun hne => ?pbr, fun hne => ?rambr, fun hne => ?rombr, fun hne => ?por, fun hne => ?colr, fun hne => ?cbr,
    fun hne => ?cacheFlags, fun hne => ?lastram⟩ <;> by_contra hi
  case pbr => exact hne (u.kept fun _ _ => Update.pbr_eq (not_exists.1 hi))
  case rambr => exact hne (u.kept fun _ _ => Update.rambr_eq hi)
  case rombr => exact hne (u.kept fun _ _ => Update.rombr_eq hi)
  case por => exact hne (u.kept fun _ _ => Update.por_eq hi)
  case colr => exact hne (u.kept fun _ _ => Update.colr_eq hi)
  case cbr => exact hne (congrArg Prod.fst (u.kept fun _ _ => Update.cache_eq hi))
  case cacheFlags => exact hne (congrArg Prod.snd (u.kept fun _ _ => Update.cache_eq hi))
  case lastram => exact hne (u.kept fun _ _ => Update.lastram_eq hi)

/-- Settles O18: no update but a store changes a byte as loads see it, and none but PLOT's a pixel. -/
theorem onlyStoresAndPlotChangeMemory : Obligations.OnlyStoresAndPlotChangeMemory := by
  intro i s t h
  have u := exec_updates h
  exact ⟨fun hs => ⟨congrFun (u.kept fun _ _ => Update.ramByte_eq hs), u.kept fun _ _ => Update.stored_eq hs⟩,
    fun hp x y => congrFun (congrFun (u.kept fun _ _ => Update.pixel_eq hp) x) y⟩

/-- Settles O17: the fetch and every update leave the three alone. -/
theorem codeAndRomNeverChange : Obligations.CodeAndRomNeverChange := by
  intro s t h
  obtain ⟨_, bytes, rest, u, i, hf, _, hx⟩ := step_next h
  obtain ⟨_, _, f⟩ := fetch_ok hf
  have fetched : u.code = s.code ∧ u.rom = s.rom ∧ u.params = s.params := by rw [f.state]; exact ⟨rfl, rfl, rfl⟩
  obtain ⟨code, rom, params⟩ := fetched
  have w := exec_updates hx
  exact ⟨(w.kept fun _ _ => Update.code_eq).trans code, (w.kept fun _ _ => Update.rom_eq).trans rom,
    (w.kept fun _ _ => Update.params_eq).trans params⟩

/-! ## The prefix data (10_state.md R31, 40_prefix.md R137) -/

/-- A core instruction that is neither a branch nor a prefix clears the prefix data. -/
theorem exec_core_prefixCleared {i : Instr} {s t : State} (hc : i.isCore = true) (hb : i.isBranch = false)
    (hp : i.isPrefix s.b = false) (h : exec i s = .next t) : PrefixCleared t :=
  (ends_exec hc hb hp).prefixCleared h

/-- What a sequence ends with is the outcome of its last instruction. -/
theorem runForms_last {js : List Instr} {j : Instr} {s t : State} (h : runForms (js ++ [j]) s = .next t) :
    ∃ u, exec j u = .next t := by
  induction js generalizing s with
  | nil => exact ⟨s, h⟩
  | cons i js ih =>
    obtain ⟨k, ks, e⟩ : ∃ k ks, js ++ [j] = k :: ks := by cases js <;> exact ⟨_, _, rfl⟩
    rw [List.cons_append, e] at h
    obtain ⟨u, _, h⟩ := andThen_next h
    obtain ⟨bytes, v, _, h⟩ := thenForm_next h
    exact ih (e ▸ h)

/-- Behind WITH, which sets b, an instruction runs with b set. -/
theorem runForms_withReg {n : Reg} {j : Instr} {s t : State} (h : runForms [.withReg n, j] s = .next t)
    (hj : (encodeBody j).length ≤ 1) : ∃ u, u.b = true ∧ exec j u = .next t := by
  obtain ⟨u, hu, h⟩ := andThen_next h
  obtain ⟨bytes, v, hv, hx⟩ := thenForm_next h
  cases hu
  refine ⟨v, ?_, hx⟩
  rw [(takeForm_ok (by omega) hv).state]
  rfl

/-- The last instruction of a spelling is neither a branch nor, where it runs, a prefix. -/
theorem exec_spelling_last {i : Instr} {s t : State} (hc : i.isCore = false) (h : exec i s = .next t) :
    ∃ j u, j.isCore = true ∧ j.isBranch = false ∧ j.isPrefix u.b = false ∧ exec j u = .next t := by
  rw [exec_spelling hc] at h
  cases i with
  | lea | moveI8 | moveI16 | movewLoad0 | movewStore0 =>
    obtain ⟨u, hu⟩ := runForms_last (js := []) h
    exact ⟨_, u, rfl, rfl, rfl, hu⟩
  | moveLoadShort | moveLoad | moveStoreShort | moveStore | movebLoad0 | movebStore0 | movewLoad | movewStore =>
    obtain ⟨u, hu⟩ := runForms_last (js := [_]) h
    exact ⟨_, u, rfl, rfl, rfl, hu⟩
  | movebLoad | movebStore =>
    obtain ⟨u, hu⟩ := runForms_last (js := [_, _]) h
    exact ⟨_, u, rfl, rfl, rfl, hu⟩
  | moveRR | movesRR =>
    obtain ⟨u, hb, hu⟩ := runForms_withReg h le_rfl
    exact ⟨_, u, rfl, rfl, by rw [hb]; rfl, hu⟩
  | _ => cases hc

/-- Settles O14: a branch is `branchIf`, and every other instruction that is no prefix ends in `ClearPrefix()`, a spelling by its
last instruction. -/
theorem prefixDataLastsToTheNextInstruction : Obligations.PrefixDataLastsToTheNextInstruction := by
  refine fun i s t h => ⟨fun hb => exec_branch_prefixKept hb h, fun hb hp => ?_⟩
  cases hc : i.isCore
  · obtain ⟨j, u, hjc, hjb, hjp, hx⟩ := exec_spelling_last hc h
    exact exec_core_prefixCleared hjc hjb hjp hx
  · exact exec_core_prefixCleared hc hb hp h

/-! ## The invariant (10_state.md section 3; 20_memory.md sections 5 and 6; 47_plot.md) -/

section
variable {i : Instr} {s t : State}

theorem Update.memoryWf (h : Update i s t) (w : s.MemoryWf) : t.MemoryWf := by
  cases h with
  | romLoad => exact ⟨by simpa using w.code, by simpa using w.rom, by simpa using w.ram, by simpa using w.pix, by simpa using w.stored⟩
  | formTaken _ _ _ _ f => rw [f.state]; exact ⟨w.code, w.rom, w.ram, w.pix, w.stored⟩
  | drainRam => exact ⟨w.code, w.rom, drainInto_wf _ w.ram, w.pix, w.stored⟩
  | drainPlot => exact ⟨w.code, w.rom, w.ram, drainInto_wf _ w.pix, w.stored⟩
  | issueStore => exact ⟨w.code, w.rom, drainInto_wf _ w.ram, w.pix, insertAddrs_rising _ w.stored⟩
  | _ => exact ⟨w.code, w.rom, w.ram, w.pix, w.stored⟩

theorem Update.pixelsWf (h : Update i s t) (w : s.PixelsWf) : t.PixelsWf := by
  cases h with
  | romLoad => exact ⟨by simpa using w.written, by simpa using w.buffered⟩
  | formTaken _ _ _ _ f => rw [f.state]; exact ⟨w.written, w.buffered⟩
  | drainPlot =>
    refine ⟨fun c hc => ?_, fun c hc => absurd hc List.not_mem_nil⟩
    rcases mem_drainInto hc with hc | hc
    · exact w.buffered c hc
    · exact w.written c hc
  | pixelWrite x y c _ fits =>
    refine ⟨w.written, fun d hd => ?_⟩
    rcases List.mem_append.1 hd with hd | hd
    · exact w.buffered d hd
    · obtain rfl := List.mem_singleton.1 hd
      exact fits
  | _ => exact ⟨w.written, w.buffered⟩

theorem Update.bufferedAreStored (h : Update i s t) (w : s.BufferedAreStored) : t.BufferedAreStored := by
  cases h with
  | romLoad => simpa [State.BufferedAreStored] using w
  | formTaken _ _ _ _ f => rw [f.state]; exact w
  | drainRam => exact fun c hc => absurd hc List.not_mem_nil
  | issueStore cells => exact fun c hc => mem_insertAddrs.2 (.inl ⟨c, hc, rfl⟩)
  | _ => exact w

end

/-- A branch takes its offset without the in-line flags (46_control.md R280). -/
theorem isBranchByte_of_decode {alt : Alt} {op : Byte} {bs rest : List Byte} {i : Instr}
    (h : decode alt (op :: bs) = .ok (i, rest)) (hb : i.isBranch = true) : isBranchByte alt op = true := by
  obtain ⟨_, _, _, e⟩ := decodedInstructionsEncodeBack _ _ _ _ h
  cases i with
  | bra | blt | bge | bne | beq | bpl | bmi | bcc | bcs | bvc | bvs =>
    obtain ⟨rfl, _⟩ := List.cons.inj e
    rfl
  | _ => cases hb

/-- A prefix has no in-line bytes. -/
theorem inlineBytes_of_decode_prefix {alt : Alt} {op : Byte} {bs rest : List Byte} {i : Instr} {b : Bool}
    (h : decode alt (op :: bs) = .ok (i, rest)) (hp : i.isPrefix b = true) : inlineBytes alt op = 0 := by
  obtain ⟨_, _, _, e⟩ := decodedInstructionsEncodeBack _ _ _ _ h
  cases i with
  | alt1 | alt2 | alt3 =>
    obtain ⟨rfl, _⟩ := List.cons.inj e
    rfl
  | withReg n =>
    obtain ⟨rfl, _⟩ := List.cons.inj e
    rw [inlineBytes, shape_row2]
  | toReg n =>
    obtain ⟨rfl, _⟩ := List.cons.inj e
    rw [inlineBytes, shape_row1]
  | fromReg n =>
    obtain ⟨rfl, _⟩ := List.cons.inj e
    rw [inlineBytes, shape_rowB]
  | _ => cases hp

/-- A fetch of a form that is a branch's or has no in-line bytes leaves the prefix data. -/
theorem FormTaken.prefixKept {s t : State} {k : Nat} {branch : Bool} {bytes : List Byte} (h : FormTaken s k branch bytes t)
    (hk : branch = true ∧ k = 1 ∨ k = 0) : PrefixKept s t := by
  rw [h.state]
  obtain ⟨rfl, rfl⟩ | rfl := hk <;> exact ⟨rfl, rfl, rfl, Bool.or_false _, Bool.or_false _, rfl, rfl⟩

theorem PrefixKept.prefixWf {s t : State} (h : PrefixKept s t) (w : s.PrefixWf) : t.PrefixWf :=
  ⟨h.il.trans w.il, h.ih.trans w.ih, fun hb => by rw [h.sreg, h.dreg]; exact w.named (h.b.symm.trans hb)⟩

theorem PrefixCleared.prefixWf {t : State} (h : PrefixCleared t) : t.PrefixWf :=
  ⟨h.il, h.ih, fun hb => absurd (h.b.symm.trans hb) nofun⟩

theorem exec_prefix_prefixWf {i : Instr} {s t : State} (hp : i.isPrefix s.b = true) (h : exec i s = .next t)
    (w : s.PrefixWf) : t.PrefixWf := by
  obtain ⟨p, e, il, ih, named⟩ := exec_prefix hp
  cases e.symm.trans h
  exact ⟨il.trans w.il, ih.trans w.ih, named w.named⟩

/-- A step keeps what holds of the prefix data: a branch leaves it, a prefix adds to it, any other instruction clears it. -/
theorem step_prefixWf {s t : State} (h : step s = .next t) (w : s.PrefixWf) : t.PrefixWf := by
  obtain ⟨_, bytes, rest, u, i, hf, hd, hx⟩ := step_next h
  obtain ⟨inl, rfl, f⟩ := fetch_ok hf
  by_cases hb : i.isBranch = true
  · have branch := isBranchByte_of_decode hd hb
    have fetched := f.prefixKept (.inl ⟨branch, inlineBytes_branch branch⟩)
    exact (exec_branch_prefixKept hb hx).prefixWf (fetched.prefixWf w)
  by_cases hp : i.isPrefix u.b = true
  · have fetched := f.prefixKept (.inr (inlineBytes_of_decode_prefix hd hp))
    exact exec_prefix_prefixWf hp hx (fetched.prefixWf w)
  · exact (prefixDataLastsToTheNextInstruction i u t hx).2 (by simpa using hb) (by simpa using hp) |>.prefixWf

/-- A fetch leaves all but r15, the pipe, the in-line buffer and the in-line flags. -/
theorem FormTaken.rest_wf {s t : State} {k : Nat} {branch : Bool} {bytes : List Byte} (h : FormTaken s k branch bytes t)
    (w : s.Inv) : t.MemoryWf ∧ t.PixelsWf ∧ t.BufferedAreStored := by
  obtain ⟨memory, _, pixels, buffered⟩ := w
  rw [h.state]
  exact ⟨⟨memory.code, memory.rom, memory.ram, memory.pix, memory.stored⟩, ⟨pixels.written, pixels.buffered⟩, buffered⟩

/-- Settles O3: the memories, the pixels and the write buffer by the updates the step is made of, the prefix data by what the
instruction does at its end. -/
theorem everyStepKeepsTheInvariant : Obligations.EveryStepKeepsTheInvariant := by
  intro s t w h
  obtain ⟨_, bytes, rest, u, i, hf, _, hx⟩ := step_next h
  obtain ⟨_, _, f⟩ := fetch_ok hf
  obtain ⟨memory, pixels, buffered⟩ := f.rest_wf w
  have made := exec_updates hx
  exact ⟨made.holds (fun _ _ => Update.memoryWf) memory, step_prefixWf h w.prefixData,
    made.holds (fun _ _ => Update.pixelsWf) pixels, made.holds (fun _ _ => Update.bufferedAreStored) buffered⟩

/-- Settles O2: at reset the memories and the buffers are empty and the prefix data is clear. -/
theorem resetMeetsTheInvariant : Obligations.ResetMeetsTheInvariant where
  memory := ⟨Memory.nil_wf, Memory.nil_wf, Memory.nil_wf, Memory.nil_wf, .nil⟩
  prefixData := ⟨rfl, rfl, fun _ => rfl⟩
  pixels := ⟨fun _ h => absurd h List.not_mem_nil, fun _ h => absurd h List.not_mem_nil⟩
  buffered := fun _ h => absurd h List.not_mem_nil

end Sys2Proof.Machine
end

section
/-!
PROOF. The fetch and the step (10_state.md sections 2, 3 and 6; 20_memory.md section 6): what the fetch takes and what it leaves,
that a step is the meaning of the instruction decoded, and the steps the statements name.
-/

namespace Sys2Proof.Machine

/-! ## What a fetch leaves (R23, R29) -/

section
variable {s t : State} {k : Nat} {branch : Bool} {bytes : List Byte} (h : FormTaken s k branch bytes t)
include h

theorem FormTaken.reg_eq {m : Reg} (hm : m ≠ 15) : t.reg m = s.reg m := by
  rw [h.state]
  exact (State.reg_setReg s 15 m _).trans (if_neg hm)

theorem FormTaken.romKept : t.rombuf = s.rombuf ∧ t.romStatus = s.romStatus ∧ t.romPending = s.romPending := by
  rw [h.state]
  exact ⟨rfl, rfl, rfl⟩

theorem FormTaken.flagsKept : FlagsKept s t := by
  rw [h.state]
  exact ⟨rfl, rfl, rfl, rfl⟩

theorem FormTaken.il_eq : t.il = (s.il || (k != 0 && !branch)) := by rw [h.state]

theorem FormTaken.ih_eq : t.ih = (s.ih || decide (k = 2)) := by rw [h.state]

/-- The in-line flags are all of the prefix data that a fetch sets. -/
theorem FormTaken.prefixKept_but_inline : PrefixKept { s with il := t.il, ih := t.ih } t := by
  rw [h.state]
  exact ⟨rfl, rfl, rfl, rfl, rfl, rfl, rfl⟩

theorem FormTaken.restKept : RestKept { s with pipe := t.pipe, inlineLo := t.inlineLo } t := by
  rw [h.state]
  exact restKept_of_fields (by simp) (by simp) (by simp)

end

/-- Taking a form without in-line bytes fills the pipe and does nothing else. -/
theorem FormTaken.eq_of_no_inline {s t : State} {bytes : List Byte} (h : FormTaken s 0 false bytes t) :
    t = { s with pipe := t.pipe } := by
  have low : t.inlineLo = s.inlineLo := h.low
  have pc : s.setReg 15 (s.reg 15 + BitVec.ofNat 16 0) = s := by
    rw [show s.reg 15 + BitVec.ofNat 16 0 = s.reg 15 from add_zero _, setReg_self]
  have state := h.state
  rw [pc, low] at state
  simpa using state

/-- Settles O10: the form's fetch, field by field. -/
theorem fetchTakesTheBytesInFetchOrder : Obligations.FetchTakesTheBytesInFetchOrder := by
  intro s hopen
  obtain ⟨bytes, t, hf⟩ := fetch_open hopen
  obtain ⟨rest, rfl, f⟩ := fetch_ok hf
  have length := f.length
  rw [← length] at f
  obtain ⟨rombuf, romStatus, romPending⟩ := f.romKept
  exact ⟨rest, t, hf, length, f.reads, f.pc_eq, f.next, fun m hm => f.reg_eq hm, rombuf, romStatus, romPending, f.flagsKept,
    f.prefixKept_but_inline, f.il_eq, f.ih_eq, f.low, f.restKept⟩

/-! ## A step (R22, R23) -/

theorem step_eq_exec {s t : State} {bytes rest : List Byte} {i : Instr} (hg : s.go = true) (hf : s.fetch = .ok (bytes, t))
    (hd : decode s.altMode bytes = .ok (i, rest)) : step s = exec i t := by
  obtain ⟨_, _, f⟩ := fetch_ok hf
  rw [← f.altMode_eq] at hd
  simp only [step, hg, hf, hd, if_true]

/-- Settles O9: the fetch keeps the ALT mode the bytes are decoded under. -/
theorem stepRunsTheDecodedInstruction : Obligations.StepRunsTheDecodedInstruction :=
  fun _ _ _ _ _ => step_eq_exec

/-- A refused read of the next code byte refuses the step, whatever form waits in the pipe. -/
theorem step_refused_of_codeRead {s : State} {r : Refusal} (hg : s.go = true) (h : s.codeRead s.pbr (s.reg 15) = .error r) :
    step s = .refused r := by
  have prefetch : s.prefetch = .error r := by
    rw [State.prefetch, show s.codeRead s.pbr s.pc = .error r from h]
  have fetch : s.fetch = .error r := by
    simp only [State.fetch, State.takeForm, State.takeOpcode, prefetch]
  simp only [step, hg, fetch, if_true]

/-- Code RAM the run has stored to cannot be read as code (20_memory.md R92). -/
theorem codeRead_stored {s : State} {bank : Byte} {a : Word} {r : Nat} (mapped : inRegions s.params.codeHoles (bankAddr bank a) = false)
    (ram : ramBehind s.params.codeRam (bankAddr bank a) = some r) (noScreen : inRegions s.params.screenRam r = false)
    (stored : r ∈ s.stored) : s.codeRead bank a = .error .storedCode := by
  simp [State.codeRead, mapped, ram, noScreen, stored]

/-- Settles O13: the read of the next code byte is refused, and with it the step. -/
theorem fetchOfAStoredByteIsRefused : Obligations.FetchOfAStoredByteIsRefused :=
  fun _ _ hg mapped ram noScreen stored => step_refused_of_codeRead hg (codeRead_stored mapped ram noScreen stored)

theorem PrefixCleared.altMode_eq {s : State} (h : PrefixCleared s) : s.altMode = .none := by
  rw [State.altMode, h.alt1, h.alt2]
  rfl

/-- A step that takes one byte is the meaning of that byte on the state with the pipe filled again. -/
theorem step_of_no_inline {s : State} {i : Instr} (hg : s.go = true) (hopen : s.CodeOpen)
    (hk : inlineBytes s.altMode s.pipe = 0) (hd : decode s.altMode [s.pipe] = .ok (i, [])) :
    ∃ b, s.codeRead s.pbr (s.reg 15) = .ok b ∧ step s = exec i { s with pipe := b } := by
  obtain ⟨bytes, t, hf⟩ := fetch_open hopen
  obtain ⟨rest, rfl, f⟩ := fetch_ok hf
  have noBranch : isBranchByte s.altMode s.pipe = false := by
    by_contra h
    exact absurd (hk.symm.trans (inlineBytes_branch (by simpa using h))) (by decide)
  rw [hk, noBranch] at f
  obtain rfl := List.length_eq_zero_iff.1 f.length
  refine ⟨t.pipe, ?_, ?_⟩
  · simpa using f.next
  · rw [step_eq_exec hg hf hd]
    exact congrArg (exec i) f.eq_of_no_inline

/-- Settles O1: the launch byte is NOP, and its step is the fetch of one byte and the end of NOP. -/
theorem resetIsTheStartOfARun : Obligations.ResetIsTheStartOfARun := by
  refine ⟨⟨rfl, ⟨rfl, rfl, rfl, rfl, rfl, rfl, rfl⟩, rfl, rfl, rfl⟩, fun s hg hp hc hopen => ?_⟩
  obtain ⟨b, hb, hs⟩ := step_of_no_inline (i := .nop) hg hopen (by rw [hc.altMode_eq, hp]; rfl)
    (by rw [hc.altMode_eq, hp]; rfl)
  obtain ⟨t, ht, w, f⟩ := finish_spec { s with pipe := b }
  have pipe : t.pipe = b := w.rest.system.pipe
  subst pipe
  exact ⟨t, hs.trans ht, hb, w, ⟨f.zero, f.carry, f.sign, f.overflow⟩⟩

/-- A step that takes BEQ: the offset byte, the byte behind it into the pipe, and the jump. -/
theorem step_beq_taken {s : State} {d : Byte} (hg : s.go = true) (hopen : s.CodeOpen) (hp : s.pipe = 0x09)
    (hd : s.codeRead s.pbr (s.reg 15) = .ok d) (hz : s.zf = true) :
    ∃ t, step s = .next t ∧ t.reg 15 = s.reg 15 + 1 + d.signExtend 16 ∧ s.codeRead s.pbr (s.reg 15 + 1) = .ok t.pipe := by
  obtain ⟨bytes, u, hf⟩ := fetch_open hopen
  obtain ⟨d', hb, f⟩ := fetch_branch (by rw [hp]; rfl) hf
  have offset : s.codeRead s.pbr (s.reg 15) = .ok d' := by simpa using f.reads 0 (by simp)
  obtain rfl : d = d' := Except.ok.inj (hd.symm.trans offset)
  have decoded : decode s.altMode bytes = .ok (.beq d, []) := by rw [hb, hp]; rfl
  obtain ⟨t, ht, taken, _, _, _, _, _, _, rest⟩ := branchIf_spec u.zf d u
  have pipe : t.pipe = u.pipe := rest.system.pipe
  refine ⟨t, (step_eq_exec hg hf decoded).trans ht, ?_, ?_⟩
  · rw [(taken (f.flagsKept.zero.trans hz)).dest, f.pc_eq]
    rfl
  · rw [pipe]
    exact f.next

/-- Settles O12: no update of a core instruction fills the pipe; and the step that takes BEQ. -/
theorem theSlotByteRunsBeforeTheTarget : Obligations.TheSlotByteRunsBeforeTheTarget :=
  ⟨fun _ _ _ hc h => (exec_updates_core hc h).kept fun _ _ => Update.pipe_eq hc, fun _ _ => step_beq_taken⟩

end Sys2Proof.Machine
end

section
/-!
PROOF. Prefixes and moves (40_prefix.md R134 to R137), the adder (41_arithmetic.md R150 to R153, R160, R161), the branches after
CMP (R154, 46_control.md R281 to R285), LMULT (R158), and the rotations and MERGE (42_logic_shift.md R188, R191, R192).
-/

namespace Sys2Proof.Machine

/-! ## WITH, TO and FROM (R134 to R136) -/

theorem exec_withReg_spec (s : State) (n : Reg) :
    ∃ t, exec (.withReg n) s = .next t ∧ PrefixKept { s with sreg := n, dreg := n, b := true } t ∧ NoRegWritten s t ∧
      FlagsKept s t ∧ RestKept s t :=
  completePrefix_spec (b := { s with sreg := n, dreg := n, b := true }) rfl

theorem exec_toReg_prefix {s : State} (h : s.b = false) (n : Reg) :
    ∃ t, exec (.toReg n) s = .next t ∧ PrefixKept { s with dreg := n } t ∧ NoRegWritten s t ∧ FlagsKept s t ∧
      RestKept s t := by
  have e : exec (.toReg n) s = complete false { s with dreg := n } := if_neg (by simp [h])
  rw [e]
  exact completePrefix_spec (b := { s with dreg := n }) rfl

theorem exec_fromReg_prefix {s : State} (h : s.b = false) (n : Reg) :
    ∃ t, exec (.fromReg n) s = .next t ∧ PrefixKept { s with sreg := n } t ∧ NoRegWritten s t ∧ FlagsKept s t ∧
      RestKept s t := by
  have e : exec (.fromReg n) s = complete false { s with sreg := n } := if_neg (by simp [h])
  rw [e]
  exact completePrefix_spec (b := { s with sreg := n }) rfl

/-- With b set TO moves SReg to its register (R135). -/
theorem exec_toReg_move {s : State} (h : s.b = true) (n : Reg) : YieldsPlain n s.src s (exec (.toReg n) s) := by
  have e : exec (.toReg n) s = finishReg n s.src s := if_pos h
  rw [e]
  exact finishReg_spec n s.src s

/-- With b set FROM moves its register to DReg and sets s, z and v (R136). -/
theorem exec_fromReg_move {s : State} (h : s.b = true) (n : Reg) :
    ∃ t, exec (.fromReg n) s = .next t ∧ WroteReg s.dreg (s.reg n) s t ∧ t.sf = (s.reg n).getLsbD 15 ∧
      t.zf = decide (s.reg n = 0) ∧ t.vf = (s.reg n).getLsbD 7 ∧ t.cf = s.cf := by
  have e : exec (.fromReg n) s = finishReg s.dreg (s.reg n) (s.setMoves (s.reg n)) := if_pos h
  obtain ⟨t, ht, w, f⟩ := finishReg_spec s.dreg (s.reg n) (s.setMoves (s.reg n))
  exact ⟨t, e.trans ht, w.of_withFlagsOf (f := s), f.sign.trans (msb_eq_bit15 _), f.zero, f.overflow, f.carry⟩

/-- Settles O21: the end of a prefix at the new selectors, and with b set the two moves. -/
theorem withToFromNameOrMove : Obligations.WithToFromNameOrMove := fun s n =>
  ⟨exec_withReg_spec s n, fun h => exec_toReg_prefix h n, fun h => exec_toReg_move h n, fun h => exec_fromReg_prefix h n,
    fun h => exec_fromReg_move h n⟩

/-- ALT2 sets alt2 and changes nothing else of the prefix data (R131). -/
theorem exec_alt2_spec (s : State) :
    ∃ t, exec .alt2 s = .next t ∧ PrefixKept { s with alt2 := true } t ∧ NoRegWritten s t ∧ FlagsKept s t ∧ RestKept s t :=
  completePrefix_spec (b := { s with alt2 := true }) rfl

/-! ## The adder (41_arithmetic.md R150 to R153, R160, R161) -/

theorem exec_addI_spec (k : Nibble) (s : State) : Adds (k.zeroExtend 16) 0 s (exec (.addI k) s) := addTo_spec (zext4 k) false s

/-- Settles O23: each of the four is the adder, ADC's carry in the old c. -/
theorem addAndAdcSumWithFlags : Obligations.AddAndAdcSumWithFlags := fun s n k =>
  ⟨addTo_spec (s.reg n) false s, exec_addI_spec k s, addTo_spec (s.reg n) s.cf s, addTo_spec (zext4 k) s.cf s⟩

/-- Settles O22: FROM, TO and ALT2 each leave what the others set, and no prefix writes a register but r15. -/
theorem prefixesComposeBeforeAnAdd : Obligations.PrefixesComposeBeforeAnAdd := by
  intro s m n k hb
  obtain ⟨t, ht, from_, fromRegs, _⟩ := exec_fromReg_prefix hb m
  obtain ⟨u, hu, to_, toRegs, _⟩ := exec_toReg_prefix (from_.b.trans hb) n
  obtain ⟨v, hv, alt, altRegs, _⟩ := exec_alt2_spec u
  obtain ⟨w, hw, sum, _⟩ := exec_addI_spec k v
  have alt1 : v.alt1 = s.alt1 := alt.alt1.trans (to_.alt1.trans from_.alt1)
  have alt2 : v.alt2 = true := alt.alt2
  have sreg : v.sreg = m := alt.sreg.trans (to_.sreg.trans from_.sreg)
  have dreg : v.dreg = n := alt.dreg.trans to_.dreg
  refine ⟨t, u, v, w, ht, hu, hv, ?mode, hw, ?dest, fun r h15 => ⟨?prefixes, fun hn => ?others⟩⟩
  case mode =>
    rw [State.altMode, alt1, alt2]
    cases s.alt1 <;> rfl
  case dest =>
    have dest := sum.regs.dest
    rw [dreg, State.src, sreg] at dest
    exact dest.trans (add_zero _)
  case prefixes => exact (altRegs.others r h15).trans ((toRegs.others r h15).trans (fromRegs.others r h15))
  case others =>
    rw [sum.regs.others r (by rwa [dreg]) h15]
    exact (altRegs.others r h15).trans ((toRegs.others r h15).trans (fromRegs.others r h15))

/-- Row `$6n`: the ALT mode chooses SUB, SBC and the immediate. -/
theorem decode_subtractions (n : Reg) (k : Nibble) (rest : List Byte) :
    decode .none (byteOf 6 n :: rest) = .ok (.subR n, rest) ∧ decode .one (byteOf 6 n :: rest) = .ok (.sbcR n, rest) ∧
      decode .two (byteOf 6 k.toNat :: rest) = .ok (.subI k, rest) :=
  ⟨decode_encodeBody_own (i := .subR n) rfl rfl rest, decode_encodeBody_own (i := .sbcR n) rfl rfl rest,
    decode_encodeBody_own (i := .subI k) rfl rfl rest⟩

/-- SBC's borrow is the complement of c (R160). -/
theorem one_sub_carryIn (c : Bool) : 1 - carryIn c = if c then 0 else 1 := by cases c <;> rfl

/-- Settles O24: the decoder's row, and each of the three as the adder on the complement, SBC's carry in the old c. -/
theorem subAndSbcSubtractWithFlags : Obligations.SubAndSbcSubtractWithFlags := by
  refine ⟨decode_subtractions, fun s n k => ⟨subTo_spec (s.reg n) true s, subTo_spec (zext4 k) true s, ?sbc⟩⟩
  case sbc =>
    rw [← one_sub_carryIn]
    exact subTo_spec (s.reg n) s.cf s

/-! ## Branches after CMP (46_control.md R281 to R285) -/

/-- A branch on a condition that the flags express as another. -/
theorem branchIf_of_iff {cond : Bool} {p : Prop} [Decidable p] (h : cond = true ↔ p) (d : Byte) (s : State) :
    Branches (decide p) d s (branchIf cond d s) := by
  rw [← (Bool.eq_iff_iff.2 (h.trans decide_eq_true_iff.symm) : cond = decide p)]
  exact branchIf_spec cond d s

/-- Settles O26: each ordered branch tests flags that say how SReg and Rn compare. -/
theorem branchesAfterCmpFollowTheOrder : Obligations.BranchesAfterCmpFollowTheOrder := by
  intro s n d
  obtain ⟨t, ht, _, f⟩ := execCmpR_spec n s
  have less : (t.sf ^^ t.vf) = true ↔ s.src.toInt < (s.reg n).toInt := f.sign_xor_overflow_iff_lt
  have noBorrow : t.cf = true ↔ (s.reg n).toNat ≤ s.src.toNat := f.carry
  refine ⟨t, ht, branchIf_of_iff less d t, branchIf_of_iff ?bge d t, branchIf_of_iff ?bcc d t, branchIf_of_iff noBorrow d t,
    branchIf_of_iff f.zero_iff_eq d t⟩
  case bge => rw [Bool.not_eq_true', ← Bool.not_eq_true, less, not_lt]
  case bcc => rw [Bool.not_eq_true', ← Bool.not_eq_true, noBorrow, not_le]

/-! ## LMULT (R158) -/

/-- The two words of a product are the product: its quotient and its remainder by 65536. -/
theorem productHigh_mul_add_productLow (a b : Word) :
    (productHigh a b).toInt * 65536 + (productLow a b).toNat = a.toInt * b.toInt := by
  rw [productHigh_toInt, productLow_toNat]
  omega

theorem productCarry_eq_low_bit15 (a b : Word) : productCarry a b = (productLow a b).getLsbD 15 := by
  simp [productCarry, productLow]

/-- LMULT with DReg not r4: the low word to r4, then the high word to DReg. -/
theorem execLmult_of_ne {s : State} (h : s.dreg ≠ 4) :
    ∃ t, execLmult s = .next t ∧
      WroteReg s.dreg (productHigh s.src (s.reg 6)) (s.setReg 4 (productLow s.src (s.reg 6))) t ∧
      FlagsSZC (productHigh s.src (s.reg 6)) ((productLow s.src (s.reg 6)).getLsbD 15) s t := by
  obtain ⟨t, ht, w, f⟩ := finishReg_spec s.dreg (productHigh s.src (s.reg 6))
    ((s.setSZC (productHigh s.src (s.reg 6)) (productCarry s.src (s.reg 6))).setReg 4 (productLow s.src (s.reg 6)))
  refine ⟨t, (if_neg h).trans ht, w.of_withFlagsOf (f := s), f.sign.trans (msb_eq_bit15 _), f.zero, ?_, f.overflow⟩
  exact f.carry.trans (productCarry_eq_low_bit15 _ _)

/-- Settles O30: the two words LMULT writes, and with DReg = r4 its end with the free values it draws. -/
theorem lmultGivesBothWords : Obligations.LmultGivesBothWords := by
  refine fun s => ⟨fun h => ?words, fun h => ?free⟩
  case words => exact ⟨_, _, productHigh_mul_add_productLow s.src (s.reg 6), execLmult_of_ne h⟩
  case free =>
    obtain ⟨t, ht, w, f⟩ := finish_spec
      ((({ s with
          sf := Config.freeFlag s.draws
          cf := Config.freeFlag (s.draws + 1)
          zf := Config.freeFlag (s.draws + 2) } : State).setReg 4 (Config.freeWord s.draws)).drew 3)
    have draws : t.draws = s.draws + 3 := w.rest.system.draws
    refine ⟨Config.freeWord s.draws, t, (if_pos h).trans ht, ?_, f.overflow⟩
    rw [draws]
    exact w.of_withFlagsOf (f := s)

/-! ## Rotations (42_logic_shift.md R191, R192) -/

theorem rorResult_rolResult (a : Word) (c : Bool) : rorResult (rolResult a c) (a.getLsbD 15) = a := by
  apply BitVec.eq_of_toNat_eq
  have := a.isLt
  rw [rorResult_toNat, rolResult_toNat, word_bit15]
  cases c <;> by_cases h : 32768 ≤ a.toNat <;> simp [h] <;> omega

theorem rolResult_rorResult (a : Word) (c : Bool) : rolResult (rorResult a c) (a.getLsbD 0) = a := by
  apply BitVec.eq_of_toNat_eq
  have := a.isLt
  rw [rolResult_toNat, rorResult_toNat, word_bit0]
  cases c <;> by_cases h : a.toNat % 2 = 1 <;> simp [h] <;> omega

/-- The bit a rotation takes in is the one the opposite rotation puts out. -/
theorem rolResult_bit0 (a : Word) (c : Bool) : (rolResult a c).getLsbD 0 = c := by
  rw [word_bit0, rolResult_toNat]
  cases c <;> simp

theorem rorResult_bit15 (a : Word) (c : Bool) : (rorResult a c).getLsbD 15 = c := by
  have := a.isLt
  rw [word_bit15, rorResult_toNat]
  cases c <;> simp
  omega

theorem exec_rol_spec (s : State) : YieldsSZC (rolResult s.src s.cf) (s.src.getLsbD 15) s (exec .rol s) := by
  rw [← msb_eq_bit15]
  exact shiftTo_spec _ _ s

theorem exec_ror_spec (s : State) : YieldsSZC (rorResult s.src s.cf) (s.src.getLsbD 0) s (exec .ror s) := shiftTo_spec _ _ s

/-- A rotation of register `n` onto itself, and then WITH Rn: the next instruction reads and writes what the rotation wrote. -/
theorem rotation_withReg {s : State} {n : Reg} (h15 : n ≠ 15) (hd : s.dreg = n) {r : Word} {out : Bool} {o : Result}
    (h : YieldsSZC r out s o) :
    ∃ t u, o = .next t ∧ exec (.withReg n) t = .next u ∧ u.src = r ∧ u.cf = out ∧ u.dreg = n := by
  obtain ⟨t, ht, w, f⟩ := h
  obtain ⟨u, hu, named, regs, flags, _⟩ := exec_withReg_spec t n
  have sreg : u.sreg = n := named.sreg
  refine ⟨t, u, ht, hu, ?_, flags.carry.trans f.carry, named.dreg⟩
  rw [State.src, sreg, regs.others n h15, ← hd]
  exact w.regs.dest

/-- Settles O33: the second rotation takes in the bit the first put out, and puts out the one it took in. -/
theorem rotationsUndoEachOther : Obligations.RotationsUndoEachOther := by
  intro s n h15 hs hd
  have src : s.src = s.reg n := by rw [State.src, hs]
  constructor
  · obtain ⟨t, u, ht, hu, usrc, ucf, ud⟩ := rotation_withReg h15 hd (exec_rol_spec s)
    obtain ⟨v, hv, w, f⟩ := exec_ror_spec u
    refine ⟨t, u, v, ht, hu, hv, ?_, ?_⟩
    · rw [← ud, w.regs.dest, usrc, ucf, rorResult_rolResult, src, ud]
    · rw [f.carry, usrc, rolResult_bit0]
  · obtain ⟨t, u, ht, hu, usrc, ucf, ud⟩ := rotation_withReg h15 hd (exec_ror_spec s)
    obtain ⟨v, hv, w, f⟩ := exec_rol_spec u
    refine ⟨t, u, v, ht, hu, hv, ?_, ?_⟩
    · rw [← ud, w.regs.dest, usrc, ucf, rolResult_rorResult, src, ud]
    · rw [f.carry, usrc, rorResult_bit15]

/-! ## MERGE (R188) -/

/-- The places of the bits that are 1 in a word, rising. -/
def onesOf (m : Word) : List Nat := (List.range 16).filter m.getLsbD

/-- A word under a mask is not 0 when it has a 1 at a place where the mask does. -/
theorem and_bne_zero (r m : Word) : ((r &&& m) != 0) = (onesOf m).any r.getLsbD := by
  rw [Bool.eq_iff_iff, bne_iff_ne, List.any_eq_true]
  constructor
  · intro h
    by_contra hno
    refine h (BitVec.eq_of_getLsbD_eq fun i hi => ?_)
    by_contra hbit
    have both : r.getLsbD i = true ∧ m.getLsbD i = true := by simpa using hbit
    exact hno ⟨i, by simp [onesOf, hi, both.2], both.1⟩
  · rintro ⟨i, hi, hr⟩ hz
    have hm : m.getLsbD i = true := by simpa using (List.mem_filter.1 hi).2
    have hbit : (r &&& m).getLsbD i = true := by rw [BitVec.getLsbD_and, hr, hm]; rfl
    rw [hz] at hbit
    simp at hbit

/-- The four masks of R188. -/
theorem onesOf_mergeMasks :
    onesOf 0x8080 = [7, 15] ∧ onesOf 0xC0C0 = [6, 7, 14, 15] ∧ onesOf 0xE0E0 = [5, 6, 7, 13, 14, 15] ∧
      onesOf 0xF0F0 = [4, 5, 6, 7, 12, 13, 14, 15] := by decide

theorem mergeResult_toNat (s : State) : (mergeResult s).toNat = (s.reg 7).toNat / 256 * 256 + (s.reg 8).toNat / 256 := by
  rw [mergeResult, wordOf_toNat, highByte_toNat, highByte_toNat]

/-- Settles O35: the word joined, and each flag as the bits its mask names. -/
theorem mergeJoinsTheHighBytes : Obligations.MergeJoinsTheHighBytes := by
  intro s
  obtain ⟨sign, overflow, carry, zero⟩ := onesOf_mergeMasks
  obtain ⟨t, ht, w, f⟩ := finishReg_spec s.dreg (mergeResult s) (s.setMerge (mergeResult s))
  refine ⟨mergeResult s, t, mergeResult_toNat s, ht, w.of_withFlagsOf (f := s), ?_, ?_, ?_, ?_⟩
  · refine (f.sign.trans (and_bne_zero _ _)).trans ?_
    rw [sign]
    simp
  · refine (f.overflow.trans (and_bne_zero _ _)).trans ?_
    rw [overflow]
    simp [Bool.or_assoc]
  · refine (f.carry.trans (and_bne_zero _ _)).trans ?_
    rw [carry]
    simp [Bool.or_assoc]
  · refine (f.zero.trans (and_bne_zero _ _)).trans ?_
    rw [zero]
    simp [Bool.or_assoc]

end Sys2Proof.Machine
end

section
/-!
PROOF. RAM (44_load_store.md R230 to R239; 20_memory.md sections 3 and 5), the ROM buffer (45_rom.md R260 to R266), the banks and
the plot options (R234, R266, R310), and control (46_control.md R288, R291, R293, R295, R296).
-/

namespace Sys2Proof.Machine

/-! ## Loads and stores (44_load_store.md R230 to R238) -/

theorem execLdb_open {s : State} {n : Reg} (h : s.RamOpen (s.ramAddr (s.reg n))) :
    LoadsByte s.dreg (s.reg n) s (execLdb n s) := by
  unfold execLdb
  rw [loadByte_open h]
  exact finishReg_spec _ _ _

theorem execLdb_closed {s : State} {n : Reg} (h : ¬ s.RamOpen (s.ramAddr (s.reg n))) : RefusesRam (execLdb n s) := by
  obtain ⟨r, hr, e⟩ := loadByte_closed h
  exact ⟨r, hr, by simp only [execLdb, e]⟩

theorem execStb_open {s : State} {n : Reg} (h : s.RamOpen (s.ramAddr (s.reg n))) :
    StoresByte (s.reg n) s.src s (execStb n s) := by
  unfold execStb
  rw [storeByte_open (s := s.noteRam (s.reg n)) h]
  exact issueStore_spec _ _

theorem execStb_closed {s : State} {n : Reg} (h : ¬ s.RamOpen (s.ramAddr (s.reg n))) : RefusesRam (execStb n s) := by
  obtain ⟨r, hr, e⟩ := storeByte_closed (s := s.noteRam (s.reg n)) h (lowByte s.src)
  exact ⟨r, hr, by simp only [execStb, e]⟩

/-- Settles O37: each is the load of a word or a byte at its address. -/
theorem loadsReadRam : Obligations.LoadsReadRam := by
  refine fun s n a k => ⟨fun h => ⟨loadWordTo_open h s.dreg, loadWordTo_open h s.dreg⟩, fun h => loadWordTo_open h n,
    fun h => ?lms, fun h => execLdb_open h⟩
  case lms =>
    rw [← shortAddress_eq] at h ⊢
    exact loadWordTo_open h n

/-- Settles O38: each is the store of a word or a byte at its address. -/
theorem storesWriteRam : Obligations.StoresWriteRam := by
  refine fun s n a k => ⟨fun h => ⟨storeWordAt_open h s.src, storeWordAt_open h s.src⟩, fun h => storeWordAt_open h (s.reg n),
    fun h => ?sms, fun h => execStb_open h⟩
  case sms =>
    rw [← shortAddress_eq] at h ⊢
    exact storeWordAt_open h (s.reg n)

/-- Settles O39: SBK at its address, which is the last one used, or the free one before any. -/
theorem sbkStoresToTheLastAddress : Obligations.SbkStoresToTheLastAddress := by
  refine fun s => ⟨fun hset h => ?_, fun hset h => ?_⟩
  · rw [← sbkAddr_set hset] at h ⊢
    exact execSbk_open h
  · rw [← sbkAddr_unset hset] at h ⊢
    exact execSbk_open h

/-- Settles O42: each access checks its address, or both addresses of its word, before it does anything. -/
theorem closedRamIsRefused : Obligations.ClosedRamIsRefused := by
  refine fun s n a k => ⟨fun h => ⟨execLdb_closed h, execStb_closed h⟩, fun h => ?reg, fun h => ?word, fun h => ?short,
    fun hset h => ?set, fun hset h => ?unset⟩
  case reg =>
    exact ⟨loadWordTo_closed h s.dreg, storeWordAt_closed h s.src, loadWordTo_closed h s.dreg, storeWordAt_closed h s.src⟩
  case word => exact ⟨loadWordTo_closed h n, storeWordAt_closed h (s.reg n)⟩
  case short =>
    rw [← shortAddress_eq] at h
    exact ⟨loadWordTo_closed h n, storeWordAt_closed h (s.reg n)⟩
  case set => exact execSbk_closed (by rwa [sbkAddr_set hset])
  case unset => exact execSbk_closed (by rwa [sbkAddr_unset hset])

/-! ## A word stored and loaded (20_memory.md R76, R77) -/

theorem xor_one_ne (a : Word) : a ^^^ 1 ≠ a := by
  intro h
  have bit : (a ^^^ 1).getLsbD 0 = a.getLsbD 0 := congrArg (BitVec.getLsbD · 0) h
  simp at bit

theorem pendingByte_pair {x y : Nat} (h : y ≠ x) (lo hi : Byte) :
    pendingByte [(x, lo), (y, hi)] x = some lo ∧ pendingByte [(x, lo), (y, hi)] y = some hi := by
  simp [pendingByte_cons, h]

/-- The two bytes a word store has pending. -/
theorem pendingByte_word (s : State) (a : Word) (lo hi : Byte) :
    pendingByte [(s.ramAddr a, lo), (s.ramAddr (a ^^^ 1), hi)] (s.ramAddr a) = some lo ∧
      pendingByte [(s.ramAddr a, lo), (s.ramAddr (a ^^^ 1), hi)] (s.ramAddr (a ^^^ 1)) = some hi :=
  pendingByte_pair (fun h => xor_one_ne a ((bankAddr_inj _ _ _).1 h)) lo hi

/-- Whether RAM is open depends on the parameters and the bank alone. -/
theorem wordOpen_congr {s t : State} {a : Word} (h : s.WordOpen a) (params : t.params = s.params) (bank : t.rambr = s.rambr) :
    t.WordOpen a := by
  unfold State.WordOpen State.RamOpen State.ramAddr at h ⊢
  rwa [params, bank]

/-- Settles O40: the load finds both bytes in the write buffer, at an odd address the other way round. -/
theorem aWordStoredComesBack : Obligations.AWordStoredComesBack := by
  intro s n m a hopen
  obtain ⟨t, ht, _, _, _, system, stored, _⟩ := storeWordAt_open hopen (s.reg n)
  obtain ⟨u, hu, w, _⟩ := loadWordTo_open (wordOpen_congr hopen system.params system.rambr) m
  have addr : ∀ x, t.ramAddr x = s.ramAddr x := fun x => congrArg (bankAddr · x) system.rambr
  obtain ⟨low, high⟩ := pendingByte_word s a ((s.reg n).extractLsb' 0 8) ((s.reg n).extractLsb' 8 8)
  have lowByte_eq : t.ramByte (s.ramAddr a) = (s.reg n).extractLsb' 0 8 := by
    rw [stored.bytes, low]
    rfl
  have highByte_eq : t.ramByte (s.ramAddr (a ^^^ 1)) = (s.reg n).extractLsb' 8 8 := by
    rw [stored.bytes, high]
    rfl
  refine ⟨t, u, ht, hu, w.regs.dest.trans ?_⟩
  rw [addr, addr]
  cases hodd : a.getLsbD 0
  · rw [(even_word hodd).1, (even_word hodd).2, lowByte_eq, highByte_eq, if_neg nofun]
    exact wordOf_bytes (s.reg n)
  · rw [(odd_word hodd).1, (odd_word hodd).2, lowByte_eq, highByte_eq, if_pos rfl]

/-! ## Banks and plot options (R234, R266, R310) -/

theorem lowNybble_lowByte (w : Word) : lowNybble (lowByte w) = w.extractLsb' 0 4 :=
  BitVec.extractLsb'_extractLsb'_of_le (by decide)

/-- RAMB writes the pending store out to the old bank first (R234, R87). -/
theorem exec_ramb_spec (s : State) :
    ∃ t, exec .ramb s = .next t ∧ WroteNoReg { s.drainRam with rambr := lowByte s.src } t ∧ FlagsKept s t ∧ t.ramBuf = [] ∧
      ∀ a, Memory.read t.ram a = s.ramByte a := by
  obtain ⟨t, ht, w, f⟩ := finish_spec { s.drainRam with rambr := lowByte s.src }
  have noStore : t.ramBuf = [] := w.rest.ram.pending
  refine ⟨t, ht, w, ⟨f.zero, f.carry, f.sign, f.overflow⟩, noStore, fun a => ?_⟩
  calc Memory.read t.ram a = t.ramByte a := read_ram_of_ramBuf_nil noStore a
    _ = s.drainRam.ramByte a := w.rest.ram.bytes a
    _ = s.ramByte a := drainRam_ramByte s a

theorem exec_romb_spec (s : State) :
    ∃ t, exec .romb s = .next t ∧ WroteNoReg { s with rombr := lowByte s.src } t ∧ FlagsKept s t := by
  obtain ⟨t, ht, w, f⟩ := finish_spec { s with rombr := lowByte s.src }
  exact ⟨t, ht, w, f.zero, f.carry, f.sign, f.overflow⟩

theorem exec_cmode_spec (s : State) :
    ∃ t, exec .cmode s = .next t ∧ WroteNoReg { s with por := s.src.extractLsb' 0 4 } t ∧ FlagsKept s t := by
  obtain ⟨t, ht, w, f⟩ := finish_spec { s with por := lowNybble (lowByte s.src) }
  rw [← lowNybble_lowByte]
  exact ⟨t, ht, w, f.zero, f.carry, f.sign, f.overflow⟩

/-- Settles O41: each of the three ends in `finish` with its register written. -/
theorem banksAndPlotOptionsComeFromSreg : Obligations.BanksAndPlotOptionsComeFromSreg := fun s =>
  ⟨exec_ramb_spec s, exec_romb_spec s, exec_cmode_spec s⟩

/-! ## The ROM buffer (45_rom.md R260 to R265) -/

/-- The end of an instruction that writes COLR and may have drawn free values. -/
theorem finish_colour (b : State) (c : Byte) (d : Nat) :
    ∃ t, finish { b with colr := c, draws := d } = .next t ∧ WroteNoReg { b with colr := t.colr, draws := t.draws } t ∧
      FlagsKept b t ∧ t.colr = c := by
  obtain ⟨t, ht, w, f⟩ := finish_spec { b with colr := c, draws := d }
  have colr : t.colr = c := w.rest.system.colr
  have draws : t.draws = d := w.rest.system.draws
  refine ⟨t, ht, ?_, ⟨f.zero, f.carry, f.sign, f.overflow⟩, colr⟩
  rw [colr, draws]
  exact w

/-- GETC with a byte to read, filled or free: that byte to COLR while POR bits 2 and 3 are 0, else any (R265). -/
theorem execGetc_of_read {s : State} {v : Byte} (h : s.readRomBuffer = .ok (v, { s with romPending := false })) :
    ∃ t, execGetc s = .next t ∧ WroteNoReg { s with romPending := false, colr := t.colr, draws := t.draws } t ∧
      FlagsKept s t ∧ (s.por.getLsbD 2 = false → s.por.getLsbD 3 = false → t.colr = v) := by
  unfold execGetc
  rw [h]
  by_cases options : (s.por.getLsbD 2 || s.por.getLsbD 3) = true
  · obtain ⟨t, ht, w, f, _⟩ := finish_colour { s with romPending := false } (Config.freeByte s.draws) (s.draws + 1)
    refine ⟨t, (if_pos options).trans ht, w, ⟨f.zero, f.carry, f.sign, f.overflow⟩, fun h2 h3 => ?_⟩
    rw [h2, h3] at options
    cases options
  · obtain ⟨t, ht, w, f, colr⟩ := finish_colour { s with romPending := false } v s.draws
    exact ⟨t, (if_neg options).trans ht, w, ⟨f.zero, f.carry, f.sign, f.overflow⟩, fun _ _ => colr⟩

theorem getTo_unmapped {s : State} (h : s.romStatus = .unmapped) (f : Byte → Word → Word) :
    getTo f s = .refused .unmappedData := by
  unfold getTo
  rw [readRomBuffer_eq, h]

theorem execGetc_unmapped {s : State} (h : s.romStatus = .unmapped) : execGetc s = .refused .unmappedData := by
  unfold execGetc
  rw [readRomBuffer_eq, h]

/-- Settles O44: the buffer's content before a write of r14 is one free byte; outside ROM there is none to read. -/
theorem unsetAndUnmappedRomBuffers : Obligations.UnsetAndUnmappedRomBuffers := by
  refine fun s => ⟨fun h => ⟨Config.launchRombuf, ?getb, ?getbh, ?getbl, ?getbs, ?getc⟩, fun h => ?unmapped⟩
  case getb => exact getTo_unset h fun v _ => zext8 v
  case getbh => exact getTo_unset h fun v a => wordOf v (lowByte a)
  case getbl => exact getTo_unset h fun v a => wordOf (highByte a) v
  case getbs => exact getTo_unset h fun v _ => sext8 v
  case getc => exact execGetc_of_read (by rw [readRomBuffer_eq, h])
  case unmapped =>
    exact ⟨(getTo_unmapped h _ : execGetb s = _), (getTo_unmapped h _ : execGetbh s = _),
      (getTo_unmapped h _ : execGetbl s = _), (getTo_unmapped h _ : execGetbs s = _), execGetc_unmapped h⟩

/-- GETB with DReg = r0 and the buffer filled. -/
theorem exec_getb_to_r0 {s : State} (loaded : s.romStatus = .loaded) (hd : s.dreg = 0) :
    ∃ t, exec .getb s = .next t ∧ t.reg 0 = s.rombuf.zeroExtend 16 ∧ t.reg 14 = s.reg 14 := by
  obtain ⟨t, ht, w, _⟩ := exec_getb_loaded loaded
  rw [hd] at w
  exact ⟨t, ht, w.regs.dest, w.regs.others 14 (by decide) (by decide)⟩

/-- Settles O45: the write of r14 fills the buffer, and a ROMB leaves it. -/
theorem romBytesComeFromTheBankOfTheWrite : Obligations.RomBytesComeFromTheBankOfTheWrite := by
  intro s a mapped
  obtain ⟨t, ht, wt, _⟩ := exec_iwt_spec 14 a s
  obtain ⟨buffer, loaded⟩ := wt.rom.mapped rfl mapped
  obtain ⟨u, hu, wu, _⟩ := exec_romb_spec t
  obtain ⟨v, hv, v0, v14⟩ := exec_getb_to_r0 (wu.regs.romStatus.trans loaded) wu.prefixData.dreg
  obtain ⟨w, hw, w0, _⟩ := exec_getb_to_r0 loaded wt.prefixData.dreg
  have kept : u.rombuf = t.rombuf := wu.regs.rombuf
  have r14 : u.reg 14 = t.reg 14 := wu.regs.others 14 (by decide)
  refine ⟨t, u, v, w, ht, hu, hv, hw, ?_, ?_, ?_⟩
  · rw [v0, kept, buffer]
  · rw [w0, v0, kept]
  · rw [v14, r14, wt.regs.dest]

/-! ## Control (46_control.md R288, R291, R293, R295, R296) -/

/-- Settles O47: the two rows of the decoder, and the rule of the branches at their conditions. -/
theorem braAndBneBranch : Obligations.BraAndBneBranch :=
  ⟨fun _ _ _ => ⟨rfl, rfl⟩, fun s d => ⟨branchIf_spec true d s, branchIf_spec (!s.zf) d s⟩⟩

/-- R296. -/
theorem exec_ljmp_spec (s : State) (n : Reg) :
    ∃ t, exec (.ljmp n) s = .next t ∧
      WroteReg 15 (s.reg n) { s with pbr := lowByte s.src, cacheFlags := [], cbr := t.cbr, draws := t.draws } t ∧
      FlagsKept s t := by
  obtain ⟨t, ht, w, f⟩ := finishReg_spec 15 (s.reg n)
    (State.drew { s with pbr := lowByte s.src, cacheFlags := [], cbr := Config.freeWord s.draws } 1)
  have cbr : t.cbr = Config.freeWord s.draws := w.rest.system.cbr
  have draws : t.draws = s.draws + 1 := w.rest.system.draws
  refine ⟨t, ht, ?_, f.zero, f.carry, f.sign, f.overflow⟩
  rw [cbr, draws]
  exact w

/-- R293: with the base at r15 already, writing it again changes nothing. -/
theorem execCache_eq (s : State) :
    execCache s = finish { s with cbr := s.reg 15, cacheFlags := if s.cbr = s.reg 15 then s.cacheFlags else [] } := by
  unfold execCache
  by_cases h : s.cbr = s.pc
  · have h15 : s.cbr = s.reg 15 := h
    rw [if_pos h, if_pos h15, ← h15]
  · rw [if_neg h, if_neg (show ¬ s.cbr = s.reg 15 from h)]
    rfl

theorem exec_cache_spec (s : State) :
    ∃ t, exec .cache s = .next t ∧ FlagsKept s t ∧
      WroteNoReg { s with cbr := s.reg 15, cacheFlags := if s.cbr = s.reg 15 then s.cacheFlags else [] } t := by
  obtain ⟨t, ht, w, f⟩ :=
    finish_spec { s with cbr := s.reg 15, cacheFlags := if s.cbr = s.reg 15 then s.cacheFlags else [] }
  exact ⟨t, (execCache_eq s).trans ht, ⟨f.zero, f.carry, f.sign, f.overflow⟩, w⟩

/-- Settles O49: LJMP ends in a write of r15, CACHE in none. -/
theorem ljmpAndCache : Obligations.LjmpAndCache := fun s n => ⟨exec_ljmp_spec s n, exec_cache_spec s⟩

/-- R295. -/
theorem exec_link_spec (s : State) (k : Nibble) : YieldsPlain 11 (s.reg 15 + k.zeroExtend 16) s (exec (.link k) s) :=
  finishReg_spec 11 (s.pc + zext4 k) s

/-- A run's first step, of any machine. -/
theorem run_succ_of_next {M : Host.Core} {s t : M.State} (h : M.step s = .next t) (k : Nat) : M.run (k + 1) s = M.run k t := by
  rw [Host.Core.run, h]

theorem run_succ {s t : State} (h : step s = .next t) (k : Nat) : Sys2Proof.core.run (k + 1) s = Sys2Proof.core.run k t :=
  run_succ_of_next (M := Sys2Proof.core) h k

/-- An end that writes a register issues no store and writes none out, so code reads as before. -/
theorem finishReg_ram {n : Reg} {v : Word} {s t : State} (h : finishReg n v s = .next t) : t.ram = s.ram := by
  cases h
  split <;> simp

/-- A register write keeps code open. -/
theorem finishReg_codeRead {n : Reg} {v : Word} {s t : State} (h : finishReg n v s = .next t) (bank : Byte) (a : Word) :
    t.codeRead bank a = s.codeRead bank a := by
  obtain ⟨u, hu, w, _⟩ := finishReg_spec n v s
  cases hu.symm.trans h
  exact codeRead_congr w.rest.system.params w.rest.system.code (finishReg_ram h) w.rest.ram.stored bank a

/-- The step of LINK #4, with no prefix in force. -/
theorem step_link {s : State} (hg : s.go = true) (hc : PrefixCleared s) (hopen : s.CodeOpen) (hp : s.pipe = 0x94) :
    ∃ t, step s = .next t ∧ t.go = true ∧ PrefixCleared t ∧ t.pbr = s.pbr ∧ s.codeRead s.pbr (s.reg 15) = .ok t.pipe ∧
      (∀ bank a, t.codeRead bank a = s.codeRead bank a) ∧ t.reg 15 = s.reg 15 + 1 ∧ t.reg 11 = s.reg 15 + 4 := by
  obtain ⟨b, hb, hs⟩ := step_of_no_inline (i := .link 4) hg hopen (by rw [hc.altMode_eq, hp]; rfl)
    (by rw [hc.altMode_eq, hp]; rfl)
  obtain ⟨t, ht, w, _⟩ := exec_link_spec { s with pipe := b } 4
  have pipe : t.pipe = b := w.rest.system.pipe
  have code : ∀ bank a, t.codeRead bank a = s.codeRead bank a :=
    finishReg_codeRead (n := 11) (v := s.pc + zext4 4) (s := { s with pipe := b }) ht
  rw [← pipe] at hb
  exact ⟨t, hs.trans ht, w.rest.system.go.trans hg, w.prefixData, w.rest.system.pbr, hb, code,
    w.regs.pc (by decide), w.regs.dest⟩

/-- The step of IWT R15, with no prefix in force: the jump, with the byte behind the instruction in the pipe. -/
theorem step_iwt_pc {s : State} {lo hi : Byte} (hg : s.go = true) (hc : PrefixCleared s) (hopen : s.CodeOpen)
    (hp : s.pipe = 0xff) (hlo : s.codeRead s.pbr (s.reg 15) = .ok lo) (hhi : s.codeRead s.pbr (s.reg 15 + 1) = .ok hi) :
    ∃ t, step s = .next t ∧ t.reg 15 = hi ++ lo ∧ (∀ m, m ≠ 15 → t.reg m = s.reg m) ∧
      s.codeRead s.pbr (s.reg 15 + 2) = .ok t.pipe := by
  obtain ⟨bytes, u, hf⟩ := fetch_open hopen
  obtain ⟨rest, rfl, f⟩ := fetch_ok hf
  rw [hc.altMode_eq, hp, show inlineBytes .none 0xff = 2 from rfl, show isBranchByte .none 0xff = false from rfl] at f
  obtain ⟨b0, b1, rfl⟩ := List.length_eq_two.1 f.length
  have h0 : s.codeRead s.pbr (s.reg 15) = .ok b0 := by simpa using f.reads 0 (by simp)
  obtain rfl : lo = b0 := Except.ok.inj (hlo.symm.trans h0)
  obtain rfl : hi = b1 := Except.ok.inj (hhi.symm.trans (f.reads 1 (by simp)))
  have decoded : decode s.altMode [s.pipe, lo, hi] = .ok (.iwt 15 (hi ++ lo), []) := by rw [hc.altMode_eq, hp]; rfl
  obtain ⟨t, ht, w, _⟩ := exec_iwt_spec 15 (hi ++ lo) u
  refine ⟨t, (step_eq_exec hg hf decoded).trans ht, w.regs.dest, fun m hm => ?_, ?_⟩
  · rw [w.regs.others m hm hm, f.reg_eq hm]
  · rw [w.rest.system.pipe]
    exact f.next

/-- Settles O50: LINK's end; and a step of LINK, then a step of IWT R15 from where it leaves off. -/
theorem linkSavesTheReturnAddress : Obligations.LinkSavesTheReturnAddress := by
  refine ⟨exec_link_spec, fun s lo hi hg hc hopen hr => ?_⟩
  obtain ⟨hp, reads⟩ := hr
  obtain ⟨t, ht, tgo, tclear, tpbr, tpipe, tcode, tpc, tlink⟩ := step_link hg hc hopen hp
  have next : ∀ k a, t.codeRead t.pbr (t.reg 15 + k) = .ok a ↔ s.codeRead s.pbr (s.reg 15 + 1 + k) = .ok a := by
    intro k a
    rw [tcode, tpbr, tpc]
  have h0 : s.codeRead s.pbr (s.reg 15) = .ok 0xff := by simpa [State.pc] using reads 0 (by simp)
  have h1 : s.codeRead s.pbr (s.reg 15 + 1) = .ok lo := reads 1 (by simp)
  have h2 : s.codeRead s.pbr (s.reg 15 + 1 + 1) = .ok hi := by
    rw [BitVec.add_assoc]
    exact reads 2 (by simp)
  have topen : t.CodeOpen := fun a => by
    rw [tcode, tpbr]
    exact hopen a
  obtain ⟨u, hu, upc, uregs, upipe⟩ := step_iwt_pc tgo tclear topen (Except.ok.inj (tpipe.symm.trans h0))
    (by rw [tcode, tpbr, tpc]; exact h1) ((next 1 hi).2 h2)
  refine ⟨u, (run_succ ht 1).trans (run_succ hu 0), upc, ?_, ?_⟩
  · rw [uregs 11 (by decide), tlink]
  · have := (next 2 u.pipe).1 upipe
    rwa [BitVec.add_assoc] at this

end Sys2Proof.Machine
end

section
/-!
PROOF. The pixel instructions (47_plot.md R311 to R313): the table of COLOR, the one pixel PLOT draws, and what RPIX reads back.
-/

namespace Sys2Proof.Machine

/-! ## COLOR (R311) -/

theorem highNybble_lowByte (w : Word) : highNybble (lowByte w) = w.extractLsb' 4 4 :=
  BitVec.extractLsb'_extractLsb'_of_le (by decide)

theorem lowNybble_nybbles (h l : Nibble) : lowNybble (nybbles h l) = l := by
  apply BitVec.eq_of_toNat_eq
  have := l.isLt
  rw [lowNybble_toNat, nybbles_toNat]
  omega

/-- The colour function writes COLR and may draw free values. -/
theorem setColour_eq (s : State) (k : Byte) :
    s.setColour k = { s with colr := (s.setColour k).colr, draws := (s.setColour k).draws } := by
  unfold State.setColour
  split <;> rfl

section
variable {s : State} {k : Byte}

theorem setColour_plain (bit : s.hiNybbleBit = false)
    (h : s.hiNybbleLock = false ∨ s.params.colorDepth = .sixteen) : (s.setColour k).colr = k := by
  unfold State.setColour
  rw [bit]
  obtain lock | depth := h
  · rw [lock]
    cases s.params.colorDepth <;> rfl
  · rw [depth]
    cases s.hiNybbleLock <;> rfl

theorem setColour_locked (depth : s.params.colorDepth = .twoFiftySix) (lock : s.hiNybbleLock = true) :
    (s.setColour k).colr = nybbles (highNybble s.colr) (if s.hiNybbleBit then highNybble k else lowNybble k) := by
  unfold State.setColour
  rw [depth, lock]
  cases s.hiNybbleBit <;> rfl

theorem setColour_highNybble (depth : s.params.colorDepth = .sixteen) (bit : s.hiNybbleBit = true) :
    lowNybble (s.setColour k).colr = highNybble k := by
  unfold State.setColour
  rw [depth, bit]
  cases s.hiNybbleLock <;> exact lowNybble_nybbles _ _

end

/-- Settles O52: COLOR's table, row by row, and GETC with a filled buffer. -/
theorem colorAndGetcSetTheColour : Obligations.ColorAndGetcSetTheColour := by
  refine fun s => ⟨?color, fun loaded => execGetc_of_read (by rw [readRomBuffer_eq, loaded])⟩
  case color =>
    obtain ⟨t, ht, w, f, colr⟩ :=
      finish_colour s (s.setColour (lowByte s.src)).colr (s.setColour (lowByte s.src)).draws
    rw [← setColour_eq] at ht
    refine ⟨t, ht, w, f, fun bit h => ?plain, fun depth lock => ?locked, fun depth bit => ?high⟩
    case plain => exact colr.trans (setColour_plain bit h)
    case locked =>
      rw [colr, setColour_locked depth lock, highNybble_lowByte, lowNybble_lowByte]
      rfl
    case high =>
      rw [colr, ← highNybble_lowByte]
      exact setColour_highNybble depth bit

/-! ## PLOT (R312) -/

/-- The state after PLOT's pixel, before r1 counts up. -/
def State.plotted (s : State) : State :=
  (if s.isTransparent then s else s.pixelWrite s.plotX s.plotY s.plotColour).drew s.plotDraws

theorem execPlot_eq (s : State) : execPlot s = finishReg 1 (s.reg 1 + 1) s.plotted := rfl

theorem plotted_eq (s : State) : s.plotted = { s with plotBuf := s.plotted.plotBuf, draws := s.plotted.draws } := by
  unfold State.plotted
  split <;> rfl

theorem pixelWrite_pixel (s : State) (x y c x' y' : Byte) :
    (s.pixelWrite x y c).pixel x' y' = if x' = x ∧ y' = y then c else s.pixel x' y' := by
  have h : pendingByte [(pixelAddr x y, c)] (pixelAddr x' y') = if x' = x ∧ y' = y then some c else none := by
    rw [pendingByte_cons, pendingByte_nil, Option.none_or]
    exact if_congr (eq_comm.trans (pixelAddr_inj x' y' x y)) rfl rfl
  rw [State.pixel, State.pixelWrite, readThrough_append, h]
  split <;> rfl

theorem plotted_pixel (s : State) (x y : Byte) :
    s.plotted.pixel x y =
      if s.isTransparent = false ∧ x = s.plotX ∧ y = s.plotY then s.plotColour else s.pixel x y := by
  unfold State.plotted
  cases s.isTransparent
  · exact (pixelWrite_pixel s s.plotX s.plotY s.plotColour x y).trans (if_congr (by simp) rfl rfl)
  · rfl

theorem lowNybble_eq_zero_iff (b : Byte) : lowNybble b = 0 ↔ b.toNat % 16 = 0 := by
  rw [← BitVec.toNat_inj, lowNybble_toNat]
  rfl

/-- R312 in 16-colour mode: COLR's low nybble is the colour that may be transparent. -/
theorem isTransparent_sixteen {s : State} (h : s.params.colorDepth = .sixteen) :
    s.isTransparent = true ↔ s.por.getLsbD 0 = true ∧ s.colr.toNat % 16 = 0 := by
  unfold State.isTransparent
  rw [h, Bool.and_eq_true, ← lowNybble_eq_zero_iff]
  exact and_congr_right fun _ => decide_eq_true_iff

/-- R312 in 256-colour mode: all of COLR, or with the lock its low nybble. -/
theorem isTransparent_twoFiftySix {s : State} (h : s.params.colorDepth = .twoFiftySix) :
    s.isTransparent = true ↔
      s.por.getLsbD 0 = true ∧ if s.por.getLsbD 3 then s.colr.toNat % 16 = 0 else s.colr = 0 := by
  unfold State.isTransparent
  rw [h, Bool.and_eq_true, ← lowNybble_eq_zero_iff]
  refine and_congr_right fun _ => ?_
  show (if s.por.getLsbD 3 = true then decide (lowNybble s.colr = 0) else decide (s.colr = 0)) = true ↔ _
  split <;> exact decide_eq_true_iff

theorem lowByte_bit0 (w : Word) : (lowByte w).getLsbD 0 = decide (w.toNat % 2 = 1) := by
  rw [← word_bit0]
  simp [lowByte]

/-- `(x XOR y) AND 1 = 1` says that r1 + r2 is odd. -/
theorem ditherHigh_iff (s : State) : s.ditherHigh = true ↔ ((s.reg 1).toNat + (s.reg 2).toNat) % 2 = 1 := by
  rw [State.ditherHigh, State.plotX, State.plotY, lowByte_bit0, lowByte_bit0, bne_iff_ne, ne_eq, decide_eq_decide]
  omega

theorem nybbles_zero (n : Nibble) : nybbles 0 n = BitVec.ofNat 8 n.toNat := by
  apply BitVec.eq_of_toNat_eq
  have := n.isLt
  rw [nybbles_toNat, BitVec.toNat_ofNat, show (0 : Nibble).toNat = 0 from rfl]
  omega

theorem plotColour_sixteen {s : State} (h : s.params.colorDepth = .sixteen) :
    s.plotColour = if s.por.getLsbD 1 ∧ ((s.reg 1).toNat + (s.reg 2).toNat) % 2 = 1 then BitVec.ofNat 8 (s.colr.toNat / 16)
      else BitVec.ofNat 8 (s.colr.toNat % 16) := by
  have colour : s.plotColour = nybbles 0 (if s.dithering && s.ditherHigh then highNybble s.colr else lowNybble s.colr) := by
    unfold State.plotColour
    rw [h]
  rw [colour, nybbles_zero, ← highNybble_toNat, ← lowNybble_toNat, apply_ite BitVec.toNat, apply_ite (BitVec.ofNat 8)]
  exact if_congr (by rw [Bool.and_eq_true, ditherHigh_iff]; rfl) rfl rfl

theorem plotColour_undithered {s : State} (h : s.params.colorDepth = .twoFiftySix) (dither : s.por.getLsbD 1 = false) :
    s.plotColour = s.colr := by
  unfold State.plotColour
  rw [h]
  exact if_neg (by rw [State.dithering, dither]; decide)

/-- An end that writes a register writes no pixel out. -/
theorem finishReg_pix {n : Reg} {v : Word} {s t : State} (h : finishReg n v s = .next t) : t.pix = s.pix := by
  cases h
  split <;> simp

/-- What PLOT does to all but the pixels: r1 counts up, and free values may be drawn. -/
theorem exec_plot_spec (s : State) :
    ∃ t, exec .plot s = .next t ∧ RegWritten 1 (s.reg 1 + 1) s t ∧ RomFollows 1 (s.reg 1 + 1) s t ∧ FlagsKept s t ∧
      PrefixCleared t ∧ SystemKept { s with draws := t.draws } t ∧ RamKept s t ∧ t.pix = s.pix ∧
      ∀ x y, t.pixel x y = s.plotted.pixel x y := by
  obtain ⟨t, ht, w, f⟩ := finishReg_spec 1 (s.reg 1 + 1) s.plotted
  have pix := finishReg_pix ht
  have pixels := w.rest.pixels.pixels
  refine ⟨t, (execPlot_eq s).trans ht, ?_⟩
  rw [plotted_eq] at w f pix
  obtain ⟨regs, rom, cleared, system, ram, _⟩ := w
  have draws : t.draws = s.plotted.draws := system.draws
  refine ⟨⟨regs.dest, regs.others, regs.pc⟩, ⟨rom.kept, rom.pending, rom.mapped, rom.unmapped⟩,
    ⟨f.zero, f.carry, f.sign, f.overflow⟩, cleared, ?_, ⟨ram.bytes, ram.pending, ram.stored⟩, pix, pixels⟩
  rw [draws]
  obtain ⟨⟩ := system
  constructor <;> assumption

theorem plotted_pixel_other {s : State} {x y : Byte} (h : x ≠ s.plotX ∨ y ≠ s.plotY) : s.plotted.pixel x y = s.pixel x y := by
  rw [plotted_pixel]
  exact if_neg fun e => h.elim (· e.2.1) (· e.2.2)

theorem plotted_pixel_transparent {s : State} (h : s.isTransparent = true) (x y : Byte) :
    s.plotted.pixel x y = s.pixel x y := by
  rw [plotted_pixel]
  exact if_neg (by simp [h])

theorem plotted_pixel_drawn {s : State} (h : ¬ s.isTransparent = true) : s.plotted.pixel s.plotX s.plotY = s.plotColour := by
  rw [plotted_pixel]
  exact if_pos ⟨by simpa using h, rfl, rfl⟩

/-- PLOT's pixel in 16-colour mode. -/
theorem plotted_pixel_sixteen {s : State} (h : s.params.colorDepth = .sixteen) :
    s.plotted.pixel s.plotX s.plotY =
      if s.por.getLsbD 0 ∧ s.colr.toNat % 16 = 0 then s.pixel s.plotX s.plotY
      else if s.por.getLsbD 1 ∧ ((s.reg 1).toNat + (s.reg 2).toNat) % 2 = 1 then BitVec.ofNat 8 (s.colr.toNat / 16)
      else BitVec.ofNat 8 (s.colr.toNat % 16) := by
  by_cases transparent : s.isTransparent = true
  · rw [if_pos ((isTransparent_sixteen h).1 transparent), plotted_pixel_transparent transparent]
  · rw [if_neg (mt (isTransparent_sixteen h).2 transparent), plotted_pixel_drawn transparent, plotColour_sixteen h]

/-- PLOT's pixel in 256-colour mode with a transparent colour. -/
theorem plotted_pixel_256_transparent {s : State} (h : s.params.colorDepth = .twoFiftySix) (on : s.por.getLsbD 0 = true)
    (colour : if s.por.getLsbD 3 then s.colr.toNat % 16 = 0 else s.colr = 0) (x y : Byte) :
    s.plotted.pixel x y = s.pixel x y :=
  plotted_pixel_transparent ((isTransparent_twoFiftySix h).2 ⟨on, colour⟩) x y

/-- PLOT's pixel in 256-colour mode with a colour that is drawn and no dithering. -/
theorem plotted_pixel_256_drawn {s : State} (h : s.params.colorDepth = .twoFiftySix)
    (drawn : s.por.getLsbD 0 = false ∨ ¬ (if s.por.getLsbD 3 then s.colr.toNat % 16 = 0 else s.colr = 0))
    (dither : s.por.getLsbD 1 = false) : s.plotted.pixel s.plotX s.plotY = s.colr := by
  have notTransparent : ¬ s.isTransparent = true := by
    rw [isTransparent_twoFiftySix h]
    rintro ⟨on, colour⟩
    exact drawn.elim (fun off => absurd (on.symm.trans off) nofun) (· colour)
  rw [plotted_pixel_drawn notTransparent, plotColour_undithered h dither]

/-- Settles O53: the end of PLOT, and its pixel in each mode. -/
theorem plotWritesOnePixel : Obligations.PlotWritesOnePixel := by
  intro s
  obtain ⟨t, ht, regs, rom, flags, cleared, system, ram, pix, pixels⟩ := exec_plot_spec s
  refine ⟨t, ht, regs, rom, flags, cleared, system, ram, pix, fun x y h => ?other, fun h => ?sixteen,
    fun h => ⟨fun on colour => ?transparent, fun drawn dither => ?solid⟩⟩
  case other => exact (pixels x y).trans (plotted_pixel_other h)
  case sixteen => exact (pixels _ _).trans (plotted_pixel_sixteen h)
  case transparent => exact (pixels _ _).trans (plotted_pixel_256_transparent h on colour _ _)
  case solid => exact (pixels _ _).trans (plotted_pixel_256_drawn h drawn dither)

/-! ## RPIX (R313) -/

theorem colourOf_sixteen_toNat (p : Byte) : (colourOf .sixteen p).toNat = p.toNat % 16 := by
  rw [colourOf, BitVec.toNat_setWidth_of_le (by decide), lowNybble_toNat]

theorem colourOf_twoFiftySix_toNat (p : Byte) : (colourOf .twoFiftySix p).toNat = p.toNat % 256 :=
  (Nat.mod_eq_of_lt p.isLt).symm

/-- RPIX reads the pixel at (r1, r2), plots still buffered included, at the width of the mode. -/
theorem exec_rpix_spec (s : State) :
    ∃ t, exec .rpix s = .next t ∧
      WroteReg s.dreg (zext8 (colourOf s.params.colorDepth (s.pixel s.plotX s.plotY))) s.drainPlot t ∧
      FlagsSZ (zext8 (colourOf s.params.colorDepth (s.pixel s.plotX s.plotY))) s t := by
  have read : Memory.read s.drainPlot.pix (pixelAddr s.plotX s.plotY) = s.pixel s.plotX s.plotY := read_drainInto _ _ _
  obtain ⟨t, ht, w, f⟩ :=
    finishReg_setSZ s.dreg (zext8 (colourOf s.params.colorDepth (s.pixel s.plotX s.plotY))) s.drainPlot
  refine ⟨t, ?_, w, f.sign, f.zero, f.carry, f.overflow⟩
  rw [← ht, ← read]
  rfl

/-- Settles O54: the read after the drain, as a number below the number of colours. -/
theorem rpixReadsThePixel : Obligations.RpixReadsThePixel := by
  intro s
  obtain ⟨t, ht, w, f⟩ := exec_rpix_spec s
  refine ⟨_, t, ht, w, f, w.rest.pixels.pending, fun x y => (w.rest.pixels.pixels x y).trans (drainPlot_pixel s x y), ?_⟩
  rw [zext8_toNat]
  cases s.params.colorDepth with
  | sixteen => exact colourOf_sixteen_toNat _
  | twoFiftySix => exact colourOf_twoFiftySix_toNat _

/-- PLOT and DEC R1: back at PLOT's position, the pixels as PLOT left them, and DReg r0. -/
theorem exec_plot_dec (s : State) :
    ∃ t u, exec .plot s = .next t ∧ exec (.dec 1) t = .next u ∧ u.dreg = 0 ∧ u.params = s.params ∧ u.plotX = s.plotX ∧
      u.plotY = s.plotY ∧ ∀ x y, u.pixel x y = s.plotted.pixel x y := by
  obtain ⟨t, ht, regs, _, _, _, system, _, _, pixels⟩ := exec_plot_spec s
  obtain ⟨u, hu, w, _⟩ := finishReg_setSZ 1 (t.reg 1 - 1) t
  have params : t.params = s.params := system.params
  have r1 : u.reg 1 = s.reg 1 := by rw [w.regs.dest, regs.dest, add_sub_cancel_right]
  have r2 : u.reg 2 = s.reg 2 :=
    (w.regs.others 2 (by decide) (by decide)).trans (regs.others 2 (by decide) (by decide))
  exact ⟨t, u, ht, hu, w.prefixData.dreg, w.rest.system.params.trans params, congrArg lowByte r1, congrArg lowByte r2,
    fun x y => (w.rest.pixels.pixels x y).trans (pixels x y)⟩

/-- What RPIX then reads is the pixel PLOT left at its position, at the width of the mode. -/
theorem exec_plot_dec_rpix (s : State) :
    ∃ t u v, exec .plot s = .next t ∧ exec (.dec 1) t = .next u ∧ exec .rpix u = .next v ∧ (v.zf = true ↔ v.reg 0 = 0) ∧
      v.reg 0 = zext8 (colourOf s.params.colorDepth (s.plotted.pixel s.plotX s.plotY)) := by
  obtain ⟨t, u, ht, hu, dreg, params, x, y, pixels⟩ := exec_plot_dec s
  obtain ⟨v, hv, w, f⟩ := exec_rpix_spec u
  have r0 := w.regs.dest
  rw [dreg] at r0
  refine ⟨t, u, v, ht, hu, hv, ?_, ?_⟩
  · rw [f.zero, r0, decide_eq_true_iff]
  · rw [r0, params, x, y, pixels]

/-- Settles O55: the pixel PLOT leaves in each mode, read back at the mode's width. -/
theorem rpixReturnsWhatPlotDrew : Obligations.RpixReturnsWhatPlotDrew := by
  intro s
  obtain ⟨t, u, v, ht, hu, hv, zero, r0⟩ := exec_plot_dec_rpix s
  refine ⟨t, u, v, ht, hu, hv, zero, fun h => ?sixteen, fun h => ⟨fun on colour => ?transparent, fun drawn dither => ?solid⟩⟩
  case sixteen =>
    have colr := s.colr.isLt
    rw [r0, zext8_toNat, h, colourOf_sixteen_toNat, plotted_pixel_sixteen h]
    split_ifs
    · rfl
    · rw [BitVec.toNat_ofNat]
      omega
    · rw [BitVec.toNat_ofNat]
      omega
  case transparent =>
    rw [r0, zext8_toNat, h, plotted_pixel_256_transparent h on colour]
    rfl
  case solid =>
    rw [r0, zext8_toNat, h, plotted_pixel_256_drawn h drawn dither]
    rfl

end Sys2Proof.Machine
end

section
/-!
PROOF. The assembler's spellings (30_encoding.md R114; 43_immediate_move.md R213 to R216). A spelling is prefixes and a last
instruction: what is left of `s` behind the prefixes is `s` some bytes further with other prefix data, which nothing the last
instruction does depends on but its selectors; and the machine run over the bytes takes the same steps.
-/

namespace Sys2Proof.Machine

/-! ## Behind the prefixes -/

/-- Some bytes further and then more: only the sum counts, and the fetch's registers and the prefix data reached last. -/
theorem pastBytes_pastBytes (s v u : State) (a b : Word) :
    (((s.pastBytes a v).withPrefixOf v).pastBytes b u).withPrefixOf u = (s.pastBytes (a + b) u).withPrefixOf u := by
  simp [State.pastBytes, State.withPrefixOf, State.setReg, State.reg, BitVec.add_assoc]

/-- `v` is reached from `s` by prefixes that leave the selectors and b of `p`, and by taking the bytes up to the `k`th. -/
structure BehindPrefix (k : Nat) (s p v : State) : Prop where
  state : v = (s.pastBytes (BitVec.ofNat 16 k) v).withPrefixOf v
  next : s.codeRead s.pbr (s.reg 15 + BitVec.ofNat 16 k) = .ok v.pipe
  b : v.b = p.b
  sreg : v.sreg = p.sreg
  dreg : v.dreg = p.dreg

section
variable {k : Nat} {s p v : State} (h : BehindPrefix k s p v)
include h

theorem BehindPrefix.reg_eq {m : Reg} (hm : m ≠ 15) : v.reg m = s.reg m := by
  rw [h.state]
  exact (State.reg_setReg s 15 m _).trans (if_neg hm)

theorem BehindPrefix.pc_eq : v.reg 15 = s.reg 15 + BitVec.ofNat 16 k := by
  rw [h.state]
  exact (State.reg_setReg s 15 15 _).trans (if_pos rfl)

theorem BehindPrefix.codeRead_eq (bank : Byte) (a : Word) : v.codeRead bank a = s.codeRead bank a := by
  rw [h.state]
  rfl

theorem BehindPrefix.pbr_eq : v.pbr = s.pbr := by
  rw [h.state]
  rfl

theorem BehindPrefix.codeOpen (hopen : s.CodeOpen) : v.CodeOpen := fun a => by
  rw [h.codeRead_eq, h.pbr_eq]
  exact hopen a

theorem BehindPrefix.ramOpen_iff (a : Word) : v.RamOpen (v.ramAddr a) ↔ s.RamOpen (s.ramAddr a) := by
  rw [h.state]
  rfl

theorem BehindPrefix.wordOpen_iff (a : Word) : v.WordOpen a ↔ s.WordOpen a :=
  and_congr (h.ramOpen_iff a) (h.ramOpen_iff (a ^^^ 1))

/-- Prefixes behind prefixes. -/
theorem BehindPrefix.trans {m : Nat} {q u : State} (g : BehindPrefix m v q u) : BehindPrefix (k + m) s q u := by
  refine ⟨?state, ?next, g.b, g.sreg, g.dreg⟩
  case state =>
    calc u = (v.pastBytes (BitVec.ofNat 16 m) u).withPrefixOf u := g.state
      _ = (((s.pastBytes (BitVec.ofNat 16 k) v).withPrefixOf v).pastBytes (BitVec.ofNat 16 m) u).withPrefixOf u :=
        congrArg (fun w => (w.pastBytes (BitVec.ofNat 16 m) u).withPrefixOf u) h.state
      _ = (s.pastBytes (BitVec.ofNat 16 (k + m)) u).withPrefixOf u := by rw [pastBytes_pastBytes, BitVec.ofNat_add]
  case next =>
    have next := g.next
    rwa [h.codeRead_eq, h.pbr_eq, h.pc_eq, BitVec.add_assoc, ← BitVec.ofNat_add] at next

end

/-- The end of a prefix and the fetch of the form behind it. -/
theorem thenForm_behindPrefix {s p : State} (hopen : s.CodeOpen) (k : Nat) (hk : k ≤ 2) {o : Result}
    (ho : o = complete false (s.withPrefixOf p)) (f : State → Result) :
    ∃ v, BehindPrefix (1 + k) s p v ∧ andThen o (thenForm k f) = f v := by
  have open' : (s.withPrefixOf p).advance.CodeOpen := CodeOpen.congr hopen rfl rfl rfl rfl rfl
  obtain ⟨bytes, v, hv⟩ := takeForm_open open' hk false
  have taken := takeForm_ok hk hv
  have pc : (s.withPrefixOf p).advance.reg 15 + BitVec.ofNat 16 k = s.reg 15 + BitVec.ofNat 16 (1 + k) := by
    rw [State.reg_advance, if_pos rfl, BitVec.ofNat_add, ← BitVec.add_assoc]
    rfl
  refine ⟨v, ⟨?state, ?next, ?b, ?sreg, ?dreg⟩, ?runs⟩
  case state =>
    have state := taken.state
    rw [pc] at state
    refine state.trans ?_
    rw [state]
    simp [State.pastBytes, State.withPrefixOf, State.setReg, State.advance]
  case next => exact pc ▸ taken.next
  case b => rw [taken.state]; rfl
  case sreg => rw [taken.state]; rfl
  case dreg => rw [taken.state]; rfl
  case runs =>
    rw [ho]
    show thenForm k f (s.withPrefixOf p).advance = f v
    rw [thenForm, hv]

/-- ALT prefixes leave the selectors and b. -/
theorem BehindPrefix.of_alt {k : Nat} {s v : State} {x y : Bool} (h : BehindPrefix k s { s with alt1 := x, alt2 := y } v) :
    BehindPrefix k s s v := ⟨h.state, h.next, h.b, h.sreg, h.dreg⟩

/-! ## What does not depend on the prefix data -/

/-- What an instruction writes does not depend on the prefix data it starts from. -/
theorem WroteReg.of_withPrefixOf {n : Reg} {x : Word} {b p t : State} (w : WroteReg n x (b.withPrefixOf p) t) :
    WroteReg n x b t :=
  ⟨⟨w.regs.dest, w.regs.others, w.regs.pc⟩, ⟨w.rom.kept, w.rom.pending, w.rom.mapped, w.rom.unmapped⟩, w.prefixData,
    by obtain ⟨⟨⟩, ⟨⟩, ⟨⟩⟩ := w.rest; constructor <;> constructor <;> assumption⟩

theorem YieldsPlain.of_withPrefixOf {n : Reg} {x : Word} {b p : State} {o : Result}
    (h : YieldsPlain n x (b.withPrefixOf p) o) : YieldsPlain n x b o := by
  obtain ⟨t, ho, w, f⟩ := h
  exact ⟨t, ho, w.of_withPrefixOf, f.zero, f.carry, f.sign, f.overflow⟩

theorem Stores.of_withPrefixOf {new : List Host.Cell} {b p : State} {o : Result} (h : Stores new (b.withPrefixOf p) o) :
    Stores new b o := by
  obtain ⟨t, ho, regs, f, cleared, system, ram, pixels⟩ := h
  refine ⟨t, ho, ⟨regs.others, regs.pc, regs.rombuf, regs.romStatus, regs.romPending⟩, ⟨f.zero, f.carry, f.sign, f.overflow⟩,
    cleared, ?_, ⟨ram.bytes, ram.pending, ram.stored⟩, ⟨pixels.pixels, pixels.pending⟩⟩
  obtain ⟨⟩ := system
  constructor <;> assumption

/-- The step completes, with the pipe and the in-line buffer as they are in `s`. -/
def KeepsFetched (s : State) (o : Result) : Prop := ∃ t, o = .next t ∧ t.pipe = s.pipe ∧ t.inlineLo = s.inlineLo

theorem YieldsPlain.keepsFetched {n : Reg} {x : Word} {b : State} {o : Result} (h : YieldsPlain n x b o) : KeepsFetched b o := by
  obtain ⟨t, ho, w, _⟩ := h
  exact ⟨t, ho, w.rest.system.pipe, w.rest.system.inlineLo⟩

theorem Stores.keepsFetched {new : List Host.Cell} {b : State} {o : Result} (h : Stores new b o) : KeepsFetched b o := by
  obtain ⟨t, ho, _, _, _, system, _⟩ := h
  exact ⟨t, ho, system.pipe, system.inlineLo⟩

/-- An outcome behind prefixes, said of the state some bytes further: what it says must not depend on the prefix data. -/
theorem BehindPrefix.pastBytes {k : Nat} {s p v : State} (h : BehindPrefix k s p v) {o : Result} {P : State → Result → Prop}
    (hv : P v o) (kept : KeepsFetched v o) (hP : ∀ b q o, P (b.withPrefixOf q) o → P b o) :
    PastBytes (BitVec.ofNat 16 k) s o P := by
  obtain ⟨t, ho, pipe, inlineLo⟩ := kept
  have base : s.pastBytes (BitVec.ofNat 16 k) t = s.pastBytes (BitVec.ofNat 16 k) v := by
    simp only [State.pastBytes, pipe, inlineLo]
  refine ⟨t, ho, ?_, hP _ v o ?_⟩
  · rw [pipe]
    exact h.next
  · rwa [base, ← h.state]

theorem LoadsWord.of_withPrefixOf {n : Reg} {a : Word} {b p : State} {o : Result} (h : LoadsWord n a (b.withPrefixOf p) o) :
    LoadsWord n a b o := YieldsPlain.of_withPrefixOf (b := { b with lastram := a, lastramSet := true }) (p := p) h

theorem LoadsByte.of_withPrefixOf {n : Reg} {a : Word} {b p : State} {o : Result} (h : LoadsByte n a (b.withPrefixOf p) o) :
    LoadsByte n a b o := YieldsPlain.of_withPrefixOf (b := { b with lastram := a, lastramSet := true }) (p := p) h

theorem StoresWord.of_withPrefixOf {a x : Word} {b p : State} {o : Result} (h : StoresWord a x (b.withPrefixOf p) o) :
    StoresWord a x b o := Stores.of_withPrefixOf (b := { b with lastram := a, lastramSet := true }) (p := p) h

theorem StoresByte.of_withPrefixOf {a x : Word} {b p : State} {o : Result} (h : StoresByte a x (b.withPrefixOf p) o) :
    StoresByte a x b o := Stores.of_withPrefixOf (b := { b with lastram := a, lastramSet := true }) (p := p) h

/-- See `BehindPrefix.pastBytes`, for a load of a word. -/
theorem BehindPrefix.loadsWord {k : Nat} {s p v : State} (h : BehindPrefix k s p v) {o : Result} {n : Reg} {a : Word}
    (hv : LoadsWord n a v o) : PastBytes (BitVec.ofNat 16 k) s o (LoadsWord n a) :=
  h.pastBytes hv (YieldsPlain.keepsFetched (b := { v with lastram := a, lastramSet := true }) hv)
    fun _ _ _ => LoadsWord.of_withPrefixOf

theorem BehindPrefix.loadsByte {k : Nat} {s p v : State} (h : BehindPrefix k s p v) {o : Result} {n : Reg} {a : Word}
    (hv : LoadsByte n a v o) : PastBytes (BitVec.ofNat 16 k) s o (LoadsByte n a) :=
  h.pastBytes hv (YieldsPlain.keepsFetched (b := { v with lastram := a, lastramSet := true }) hv)
    fun _ _ _ => LoadsByte.of_withPrefixOf

/-- See `BehindPrefix.pastBytes`, for a store of a register's word. -/
theorem BehindPrefix.storesWord {k : Nat} {s p v : State} (h : BehindPrefix k s p v) {o : Result} {n : Reg} {a : Word}
    (hv : StoresWord a (v.reg n) v o) : PastBytes (BitVec.ofNat 16 k) s o (fun b o => StoresWord a (b.reg n) b o) :=
  h.pastBytes (P := fun b o => StoresWord a (b.reg n) b o) hv
    (Stores.keepsFetched (b := { v with lastram := a, lastramSet := true }) hv) fun _ _ _ => StoresWord.of_withPrefixOf

theorem BehindPrefix.storesByte {k : Nat} {s p v : State} (h : BehindPrefix k s p v) {o : Result} {n : Reg} {a : Word}
    (hv : StoresByte a (v.reg n) v o) : PastBytes (BitVec.ofNat 16 k) s o (fun b o => StoresByte a (b.reg n) b o) :=
  h.pastBytes (P := fun b o => StoresByte a (b.reg n) b o) hv
    (Stores.keepsFetched (b := { v with lastram := a, lastramSet := true }) hv) fun _ _ _ => StoresByte.of_withPrefixOf

/-! ## The prefixes of the spellings -/

theorem exec_toReg_eq {s : State} (h : s.b = false) (n : Reg) :
    exec (.toReg n) s = complete false (s.withPrefixOf { s with dreg := n }) := if_neg (by simp [h])

theorem exec_fromReg_eq {s : State} (h : s.b = false) (n : Reg) :
    exec (.fromReg n) s = complete false (s.withPrefixOf { s with sreg := n }) := if_neg (by simp [h])

section
variable {s : State} (hopen : s.CodeOpen)
include hopen

theorem moveRR_behind (d n : Reg) :
    ∃ v, BehindPrefix 1 s { s with sreg := n, dreg := n, b := true } v ∧ exec (.moveRR d n) s = exec (.toReg d) v :=
  thenForm_behindPrefix hopen 0 (by decide) rfl (execTo d)

theorem movesRR_behind (d n : Reg) :
    ∃ v, BehindPrefix 1 s { s with sreg := d, dreg := d, b := true } v ∧ exec (.movesRR d n) s = exec (.fromReg n) v :=
  thenForm_behindPrefix hopen 0 (by decide) rfl (execFrom n)

theorem moveLoadShort_behind (n : Reg) (x : BitVec 9) :
    ∃ v, BehindPrefix 2 s s v ∧ exec (.moveLoadShort n x) s = loadWordTo n (shortAddress (shortIndex x)) v := by
  obtain ⟨v, h, e⟩ := thenForm_behindPrefix (p := { s with alt1 := true }) hopen 1 (by decide) rfl (execLms n (shortIndex x))
  exact ⟨v, h.of_alt, e⟩

theorem moveStoreShort_behind (n : Reg) (x : BitVec 9) :
    ∃ v, BehindPrefix 2 s s v ∧ exec (.moveStoreShort n x) s = storeWordAt (shortAddress (shortIndex x)) (v.reg n) v := by
  obtain ⟨v, h, e⟩ := thenForm_behindPrefix (p := { s with alt2 := true }) hopen 1 (by decide) rfl (execSms n (shortIndex x))
  exact ⟨v, h.of_alt, e⟩

theorem moveLoad_behind (n : Reg) (a : Word) : ∃ v, BehindPrefix 3 s s v ∧ exec (.moveLoad n a) s = loadWordTo n a v := by
  obtain ⟨v, h, e⟩ := thenForm_behindPrefix (p := { s with alt1 := true }) hopen 2 (by decide) rfl (execLm n a)
  exact ⟨v, h.of_alt, e⟩

theorem moveStore_behind (n : Reg) (a : Word) :
    ∃ v, BehindPrefix 3 s s v ∧ exec (.moveStore n a) s = storeWordAt a (v.reg n) v := by
  obtain ⟨v, h, e⟩ := thenForm_behindPrefix (p := { s with alt2 := true }) hopen 2 (by decide) rfl (execSm n a)
  exact ⟨v, h.of_alt, e⟩

theorem movebLoad0_behind (i : Reg) : ∃ v, BehindPrefix 1 s s v ∧ exec (.movebLoad0 i) s = execLdb i v := by
  obtain ⟨v, h, e⟩ := thenForm_behindPrefix (p := { s with alt1 := true }) hopen 0 (by decide) rfl (execLdb i)
  exact ⟨v, h.of_alt, e⟩

theorem movebStore0_behind (i : Reg) : ∃ v, BehindPrefix 1 s s v ∧ exec (.movebStore0 i) s = execStb i v := by
  obtain ⟨v, h, e⟩ := thenForm_behindPrefix (p := { s with alt1 := true }) hopen 0 (by decide) rfl (execStb i)
  exact ⟨v, h.of_alt, e⟩

theorem movewLoad_behind (hb : s.b = false) (n i : Reg) :
    ∃ v, BehindPrefix 1 s { s with dreg := n } v ∧ exec (.movewLoad n i) s = loadWordTo v.dreg (v.reg i) v :=
  thenForm_behindPrefix hopen 0 (by decide) (exec_toReg_eq hb n) (execLdw i)

theorem movewStore_behind (hb : s.b = false) (n i : Reg) :
    ∃ v, BehindPrefix 1 s { s with sreg := n } v ∧ exec (.movewStore n i) s = storeWordAt (v.reg i) v.src v :=
  thenForm_behindPrefix hopen 0 (by decide) (exec_fromReg_eq hb n) (execStw i)

theorem movebLoad_behind (hb : s.b = false) (n i : Reg) :
    ∃ v, BehindPrefix 2 s { s with dreg := n } v ∧ exec (.movebLoad n i) s = execLdb i v := by
  obtain ⟨u, hu, eu⟩ := thenForm_behindPrefix hopen 0 (by decide) (exec_toReg_eq hb n) (execMovebLoad0 i)
  obtain ⟨v, hv, ev⟩ := movebLoad0_behind (hu.codeOpen hopen) i
  have h := hu.trans hv
  exact ⟨v, ⟨h.state, h.next, h.b.trans hu.b, h.sreg.trans hu.sreg, h.dreg.trans hu.dreg⟩, eu.trans ev⟩

theorem movebStore_behind (hb : s.b = false) (n i : Reg) :
    ∃ v, BehindPrefix 2 s { s with sreg := n } v ∧ exec (.movebStore n i) s = execStb i v := by
  obtain ⟨u, hu, eu⟩ := thenForm_behindPrefix hopen 0 (by decide) (exec_fromReg_eq hb n) (execMovebStore0 i)
  obtain ⟨v, hv, ev⟩ := movebStore0_behind (hu.codeOpen hopen) i
  have h := hu.trans hv
  exact ⟨v, ⟨h.state, h.next, h.b.trans hu.b, h.sreg.trans hu.sreg, h.dreg.trans hu.dreg⟩, eu.trans ev⟩

end

/-! ## Moves between registers (R213, R215) -/

/-- Settles O56: behind WITH, which sets b and names both registers, TO and FROM are moves. -/
theorem registerMoves : Obligations.RegisterMoves := by
  refine fun s d n hopen => ⟨?move, ?moves⟩
  case move =>
    obtain ⟨v, hv, e⟩ := moveRR_behind hopen d n
    have moved := exec_toReg_move hv.b d
    rw [State.src, hv.sreg] at moved
    rw [e]
    exact hv.pastBytes (P := fun b o => YieldsPlain d (b.reg n) b o) moved moved.keepsFetched
      fun _ _ _ => YieldsPlain.of_withPrefixOf
  case moves =>
    obtain ⟨v, hv, e⟩ := movesRR_behind hopen d n
    obtain ⟨t, ht, w, flags⟩ := exec_fromReg_move hv.b n
    have dreg : v.dreg = d := hv.dreg
    rw [dreg] at w
    rw [e]
    refine hv.pastBytes ⟨t, ht, w, flags⟩ ⟨t, ht, w.rest.system.pipe, w.rest.system.inlineLo⟩ ?_
    rintro b q o ⟨t, ht, w, flags⟩
    exact ⟨t, ht, w.of_withPrefixOf, flags⟩

/-! ## Moves from and to RAM (R213, R214, R216) -/

theorem ne_pc_of_addressRegOk {i : Reg} (h : addressRegOk i = true) : i ≠ 15 := by
  rintro rfl
  cases h

/-- The byte stored for an even short address is half of it (30_encoding.md R105). -/
theorem shortAddress_shortIndex {x : BitVec 9} (h : x.getLsbD 0 = false) : shortAddress (shortIndex x) = x.zeroExtend 16 := by
  have even : x.toNat % 2 = 0 := by simpa [BitVec.getLsbD, Nat.testBit_zero] using h
  have := x.isLt
  apply BitVec.eq_of_toNat_eq
  rw [shortAddress_eq, BitVec.toNat_setWidth_of_le (by decide), BitVec.toNat_mul, BitVec.toNat_setWidth_of_le (by decide)]
  rw [shortIndex, BitVec.extractLsb'_toNat, Nat.shiftRight_eq_div_pow, show (2 : Word).toNat = 2 from rfl]
  omega

/-- Settles O57: each is its load, at the address its register still holds behind the prefixes. -/
theorem ramMovesLoad : Obligations.RamMovesLoad := by
  intro s n i a x hopen hi
  have hi := ne_pc_of_addressRegOk hi
  refine ⟨fun even h => ?short, fun h => ?word, fun h => ⟨?byte0, fun hb => ?byte⟩, fun h hb => ?wordTo⟩
  case short =>
    obtain ⟨v, hv, e⟩ := moveLoadShort_behind hopen n x
    rw [e, shortAddress_shortIndex even]
    exact hv.loadsWord (loadWordTo_open ((hv.wordOpen_iff _).2 h) n)
  case word =>
    obtain ⟨v, hv, e⟩ := moveLoad_behind hopen n a
    rw [e]
    exact hv.loadsWord (loadWordTo_open ((hv.wordOpen_iff _).2 h) n)
  case byte0 =>
    obtain ⟨v, hv, e⟩ := movebLoad0_behind hopen i
    rw [← hv.reg_eq hi] at h ⊢
    rw [e, ← hv.dreg]
    exact hv.loadsByte (execLdb_open ((hv.ramOpen_iff _).2 h))
  case byte =>
    obtain ⟨v, hv, e⟩ := movebLoad_behind hopen hb n i
    have dreg : v.dreg = n := hv.dreg
    rw [← hv.reg_eq hi] at h ⊢
    rw [e, ← dreg]
    exact hv.loadsByte (execLdb_open ((hv.ramOpen_iff _).2 h))
  case wordTo =>
    obtain ⟨v, hv, e⟩ := movewLoad_behind hopen hb n i
    have dreg : v.dreg = n := hv.dreg
    rw [← hv.reg_eq hi] at h ⊢
    rw [e, dreg]
    exact hv.loadsWord (loadWordTo_open ((hv.wordOpen_iff _).2 h) n)

/-- Settles O58: each is its store, at the address its register still holds behind the prefixes. -/
theorem ramMovesStore : Obligations.RamMovesStore := by
  intro s n i a x hopen hi
  have hi := ne_pc_of_addressRegOk hi
  refine ⟨fun even h => ?short, fun h => ?word, fun h => ⟨?byte0, fun hb => ?byte⟩, fun h hb => ?wordFrom⟩
  case short =>
    obtain ⟨v, hv, e⟩ := moveStoreShort_behind hopen n x
    rw [e, shortAddress_shortIndex even]
    exact hv.storesWord (storeWordAt_open ((hv.wordOpen_iff _).2 h) _)
  case word =>
    obtain ⟨v, hv, e⟩ := moveStore_behind hopen n a
    rw [e]
    exact hv.storesWord (storeWordAt_open ((hv.wordOpen_iff _).2 h) _)
  case byte0 =>
    obtain ⟨v, hv, e⟩ := movebStore0_behind hopen i
    have stored := execStb_open ((hv.ramOpen_iff _).2 (by rwa [hv.reg_eq hi]))
    rw [hv.reg_eq hi, State.src, hv.sreg] at stored
    rw [e]
    exact hv.storesByte (n := s.sreg) stored
  case byte =>
    obtain ⟨v, hv, e⟩ := movebStore_behind hopen hb n i
    have stored := execStb_open ((hv.ramOpen_iff _).2 (by rwa [hv.reg_eq hi]))
    rw [hv.reg_eq hi, State.src, hv.sreg] at stored
    rw [e]
    exact hv.storesByte stored
  case wordFrom =>
    obtain ⟨v, hv, e⟩ := movewStore_behind hopen hb n i
    rw [e, hv.reg_eq hi, State.src, hv.sreg]
    exact hv.storesWord (storeWordAt_open ((hv.wordOpen_iff _).2 h) _)

/-- Settles O59: the load or the store behind the prefixes checks the same addresses. -/
theorem ramMovesOfClosedRamAreRefused : Obligations.RamMovesOfClosedRamAreRefused := by
  intro s n i a x hopen hi
  have hi := ne_pc_of_addressRegOk hi
  have wordClosed : ∀ {k p v b}, BehindPrefix k s p v → ¬ s.WordOpen b → ¬ v.WordOpen b := fun hv h =>
    mt (hv.wordOpen_iff _).1 h
  have byteClosed : ∀ {k p v}, BehindPrefix k s p v → ¬ s.RamOpen (s.ramAddr (s.reg i)) →
      ¬ v.RamOpen (v.ramAddr (v.reg i)) := fun hv h => by
    rw [hv.reg_eq hi]
    exact mt (hv.ramOpen_iff _).1 h
  refine ⟨fun even h => ⟨?loadShort, ?storeShort⟩, fun h => ⟨?load, ?store⟩,
    fun h => ⟨?loadByte0, ?storeByte0, fun hb => ⟨?loadByte, ?storeByte⟩⟩, fun h hb => ⟨?loadTo, ?storeFrom⟩⟩
  case loadShort =>
    obtain ⟨v, hv, e⟩ := moveLoadShort_behind hopen n x
    rw [e, shortAddress_shortIndex even]
    exact loadWordTo_closed (wordClosed hv h) n
  case storeShort =>
    obtain ⟨v, hv, e⟩ := moveStoreShort_behind hopen n x
    rw [e, shortAddress_shortIndex even]
    exact storeWordAt_closed (wordClosed hv h) _
  case load =>
    obtain ⟨v, hv, e⟩ := moveLoad_behind hopen n a
    rw [e]
    exact loadWordTo_closed (wordClosed hv h) n
  case store =>
    obtain ⟨v, hv, e⟩ := moveStore_behind hopen n a
    rw [e]
    exact storeWordAt_closed (wordClosed hv h) _
  case loadByte0 =>
    obtain ⟨v, hv, e⟩ := movebLoad0_behind hopen i
    rw [e]
    exact execLdb_closed (byteClosed hv h)
  case storeByte0 =>
    obtain ⟨v, hv, e⟩ := movebStore0_behind hopen i
    rw [e]
    exact execStb_closed (byteClosed hv h)
  case loadByte =>
    obtain ⟨v, hv, e⟩ := movebLoad_behind hopen hb n i
    rw [e]
    exact execLdb_closed (byteClosed hv h)
  case storeByte =>
    obtain ⟨v, hv, e⟩ := movebStore_behind hopen hb n i
    rw [e]
    exact execStb_closed (byteClosed hv h)
  case loadTo =>
    obtain ⟨v, hv, e⟩ := movewLoad_behind hopen hb n i
    rw [e, hv.reg_eq hi]
    exact loadWordTo_closed (wordClosed hv h) _
  case storeFrom =>
    obtain ⟨v, hv, e⟩ := movewStore_behind hopen hb n i
    rw [e, hv.reg_eq hi]
    exact storeWordAt_closed (wordClosed hv h) _

end Sys2Proof.Machine
end

section
/-!
PROOF. The machine run over the bytes of an assembler spelling (30_encoding.md R112, R114): the bytes of the next instruction are
fetched and decoded as it, a prefix leaves the machine at the bytes behind it, and so each step is one form of the sequence.
-/

namespace Sys2Proof.Machine

/-! ## The form of an instruction that is read -/

/-- The bytes a decoding uses up are the opcode byte and its in-line bytes. -/
theorem inlineBytes_of_decode {alt : Alt} {op : Byte} {bs : List Byte} {i : Instr} (h : decode alt (op :: bs) = .ok (i, [])) :
    inlineBytes alt op = bs.length := by
  rw [decode] at h
  unfold Shape.complete at h
  split at h <;> cases h <;> rename_i e <;> rw [inlineBytes, e] <;> rfl

/-- A form with a branch's offset is a branch: the other forms with one in-line byte are row `$An`. -/
theorem isBranchByte_eq_false_of_decode {alt : Alt} {op : Byte} {bs : List Byte} {i : Instr}
    (h : decode alt (op :: bs) = .ok (i, [])) (hb : i.isBranch = false) : isBranchByte alt op = false := by
  by_contra branch
  have one := (inlineBytes_of_decode h).symm.trans (inlineBytes_branch (by simpa using branch))
  obtain ⟨hc, _, _, e⟩ := decodedInstructionsEncodeBack _ _ _ _ h
  rw [List.append_nil] at e
  have two : (encodeBody i).length = 2 := by rw [← e, List.length_cons, one]
  cases i with
  | ibt n k | lms n k | sms n k =>
    obtain ⟨rfl, _⟩ := List.cons.inj e
    rw [isBranchByte, shape_rowA] at branch
    cases alt <;> exact branch rfl
  | bra | blt | bge | bne | beq | bpl | bmi | bcc | bcs | bvc | bvs => cases hb
  | _ => cases two

theorem encodeBody_eq_cons {alt : Alt} {i : Instr} (h : i.ReadUnder alt) : ∃ op bs, encodeBody i = op :: bs := by
  have decoded := decode_encodeBody h []
  cases e : encodeBody i with
  | nil =>
    rw [e] at decoded
    cases decoded
  | cons op bs => exact ⟨op, bs, rfl⟩

/-- The fetch of an instruction whose bytes are next takes exactly these, as the form they are. -/
theorem fetch_of_readsNext {s v : State} {i : Instr} {rest bytes : List Byte} (hi : i.ReadUnder s.altMode)
    (hb : i.isBranch = false) (hr : s.ReadsNext (encodeBody i ++ rest)) (hf : s.fetch = .ok (bytes, v)) :
    bytes = encodeBody i ∧ ∃ inl, s.takeForm ((encodeBody i).length - 1) false = .ok (inl, v) := by
  obtain ⟨op, bs, e⟩ := encodeBody_eq_cons hi
  have decoded := decode_encodeBody hi []
  rw [e, List.append_nil] at decoded
  rw [e, List.cons_append] at hr
  rw [e]
  obtain ⟨rfl, reads⟩ := hr
  have count := inlineBytes_of_decode decoded
  rw [State.fetch, count, isBranchByte_eq_false_of_decode decoded hb] at hf
  split at hf
  · cases hf
  next inl u taken =>
    cases hf
    have f := takeForm_ok (count ▸ inlineBytes_le _ _) taken
    have inline : inl = bs := List.ext_getElem f.length fun k hk hk' => by
      have read := reads k (by rw [List.length_append]; omega)
      rw [List.getElem_append_left hk'] at read
      exact Except.ok.inj ((f.reads k hk).symm.trans read)
    exact ⟨congrArg _ inline, inl, taken⟩

/-- The step that takes an instruction whose bytes are next runs it. -/
theorem step_of_readsNext {s v : State} {i : Instr} {rest bytes : List Byte} (hg : s.go = true) (hi : i.ReadUnder s.altMode)
    (hb : i.isBranch = false) (hr : s.ReadsNext (encodeBody i ++ rest)) (hf : s.fetch = .ok (bytes, v)) :
    step s = exec i v := by
  obtain ⟨rfl, _⟩ := fetch_of_readsNext hi hb hr hf
  have decoded := decode_encodeBody hi []
  rw [List.append_nil] at decoded
  exact step_eq_exec hg hf decoded

/-! ## A prefix -/

theorem isBranch_eq_false_of_isPrefix {i : Instr} {b : Bool} (h : i.isPrefix b = true) : i.isBranch = false := by
  cases i with
  | alt1 | alt2 | alt3 | withReg | toReg | fromReg => rfl
  | _ => cases h

/-- A prefix is one with less of b. -/
theorem isPrefix_of_le {i : Instr} {b c : Bool} (hc : c = true → b = true) (h : i.isPrefix b = true) : i.isPrefix c = true := by
  cases i with
  | alt1 | alt2 | alt3 | withReg => rfl
  | toReg | fromReg => cases c with
    | false => rfl
    | true => exact hc rfl ▸ h
  | _ => cases h

theorem encodeBody_prefix {i : Instr} {b : Bool} (h : i.isPrefix b = true) : ∃ op, encodeBody i = [op] := by
  cases i with
  | alt1 | alt2 | alt3 | withReg | toReg | fromReg => exact ⟨_, rfl⟩
  | _ => cases h

/-- The next byte is read under the ALT mode that a prefix leaves (30_encoding.md R107). -/
theorem exec_prefix_altMode {i : Instr} {s t : State} (hp : i.isPrefix s.b = true) (h : exec i s = .next t) :
    t.altMode = altAfter s.altMode i := by
  cases i with
  | alt1 | alt2 | alt3 =>
    cases h
    rw [State.altMode, State.altMode]
    cases s.alt1 <;> cases s.alt2 <;> rfl
  | withReg n =>
    cases h
    rfl
  | toReg n =>
    rw [exec_toReg_eq (by simpa [Instr.isPrefix] using hp)] at h
    cases h
    rfl
  | fromReg n =>
    rw [exec_fromReg_eq (by simpa [Instr.isPrefix] using hp)] at h
    cases h
    rfl
  | _ => cases hp

/-- Where the machine stands behind a byte it has taken: at the bytes that follow it. -/
theorem State.ReadsNext.tail {s t : State} {op : Byte} {rest : List Byte} (h : s.ReadsNext (op :: rest))
    (code : ∀ a, t.codeRead t.pbr a = s.codeRead s.pbr a) (pipe : s.codeRead s.pbr (s.reg 15) = .ok t.pipe)
    (pc : t.reg 15 = s.reg 15 + 1) : t.ReadsNext rest := by
  obtain ⟨_, reads⟩ := h
  cases rest with
  | nil => trivial
  | cons b bs =>
    have first : s.codeRead s.pbr (s.reg 15) = .ok b :=
      (congrArg (s.codeRead s.pbr) (add_zero _)).symm.trans (reads 0 (Nat.succ_pos _))
    refine ⟨Except.ok.inj (pipe.symm.trans first), fun k hk => ?_⟩
    have read := reads (k + 1) (Nat.succ_lt_succ hk)
    rw [BitVec.ofNat_add] at read
    rw [code, State.pc, pc, BitVec.add_assoc, BitVec.add_comm 1]
    exact read

/-- A prefix whose byte is next: where its step leaves the machine. -/
theorem exec_prefix_of_readsNext {s v : State} {i : Instr} {rest bytes : List Byte} (hi : i.ReadUnder s.altMode)
    (hp : i.isPrefix s.b = true) (hopen : s.CodeOpen) (hr : s.ReadsNext (encodeBody i ++ rest))
    (hf : s.fetch = .ok (bytes, v)) :
    ∃ t, exec i v = .next t ∧ t.go = s.go ∧ t.CodeOpen ∧ t.altMode = altAfter s.altMode i ∧ t.ReadsNext rest := by
  obtain ⟨op, e⟩ := encodeBody_prefix hp
  obtain ⟨_, inl, taken⟩ := fetch_of_readsNext hi (isBranch_eq_false_of_isPrefix hp) hr hf
  rw [e] at taken hr
  have f := takeForm_ok (Nat.zero_le 2) taken
  obtain rfl := List.length_eq_zero_iff.1 f.length
  have pipe : s.codeRead s.pbr (s.reg 15) = .ok v.pipe := by simpa using f.next
  have state := f.eq_of_no_inline
  have hpv : i.isPrefix v.b = true := by rwa [state]
  obtain ⟨p, ht, _⟩ := exec_prefix hpv
  refine ⟨(v.withPrefixOf p).advance, ht, ?go, ?code, ?mode, hr.tail ?reads pipe ?pc⟩
  case go => rw [state]; rfl
  case code => rw [state]; exact CodeOpen.congr hopen rfl rfl rfl rfl rfl
  case mode => exact (exec_prefix_altMode hpv ht).trans (congrArg (altAfter · i) f.altMode_eq)
  case reads => rw [state]; exact fun a => rfl
  case pc =>
    rw [State.reg_advance, if_pos rfl, state]
    rfl

/-! ## A sequence -/

/-- A sequence of prefixes and a last instruction that is no branch; b is at most `b` before the first. -/
def PrefixesFirst : Bool → List Instr → Prop
  | _, [] => False
  | _, [i] => i.isBranch = false
  | b, i :: j :: js => i.isPrefix b = true ∧ PrefixesFirst true (j :: js)

theorem prefixesFirst_expand {i : Instr} (h : i.isCore = false) : PrefixesFirst false (expand i) := by
  cases i with
  | lea | moveI8 | moveI16 | movewLoad0 | movewStore0 => rfl
  | moveRR | movesRR | moveLoadShort | moveLoad | moveStoreShort | moveStore | movebLoad0 | movebStore0 | movewLoad
  | movewStore => exact ⟨rfl, rfl⟩
  | movebLoad | movebStore => exact ⟨rfl, rfl, rfl⟩
  | _ => cases h

theorem PrefixesFirst.isBranch_head {b : Bool} {i : Instr} {js : List Instr} (h : PrefixesFirst b (i :: js)) :
    i.isBranch = false := by
  cases js with
  | nil => exact h
  | cons j js => exact isBranch_eq_false_of_isPrefix h.1

/-- A run of one step, of any machine. -/
theorem run_one (M : Host.Core) (s : M.State) : M.run 1 s = M.step s := by
  rw [Host.Core.run]
  cases M.step s <;> rfl

/-- The machine run over the bytes of a sequence is the run of its forms, one step each. -/
theorem run_eq_runForms {i : Instr} {js : List Instr} {b : Bool} {s v : State} {bytes : List Byte} (hg : s.go = true)
    (hb : s.b = true → b = true) (hopen : s.CodeOpen) (turn : ReadInTurn s.altMode (i :: js))
    (first : PrefixesFirst b (i :: js)) (reads : s.ReadsNext ((i :: js).flatMap encodeBody)) (hf : s.fetch = .ok (bytes, v)) :
    Sys2Proof.core.run (i :: js).length s = runForms (i :: js) v := by
  induction js generalizing i b s v bytes with
  | nil => exact (run_one Sys2Proof.core s).trans (step_of_readsNext hg turn.1 first.isBranch_head reads hf)
  | cons j js ih =>
    obtain ⟨hi, turn⟩ := turn
    have hs := step_of_readsNext hg hi first.isBranch_head reads hf
    obtain ⟨hp, first⟩ := first
    obtain ⟨t, ht, go, open', mode, reads⟩ := exec_prefix_of_readsNext hi (isPrefix_of_le hb hp) hopen reads hf
    rw [← mode] at turn
    obtain ⟨_, u, hu⟩ := fetch_open open'
    obtain ⟨_, inl, taken⟩ := fetch_of_readsNext turn.1 first.isBranch_head reads hu
    have forms : runForms (i :: j :: js) v = runForms (j :: js) u := by
      rw [runForms, ht]
      show thenForm _ _ t = _
      rw [thenForm, taken]
    exact (run_succ (hs.trans ht) _).trans ((ih (go.trans hg) (fun _ => rfl) open' turn first reads hu).trans forms.symm)

/-- Settles O19: the sequence of a spelling is prefixes and a last instruction, read in turn from ALT mode 0. -/
theorem assemblerSpellingsRunAsTheirSequences : Obligations.AssemblerSpellingsRunAsTheirSequences := by
  intro i s t bytes hw hc hg clear hopen reads hf
  have first := prefixesFirst_expand hc
  have turn := readInTurn_expand hw
  rw [exec_spelling hc]
  rw [encode] at reads
  rw [← clear.altMode_eq] at turn
  cases e : expand i with
  | nil =>
    rw [e] at first
    exact first.elim
  | cons j js =>
    rw [e] at first turn reads
    exact run_eq_runForms hg (fun hb => absurd (clear.b.symm.trans hb) nofun) hopen turn first reads hf

end Sys2Proof.Machine
end
